-- ==== Sys2Proof/Word.lean ====
section
/-! DEFINITION. The word types of the core (R20, R24, R39, R70, R90): plain bit vectors, so that the
library's own lemmas about `BitVec` apply. -/

namespace Sys2Proof

/-- A byte: an operand byte, a buffer byte, CURRENT_TRACK (R32, R47, R93). -/
abbrev Byte := BitVec 8

/-- A 16-bit value: the operand W, a CRC, a buffer-space address (R19, R70, R90). -/
abbrev Half := BitVec 16

/-- A 32-bit value: a command word, a host register, a timestamp (R20, R39, R90). -/
abbrev Word := BitVec 32

end Sys2Proof
end

