-- ==== Sys2Proof/Machine/Operands.lean ====
section
/-! DEFINITION. The fields of a command word and how a word is put together from them (R90, R92,
R93), and the byte order of a word on a byte-serial link (R79). -/

namespace Sys2Proof.Machine

/-- OPC = w[7:0]. -/
def fieldOpc (w : Word) : Byte := w.extractLsb' 0 8
/-- A = w[15:8]. -/
def fieldA (w : Word) : Byte := w.extractLsb' 8 8
/-- B = w[23:16]. -/
def fieldB (w : Word) : Byte := w.extractLsb' 16 8
/-- C = w[31:24]. -/
def fieldC (w : Word) : Byte := w.extractLsb' 24 8
/-- W = w[31:16], which overlaps B and C. -/
def fieldW (w : Word) : Half := w.extractLsb' 16 16

/-- Format ABC of R92; formats Z and A are this one with zero fields. -/
def wordABC (opc a b c : Byte) : Word := c ++ b ++ a ++ opc
/-- Format AW of R92; format W is this one with A = 0. -/
def wordAW (opc a : Byte) (w : Half) : Word := w ++ a ++ opc

/-- R79: byte k of a word is bits [8k+7:8k]. -/
def bytesOfWord (w : Word) : List Byte := [fieldOpc w, fieldA w, fieldB w, fieldC w]
/-- R79, read the other way: the first byte is bits [7:0]. -/
def wordOfBytes (b0 b1 b2 b3 : Byte) : Word := b3 ++ b2 ++ b1 ++ b0

end Sys2Proof.Machine
end

