-- ==== Sys2Proof/Syntax.lean ====
section
/-! DEFINITION. The commands of the core, one constructor per row of the opcode map (R94), in the
map's order. Operands are the unsigned fields of R93. -/

namespace Sys2Proof

inductive Instr where
  /-- INIT (0x01, format Z): calibrate and enter READY. -/
  | init
  /-- SEEK track (0x02, format A). -/
  | seek (track : Byte)
  /-- RSEC cyl, head, sector (0x03, format ABC). -/
  | rsec (cyl head sec : Byte)
  /-- RBLK address, count (0x04, format AW): the assembly order of R98; count is field A. -/
  | rblk (addr : Half) (count : Byte)
  /-- MTICK (0x05, format Z). -/
  | mtick
  /-- MOTOR on (0x06, format A): A[0] is the operand. -/
  | motor (on : Bool)
  /-- CLASSIFY d (0x10, format W). -/
  | classify (d : Half)
  /-- XLATE address (0x11, format W). -/
  | xlate (addr : Half)
  /-- DECODE n (0x12, format W), 0 ≤ n ≤ 515. -/
  | decode (n : Half)
  /-- LOCATE cyl, head, sector (0x13, format ABC). -/
  | locate (cyl head sec : Byte)
  /-- RBODY (0x14, format Z). -/
  | rbody
  deriving DecidableEq, Repr

end Sys2Proof
end

