-- ==== Sys2Proof/WellFormed.lean ====
section
/-! DEFINITION. Which commands have an encoding. Every operand is exactly as wide as its field, so
the one check left is DECODE's length (R95: `OPC = 0x12 (DECODE) and W > 515` is illegal). -/

namespace Sys2Proof

/-- The longest record DECODE can read: the size of BODY_BUF (R47, D12). -/
def maxDecodeLength : Nat := 515

/-- The command has an encoding that R95 does not call illegal. -/
def Instr.wf : Instr → Bool
  | .init => true
  | .seek _ => true
  | .rsec _ _ _ => true
  | .rblk _ _ => true
  | .mtick => true
  | .motor _ => true
  | .classify _ => true
  | .xlate _ => true
  | .decode n => decide (n.toNat ≤ maxDecodeLength)
  | .locate _ _ _ => true
  | .rbody => true

end Sys2Proof
end

