-- ==== Sys2Proof/Decode.lean ====
section
/-! DEFINITION. The decoder of command words (R90 to R97), total on every word and every byte
sequence, and after it the encoder, written from the same table. -/

namespace Sys2Proof

open Machine

/-- Why a word is illegal (R95), or a byte sequence is no word. -/
inductive DecodeError where
  /-- w[7:0] is not an opcode of R94 (X1). -/
  | reservedOpcode (opc : Byte)
  /-- A must-be-zero field is nonzero (X2). -/
  | nonzeroField
  /-- DECODE with W > 515 (X3). -/
  | decodeTooLong (n : Half)
  /-- Fewer than the four bytes of a word. -/
  | truncated
  deriving DecidableEq, Repr

/-- `i`, if the fields that R92 and R94 mark as "must be 0" are all zero. -/
def guardZero (zero : Bool) (i : Instr) : Except DecodeError Instr :=
  if zero then .ok i else .error .nonzeroField

/-- R94 and R95: the command a word stands for, or the reason it is illegal. -/
def decodeWord (w : Word) : Except DecodeError Instr :=
  let a := fieldA w
  let b := fieldB w
  let c := fieldC w
  let h := fieldW w
  match (fieldOpc w).toNat with
  | 0x01 => guardZero (a == 0 && h == 0) .init
  | 0x02 => guardZero (h == 0) (.seek a)
  | 0x03 => .ok (.rsec a b c)
  | 0x04 => .ok (.rblk h a)
  | 0x05 => guardZero (a == 0 && h == 0) .mtick
  | 0x06 => guardZero (a.extractLsb' 1 7 == 0 && h == 0) (.motor (a.getLsbD 0))
  | 0x10 => guardZero (a == 0) (.classify h)
  | 0x11 => guardZero (a == 0) (.xlate h)
  | 0x12 =>
    if a == 0 then
      if h.toNat ≤ maxDecodeLength then .ok (.decode h) else .error (.decodeTooLong h)
    else .error .nonzeroField
  | 0x13 => .ok (.locate a b c)
  | 0x14 => guardZero (a == 0 && h == 0) .rbody
  | _ => .error (.reservedOpcode (fieldOpc w))

/-- The first command of a byte sequence, little-endian, with the bytes after it. DEDUCED from R79 and R97 (log
entry 18). -/
def decodeBytes : List Byte → Except DecodeError (Instr × List Byte)
  | b0 :: b1 :: b2 :: b3 :: rest => (decodeWord (wordOfBytes b0 b1 b2 b3)).map (·, rest)
  | _ => .error .truncated

/-- The command the decoder reads from `nbits` bits `w` of an opcode-table row; every higher bit of
the 32-bit word is zero. -/
def decodeTableWord (nbits w : Nat) : Option Instr :=
  match decodeBytes (bytesOfWord (BitVec.ofNat 32 (w % 2 ^ nbits))) with
  | .ok (i, _) => some i
  | .error _ => none

/-- The command word of a command (R92, R94). -/
def encode : Instr → Word
  | .init => wordABC 0x01 0 0 0
  | .seek t => wordABC 0x02 t 0 0
  | .rsec c h s => wordABC 0x03 c h s
  | .rblk addr count => wordAW 0x04 count addr
  | .mtick => wordABC 0x05 0 0 0
  | .motor on => wordABC 0x06 (if on then 1 else 0) 0 0
  | .classify d => wordAW 0x10 0 d
  | .xlate addr => wordAW 0x11 0 addr
  | .decode n => wordAW 0x12 0 n
  | .locate c h s => wordABC 0x13 c h s
  | .rbody => wordABC 0x14 0 0 0

/-- The rows of the machine-readable opcode table (R94): mnemonic, match, mask. -/
def opcodeTable : List (String × Word × Word) :=
  [("INIT", 0x00000001, 0xFFFFFFFF), ("SEEK", 0x00000002, 0xFFFF00FF),
   ("RSEC", 0x00000003, 0x000000FF), ("RBLK", 0x00000004, 0x000000FF),
   ("MTICK", 0x00000005, 0xFFFFFFFF), ("MOTOR", 0x00000006, 0xFFFFFEFF)] ++
  [("CLASSIFY", 0x00000010, 0x0000FFFF), ("XLATE", 0x00000011, 0x0000FFFF),
   ("DECODE", 0x00000012, 0x0000FFFF), ("LOCATE", 0x00000013, 0x000000FF),
   ("RBODY", 0x00000014, 0xFFFFFFFF)]

/-- The mnemonic of a command, as the opcode table spells it. -/
def Instr.mnemonic : Instr → String
  | .init => "INIT"
  | .seek _ => "SEEK"
  | .rsec _ _ _ => "RSEC"
  | .rblk _ _ => "RBLK"
  | .mtick => "MTICK"
  | .motor _ => "MOTOR"
  | .classify _ => "CLASSIFY"
  | .xlate _ => "XLATE"
  | .decode _ => "DECODE"
  | .locate _ _ _ => "LOCATE"
  | .rbody => "RBODY"

end Sys2Proof
end

