-- ==== Sys2Proof/Config.lean ====
section
/-! DEFINITION. The implementation parameters (R10 to R20), the answers of the external oracles
(R21 to R23) and the free values: constants with no body, for what the spec leaves unspecified. -/

namespace Sys2Proof

/-- One answer of the Pulse Source to `NextPulse()` (R21): a duration in ticks, or `Timeout`. -/
inductive PulseAnswer where
  | pulse (d : Nat)
  | timeout
  deriving DecidableEq, Repr, Inhabited

/-- The parameters of 00_scope.md. R30: they are arguments of the model, and no command writes them.
DESIGN CHOICE (log entry 1): the pipeline fixes `exec`'s type, so State carries them; no step changes them.
PULSE_TIMEOUT, STEP_PULSE_WIDTH, STEP_INTERVAL and MOTOR_SPINUP have no value here: R16 and R17 give
them no effect but the `Timeout` answer and the labels of Delay events. -/
structure Params where
  /-- TRACKS, the number of cylinders (R10). -/
  tracks : Nat
  /-- HEADS (R11). -/
  heads : Nat
  /-- SECTORS, sectors per track (R11). -/
  sectors : Nat
  /-- T_MEDIUM, in Pulse Source ticks (R13). -/
  tMedium : Nat
  /-- T_LONG, in Pulse Source ticks (R13). -/
  tLong : Nat
  /-- SYNC_LEN (R14). -/
  syncLen : Nat
  /-- LOCATE_ATTEMPTS (R15). -/
  locateAttempts : Nat
  /-- MOTOR_IDLE_TIMEOUT, in the units of `Now()` (R17). -/
  motorIdleTimeout : Nat
  /-- MAX_BLOCKS (R18). -/
  maxBlocks : Nat
  /-- Values of `crc16` that are given as data; every other argument takes the opaque
  `Config.crc16` (R19; DESIGN CHOICE, log entry 4). -/
  crcTable : List (List Byte × Half)
  deriving DecidableEq, Repr

namespace Params

/-- CAPACITY = TRACKS*HEADS*SECTORS, exact (R11). -/
def capacity (p : Params) : Nat := p.tracks * p.heads * p.sectors

/-- The constraints of R10, R11, R13, R14, R15 and R18. -/
abbrev wf (p : Params) : Prop :=
  (1 ≤ p.tracks ∧ p.tracks ≤ 256) ∧ (1 ≤ p.heads ∧ p.heads ≤ 256) ∧
  (1 ≤ p.sectors ∧ p.sectors ≤ 255) ∧ (0 < p.tMedium ∧ p.tMedium < p.tLong) ∧
  1 ≤ p.syncLen ∧ 1 ≤ p.locateAttempts ∧ (1 ≤ p.maxBlocks ∧ p.maxBlocks ≤ 64)

end Params

/-! The OPEN parameters (R10, R11, R17, R18): one constant each, with no body. A `Fin` carries the
constraint, so that the machine after reset meets `Params.wf` whatever the constants are. -/

/-- TRACKS − 1 of the machine that `State.reset` describes (R10). -/
opaque Config.tracksLessOne : Fin 256
/-- HEADS − 1 of the machine that `State.reset` describes (R11). -/
opaque Config.headsLessOne : Fin 256
/-- SECTORS − 1 of the machine that `State.reset` describes (R11). -/
opaque Config.sectorsLessOne : Fin 255
/-- MAX_BLOCKS − 1 of the machine that `State.reset` describes (R18). -/
opaque Config.maxBlocksLessOne : Fin 64
/-- MOTOR_IDLE_TIMEOUT of the machine that `State.reset` describes (R17). -/
opaque Config.motorIdleTimeout : Nat

/-- The parameters of the machine after reset: the OPEN ones are the constants above; the others are
the spec's defaults (R13, R14, R15). -/
def Config.params : Params where
  tracks := Config.tracksLessOne.val + 1
  heads := Config.headsLessOne.val + 1
  sectors := Config.sectorsLessOne.val + 1
  tMedium := 40
  tLong := 56
  syncLen := 80
  locateAttempts := 50
  motorIdleTimeout := Config.motorIdleTimeout
  maxBlocks := Config.maxBlocksLessOne.val + 1
  crcTable := []

/-- R19: `crc16`, an external pure total function, opaque. -/
opaque Config.crc16 : List Byte → Half

/-! Free values: each use takes the next value of State's counter `draws`. -/

/-- A `NextPulse()` answer that State's script does not give (R21, U7; log entry 2). -/
opaque Config.freePulse : Nat → PulseAnswer
/-- A `Trk0()` answer that State's script does not give (R22, U8). -/
opaque Config.freeTrk0 : Nat → Bool
/-- A `Now()` answer that State's script does not give (R23, U9). -/
opaque Config.freeNow : Nat → Word
/-- A byte left unspecified by a failed decode or a failed sector read (R138, R263; U1, U2; log entry 3). -/
opaque Config.freeByte : Nat → Byte
/-- What a host read returns while BUSY = 1 (R80, U4; log entry 9). -/
opaque Config.freeWord : Nat → Word
/-- What a mapped buffer byte that nothing has written since reset holds (R48, U3; log
entry 5). -/
opaque Config.resetByte : Nat → Byte

end Sys2Proof
end

