-- ==== Sys2Proof/Machine/State.lean ====
section
/-! DEFINITION. The state of the core (10_state.md), as plain data, and its reset value (R48, R340).
Beside the spec's own state it holds what the pipeline's interface needs: the parameters (R30), the
environment's answers as input scripts (R21 to R23), the host's pending accesses (R38, R72, R91), the
output event trace (R25) and the counter of the free values. -/

namespace Sys2Proof.Machine

/-- The class of a pulse (R27, R130). -/
inductive PulseClass where
  | short | medium | long
  deriving DecidableEq, Repr

/-- DEC_PHASE (R43). -/
inductive DecPhase where
  | sync | remainder | mark | bits | done
  deriving DecidableEq, Repr

/-- BIT_STATE (R43). -/
inductive BitState where
  | odd | even
  deriving DecidableEq, Repr

/-- The output lines (R37). -/
inductive OutLine where
  | driveSel | dir | step | headSel | motor
  deriving DecidableEq, Repr

/-- The labels of Delay events (R17, R25); no duration is modelled. -/
inductive DelayLabel where
  | stepPulseWidth | stepInterval | motorSpinup
  deriving DecidableEq, Repr

/-- The events of the output trace (R25). -/
inductive Event where
  | line (l : OutLine) (v : Bool)
  | delay (d : DelayLabel)
  | nextPulse (a : PulseAnswer)
  | trk0 (b : Bool)
  | now (t : Word)
  deriving DecidableEq, Repr

/-- The result codes (R110). The reserved codes 10 to 14 have no name, so none is ever produced (X4). -/
inductive ResultCode where
  | ok | trackOutOfRange | track0NotFound | notInitialized | seekError | sectorNotFound
  | incorrectDataMark | noPulse | crc | invalidAmount | badCommand
  deriving DecidableEq, Repr

/-- One access of the host: whole 32-bit register words (R38, R39), single bytes of the buffer space
(R70 to R72), or none. -/
inductive HostMove where
  /-- A register write at a byte offset. -/
  | writeReg (off : Nat) (w : Word)
  /-- A register read at a byte offset. -/
  | readReg (off : Nat)
  /-- `MemRead(buffer, addr, 1)` (R72). -/
  | readBuf (addr : Half)
  /-- A buffer-space write, ignored (R71). -/
  | writeBuf (addr : Half) (b : Byte)
  /-- No access: a running command goes on to its next point. -/
  | idle
  deriving DecidableEq, Repr

/-- What called ReadSector (R263, R264). -/
inductive SectorCaller where
  | rsec
  | rblk (addr : Half) (count : Byte)
  deriving DecidableEq, Repr

/-- One call of ReadSector: its arguments (R263) and its caller. -/
structure SectorRead where
  cyl : Byte
  head : Byte
  sec : Byte
  slot : Nat
  caller : SectorCaller
  deriving DecidableEq, Repr

/-- A call of Decode that is under way (R132), and for what. -/
inductive Decoding where
  /-- DECODE n. -/
  | decode (n : Half)
  /-- RBODY. -/
  | rbody
  /-- LOCATE cyl, head, sec, in one of its attempts. -/
  | locate (cyl head sec : Byte)
  /-- ReadSector, in an attempt of its Locate. -/
  | readId (r : SectorRead)
  /-- ReadSector, in its ReadBody. -/
  | readBody (r : SectorRead)
  deriving DecidableEq, Repr

/-- The point that a running command has reached in its rule's pseudocode (R31): what it does next. At
each of them BUSY = 1, and the host may make an access (R80). -/
inductive Job where
  /-- INIT, before Calibrate. -/
  | init
  /-- INIT inside its calibration loop: the state CALIBRATING (R33, R222). -/
  | calibrating
  /-- SEEK, before its timestamp. -/
  | seek (track : Byte)
  /-- SEEK, before SeekCheck. -/
  | seekCheck (track : Byte)
  /-- SEEK inside SeekMove, with `k` step pulses left. -/
  | seekStep (track : Byte) (k : Nat)
  /-- MTICK, before its clock sample. -/
  | mtick
  /-- MOTOR, before SetMotor. -/
  | motor (on : Bool)
  /-- CLASSIFY, before it writes RDATA. -/
  | classify (d : Half)
  /-- XLATE, before its range check. -/
  | xlate (addr : Half)
  /-- RBLK, before its validations. -/
  | rblk (addr : Half) (count : Byte)
  /-- ReadSector, before its timestamp. -/
  | readBegin (r : SectorRead)
  /-- ReadSector, before SeekCheck. -/
  | readCheck (r : SectorRead)
  /-- ReadSector, before SeekMove: the motor is on. -/
  | readMove (r : SectorRead)
  /-- ReadSector inside SeekMove, with `k` step pulses left. -/
  | readStep (r : SectorRead) (k : Nat)
  /-- A command that waits for the Pulse Source, inside Decode. -/
  | decoding (d : Decoding)
  /-- A command that has come to its result and has not written it: BUSY is still 1 (R80). -/
  | ending (i : Instr) (code : ResultCode)
  deriving DecidableEq, Repr

/-- The states of the Seek/Motor Controller (R33, R220). -/
inductive Controller where
  | uninitialized | calibrating | ready
  deriving DecidableEq, Repr

/-- The levels of the output lines, 1 = asserted (R37). -/
structure Lines where
  driveSel : Bool
  /-- 0 = OUT, toward track 0; 1 = IN. -/
  dir : Bool
  step : Bool
  headSel : Bool
  motor : Bool
  deriving DecidableEq, Repr

/-- The MFM Decoder's working registers (R43). Counters are naturals; their ranges are part of
`Inv` (Safety.lean). -/
structure Decoder where
  /-- DEC_PHASE, 3 bits. -/
  phase : DecPhase
  /-- SYNC_CNT, 0..SYNC_LEN. -/
  syncCnt : Nat
  /-- MARK_IDX, 4 bits, 0..14. -/
  markIdx : Nat
  /-- BIT_STATE, 1 bit. -/
  bitState : BitState
  /-- BIT_ACC, 8 bits. -/
  bitAcc : Byte
  /-- BIT_CNT, 3 bits, 0..7. -/
  bitCnt : Nat
  /-- BYTE_CNT, 10 bits, 0..515. -/
  byteCnt : Nat
  deriving DecidableEq, Repr

/-- The buffer space (R70) as the bytes written since reset: strictly rising addresses. An address
that is not listed holds no written byte. -/
abbrev Memory := List Host.Cell

structure State where
  /-- The parameters (R10 to R20); no step writes them. -/
  par : Params
  /-- CURRENT_TRACK (R32). -/
  currentTrack : Byte
  /-- INITIALIZED (R33). -/
  initialized : Bool
  /-- MOTOR_ON (R34). -/
  motorOn : Bool
  /-- LAST_OP_TIME (R35). -/
  lastOpTime : Word
  /-- The output lines (R37). -/
  lines : Lines
  /-- STATUS.RESULT (R40, R110). -/
  result : ResultCode
  /-- STATUS.BUSY (R40). -/
  busy : Bool
  /-- RDATA (R42). -/
  rdata : Word
  /-- The decoder's working registers (R43). -/
  dec : Decoder
  /-- ATTEMPT (R44). -/
  attempt : Nat
  /-- STEP_CNT (R45). -/
  stepCnt : Nat
  /-- BLOCK_IDX (R46). -/
  blockIdx : Nat
  /-- AM_BUF, BODY_BUF and OUT_BUF at their buffer-space addresses (R47, R71). -/
  mem : Memory
  /-- The point that the running command has reached (R31). -/
  job : Option Job
  /-- Whether the step that accepts a command leaves all of its running to later steps, so that the host
  can make its accesses between them; else that step runs it as far as the given pulse answers go. No step
  writes it (DESIGN CHOICE, log entry 10). -/
  stepwise : Bool
  /-- The Pulse Source's next answers, where the environment gives them (R21). -/
  pulses : List PulseAnswer
  /-- The next TRK0 samples, where the environment gives them (R22). -/
  trk0s : List Bool
  /-- The next clock samples, where the environment gives them (R23). -/
  nows : List Word
  /-- How many free values have been drawn: the index of the next one (DESIGN CHOICE, log entry 12). -/
  draws : Nat
  /-- The host's pending accesses, first to be made first (R31, R91; DESIGN CHOICE, log entry 7). -/
  host : List HostMove
  /-- What the host's last read returned. -/
  hostData : Word
  /-- The output event trace (R25), newest event first (DESIGN CHOICE, log entry 12). -/
  trace : List Event
  deriving DecidableEq, Repr

/-- What stops the machine. The core itself has no faults (R300). -/
inductive Fault where
  /-- A host register access whose offset is no multiple of 4: R38 gives it no move. Raised by
  `hostMove`; no instruction raises it. DESIGN CHOICE (log entry 8). Safe: the model stops where the spec
  says nothing. -/
  | unalignedHostAccess (off : Nat)
  deriving DecidableEq, Repr

/-- An instruction without a meaning. -/
inductive Refusal where
  /-- Raised by an arm of `exec` for an instruction with no meaning yet; no arm does. Safe. -/
  | notModelled (mnemonic : String)
  deriving DecidableEq, Repr

/-- The decoder's working registers after reset: R48 leaves them unspecified and unobservable; the
model names zero (DESIGN CHOICE, log entry 6). -/
def Decoder.reset : Decoder where
  phase := .sync
  syncCnt := 0
  markIdx := 0
  bitState := .odd
  bitAcc := 0
  bitCnt := 0
  byteCnt := 0

/-- The machine right after reset (R48, R340). -/
def State.reset : State where
  par := Config.params
  currentTrack := 0
  initialized := false
  motorOn := false
  lastOpTime := 0
  lines := { driveSel := false, dir := false, step := false, headSel := false, motor := false }
  result := .ok
  busy := false
  rdata := 0
  dec := .reset
  attempt := 0
  stepCnt := 0
  blockIdx := 0
  mem := []
  job := none
  stepwise := true
  pulses := []
  trk0s := []
  nows := []
  draws := 0
  host := []
  hostData := 0
  trace := []

end Sys2Proof.Machine
end

