-- ==== Sys2Proof/Machine/Ops.lean ====
section
/-! DEFINITION. The shared operations: the buffer space, the oracles, the lines, the event trace, and
how a command is accepted and ends. -/

namespace Sys2Proof.Machine

/-! ## The buffer space (R70 to R72) -/

namespace Memory

/-- The byte written at an address, if one has been. -/
def get : Memory → Nat → Option Byte
  | [], _ => none
  | (a, b) :: m, x => if a = x then some b else get m x

/-- Write one byte, keeping the addresses strictly rising. -/
def set : Memory → Nat → Byte → Memory
  | [], x, v => [(x, v)]
  | (a, b) :: m, x, v =>
    if x < a then (x, v) :: (a, b) :: m
    else if x = a then (a, v) :: m
    else (a, b) :: set m x v

/-- Write bytes at rising addresses from `base` on, in that order (R82). -/
def setAll (m : Memory) (base : Nat) : List Byte → Memory
  | [] => m
  | b :: bs => setAll (set m base b) (base + 1) bs

/-- The canonical form: strictly rising addresses, so that equal contents are equal lists. -/
abbrev wf (m : Memory) : Prop := m.Pairwise (fun x y => x.1 < y.1)

end Memory

/-- R71: the base of OUT_BUF. -/
def outBase : Nat := 0
/-- R71: the base of BODY_BUF. -/
def bodyBase : Nat := 0x8000
/-- R71: the base of AM_BUF. -/
def amBase : Nat := 0x8400
/-- The size of the AddressMarkRecord (R47, R73). -/
def amSize : Nat := 7
/-- The size of the SectorBody (R47, R74). -/
def bodySize : Nat := 515
/-- SECTOR_SIZE, the size of an output slot (R12, R75). -/
def sectorSize : Nat := 512
/-- R75: where slot `i` begins. -/
def slotBase (i : Nat) : Nat := outBase + sectorSize * i

/-- R71: the mapped addresses of the buffer space. -/
def mapped (p : Params) (a : Nat) : Bool :=
  decide (a < slotBase p.maxBlocks) || decide (bodyBase ≤ a ∧ a < bodyBase + bodySize) ||
    decide (amBase ≤ a ∧ a < amBase + amSize)

/-- What an address reads as that nothing has written: an unspecified byte in a buffer (R48, U3),
0x00 where nothing is mapped (R71). -/
def unwrittenByte (p : Params) (a : Nat) : Byte :=
  if mapped p a then Config.resetByte a else 0

/-- The byte at a buffer-space address. -/
def bufByte (s : State) (a : Nat) : Byte := (s.mem.get a).getD (unwrittenByte s.par a)

/-- `n` bytes from a buffer-space address on: `BUF[0..n)` for the buffer at `base` (R24). -/
def bufBytes (s : State) (base n : Nat) : List Byte :=
  (List.range n).map fun k => bufByte s (base + k)

/-- Write bytes into a buffer in increasing index order (R82). -/
def writeBuf (base : Nat) (bs : List Byte) (s : State) : State :=
  { s with mem := s.mem.setAll base bs }

/-- `n` fresh free bytes, the first of them number `i`. -/
def freeBytes (i n : Nat) : List Byte := (List.range n).map fun k => Config.freeByte (i + k)

/-- R138, R263: `n` bytes of a buffer take unspecified values, each a fresh free value. -/
def drawBuf (base n : Nat) (s : State) : State :=
  { s with mem := s.mem.setAll base (freeBytes s.draws n), draws := s.draws + n }

/-! ## The trace, the lines and the delays (R24, R25, R37) -/

/-- Append an event to the output trace. -/
def emit (e : Event) (s : State) : State := { s with trace := e :: s.trace }

/-- The levels after `Line(l) <- v`. -/
def Lines.drive (l : OutLine) (v : Bool) (ls : Lines) : Lines :=
  match l with
  | .driveSel => { ls with driveSel := v }
  | .dir => { ls with dir := v }
  | .step => { ls with step := v }
  | .headSel => { ls with headSel := v }
  | .motor => { ls with motor := v }

/-- `Line(l) <- v`: drive the line; each drive is an event (R24). -/
def driveLine (l : OutLine) (v : Bool) (s : State) : State :=
  emit (.line l v) { s with lines := s.lines.drive l v }

/-- `Delay(d)`: an event with no duration (R25). -/
def delay (d : DelayLabel) (s : State) : State := emit (.delay d) s

/-- R25, R221: one step pulse, four events in order. -/
def stepPulse (s : State) : State :=
  delay .stepInterval (driveLine .step false (delay .stepPulseWidth (driveLine .step true s)))

/-! ## The oracles (R21 to R23, R83) -/

/-- The answer `NextPulse()` gives now: the script's next one, else a free draw (R21). -/
def pulseAnswer (s : State) : PulseAnswer :=
  match s.pulses with
  | a :: _ => a
  | [] => Config.freePulse s.draws

/-- `NextPulse()`: the answer is consumed (R83) and the query is an event (R25). -/
def takePulse (s : State) : State :=
  emit (.nextPulse (pulseAnswer s))
    { s with pulses := s.pulses.tail, draws := if s.pulses.isEmpty then s.draws + 1 else s.draws }

/-- The answer `Trk0()` gives now (R22). -/
def trk0Answer (s : State) : Bool :=
  match s.trk0s with
  | b :: _ => b
  | [] => Config.freeTrk0 s.draws

/-- `Trk0()`, as an event (R25). -/
def takeTrk0 (s : State) : State :=
  emit (.trk0 (trk0Answer s))
    { s with trk0s := s.trk0s.tail, draws := if s.trk0s.isEmpty then s.draws + 1 else s.draws }

/-- The answer `Now()` gives now (R23). -/
def nowAnswer (s : State) : Word :=
  match s.nows with
  | t :: _ => t
  | [] => Config.freeNow s.draws

/-- `Now()`, as an event (R25). -/
def takeNow (s : State) : State :=
  emit (.now (nowAnswer s))
    { s with nows := s.nows.tail, draws := if s.nows.isEmpty then s.draws + 1 else s.draws }

/-- R19: `crc16`, the values given as data first, the opaque function for every other argument. -/
def crc16 (p : Params) (bs : List Byte) : Half :=
  match p.crcTable.find? (fun e => e.1 == bs) with
  | some e => e.2
  | none => Config.crc16 bs

/-- R78: the big-endian 16-bit value of two record bytes. -/
def crcOf (hi lo : Byte) : Half := hi ++ lo

/-! ## How a command starts and ends (R91, R303) -/

/-- R91: STATUS.BUSY <- 1. -/
def accept (s : State) : State := { s with busy := true, job := none }

/-- The running command reaches a point of its pseudocode (R31). -/
def goto (j : Job) (s : State) : State := { s with job := some j }

/-- `return OK` or `raise E` (R24, R303): no later statement of the command runs; what was written before
stays written. The result is not written yet. -/
def endWith (i : Instr) (code : ResultCode) (s : State) : State := goto (.ending i code) s

/-- R91, R303: the command ends: STATUS.RESULT takes the code together with the clearing of BUSY (R80).
No state is saved, no vector is taken and no mode changes. -/
def finish (code : ResultCode) (s : State) : State :=
  { s with result := code, busy := false, job := none }

/-- R95: an illegal word ends at once with BadCommand and has no other effect. -/
def rejectWord (s : State) : State := finish .badCommand (accept s)

end Sys2Proof.Machine
end

