-- ==== Sys2Proof/Machine/Flags.lean ====
section
/-! DEFINITION. The STATUS word, the core's only flags (R40, R41), the numeric result codes (R110) and
the host's view of the registers and buffers (R39, R71, R72, R80). -/

namespace Sys2Proof.Machine

/-- The result codes' values (R110). -/
def ResultCode.code : ResultCode → BitVec 4
  | .ok => 0
  | .trackOutOfRange => 1
  | .track0NotFound => 2
  | .notInitialized => 3
  | .seekError => 4
  | .sectorNotFound => 5
  | .incorrectDataMark => 6
  | .noPulse => 7
  | .crc => 8
  | .invalidAmount => 9
  | .badCommand => 15

/-- R40: STATUS: RESULT in [3:0], BUSY in [4], INIT in [5], MOTOR in [6], zero above. -/
def statusWord (s : State) : Word :=
  (0 : BitVec 25) ++ BitVec.ofBool s.motorOn ++ BitVec.ofBool s.initialized ++
    BitVec.ofBool s.busy ++ s.result.code

/-- R33, R220: the state of the Seek/Motor Controller, encoded by INITIALIZED and the running command. -/
def controller (s : State) : Controller :=
  if s.initialized then .ready
  else if s.job = some .calibrating then .calibrating
  else .uninitialized

/-- R39: what a register holds, at a word-aligned offset. CMD and every other offset read 0. -/
def regValue (s : State) (off : Nat) : Word :=
  match off with
  | 0x04 => statusWord s
  | 0x08 => s.currentTrack.zeroExtend 32
  | 0x0C => s.rdata
  | 0x10 => s.lastOpTime
  | _ => 0

/-- R80: the registers whose value a read gives only while no command runs. -/
def busyHidden (off : Nat) : Bool := off == 0x08 || off == 0x0C || off == 0x10

/-- A read returns a value the spec leaves unspecified: a fresh free one (R80, U4). -/
def readFree (s : State) : State :=
  { s with hostData := Config.freeWord s.draws, draws := s.draws + 1 }

/-- A host read of the register at an aligned offset (R39, R80). -/
def hostReadReg (off : Nat) (s : State) : State :=
  if s.busy && busyHidden off then readFree s else { s with hostData := regValue s off }

/-- A host read of one buffer-space byte (R72, R80); the byte is zero-extended. While a command runs
the byte is a free one. -/
def hostReadBuf (addr : Half) (s : State) : State :=
  if s.busy then
    { s with
      hostData := ((Config.freeWord s.draws).extractLsb' 0 8).zeroExtend 32
      draws := s.draws + 1 }
  else { s with hostData := (bufByte s addr.toNat).zeroExtend 32 }

end Sys2Proof.Machine
end

