-- ==== Sys2Proof/Machine/MfmDecoder.lean ====
section
/-! DEFINITION. The MFM Decoder (40_mfm_decoder.md): classification, the four phases of Decode, and
the packing of bits into bytes. -/

namespace Sys2Proof.Machine

/-- R130: the class of a duration. -/
def classify (p : Params) (d : Nat) : PulseClass :=
  if d < p.tMedium then .short else if d < p.tLong then .medium else .long

/-- R131: the value RDATA takes for a class. -/
def classWord : PulseClass → Word
  | .short => 0
  | .medium => 1
  | .long => 2

/-- R135: MARKSEQ. -/
def markSeq : List PulseClass :=
  [.long, .medium, .long, .medium, .short, .long, .medium,
   .long, .medium, .short, .long, .medium, .long, .medium]

/-- R136: the bits a pulse emits. -/
def emittedBits : BitState → PulseClass → List Bool
  | .odd, .short => [true]
  | .odd, .medium => [false]
  | .odd, .long => [false, true]
  | .even, .short => [false]
  | .even, .medium => [false, true]
  | .even, .long => [false, true]

/-- R136: the BIT_STATE after a pulse. -/
def nextBitState : BitState → PulseClass → BitState
  | .odd, .short => .odd
  | .odd, .medium => .even
  | .odd, .long => .odd
  | .even, .short => .even
  | .even, .medium => .odd
  | .even, .long => .odd

/-- R140: the bits of a class sequence, the table applied pulse by pulse, threading the state. -/
def emittedAll : BitState → List PulseClass → List Bool
  | _, [] => []
  | st, c :: cs => emittedBits st c ++ emittedAll (nextBitState st c) cs

/-- R137: BIT_ACC after one more bit, `(BIT_ACC * 2 + b) mod 256`. -/
def shiftIn (acc : Byte) (b : Bool) : Byte := BitVec.ofNat 8 (acc.toNat * 2 + b.toNat)

/-- R137: `Push(b)`, only while BYTE_CNT < n: the working registers, and the byte it completes. -/
def pushBit (n : Nat) (b : Bool) (d : Decoder) : Decoder × List Byte :=
  if d.byteCnt < n then
    if d.bitCnt + 1 = 8 then
      ({ d with byteCnt := d.byteCnt + 1, bitCnt := 0, bitAcc := 0 }, [shiftIn d.bitAcc b])
    else ({ d with bitAcc := shiftIn d.bitAcc b, bitCnt := d.bitCnt + 1 }, [])
  else (d, [])

/-- `for b in bits: if BYTE_CNT < n: Push(b)` (R139), with the bytes completed, in order. -/
def pushBits (n : Nat) : List Bool → Decoder → Decoder × List Byte
  | [], d => (d, [])
  | b :: bs, d =>
    ((pushBits n bs (pushBit n b d).1).1, (pushBit n b d).2 ++ (pushBits n bs (pushBit n b d).1).2)

/-- R139: entry to Decode. -/
def decoderStart (d : Decoder) : Decoder := { d with phase := .sync, syncCnt := 0 }

/-- R139: back to the sync seek; the pulse that leads there is not counted (R134, R135). -/
def resync (d : Decoder) : Decoder := { d with phase := .sync, syncCnt := 0 }

/-- R133: one pulse in SYNC. -/
def feedSync (p : Params) (c : PulseClass) (d : Decoder) : Decoder :=
  if c = .short then
    if d.syncCnt + 1 = p.syncLen then { d with syncCnt := d.syncCnt + 1, phase := .remainder }
    else { d with syncCnt := d.syncCnt + 1 }
  else { d with syncCnt := 0 }

/-- R134: one pulse in REMAINDER. -/
def feedRemainder (c : PulseClass) (d : Decoder) : Decoder :=
  match c with
  | .short => d
  | .medium => { d with phase := .mark, markIdx := 0 }
  | .long => resync d

/-- R136: the working registers on entry to BITS. -/
def enterBits (d : Decoder) : Decoder :=
  { d with phase := .bits, bitState := .odd, bitAcc := 0, bitCnt := 0, byteCnt := 0 }

/-- R135: one pulse in MARK. -/
def feedMark (c : PulseClass) (d : Decoder) : Decoder :=
  if markSeq[d.markIdx]? = some c then
    if d.markIdx + 1 = 14 then enterBits { d with markIdx := d.markIdx + 1 }
    else { d with markIdx := d.markIdx + 1 }
  else resync d

/-- R136, R137: one pulse in BITS, with the bytes it completes. -/
def feedBits (n : Nat) (c : PulseClass) (d : Decoder) : Decoder × List Byte :=
  pushBits n (emittedBits d.bitState c) { d with bitState := nextBitState d.bitState c }

/-- R139: what one classified pulse does to Decode's working registers, and the bytes it completes. -/
def feed (p : Params) (n : Nat) (d : Decoder) (c : PulseClass) : Decoder × List Byte :=
  match d.phase with
  | .sync => (feedSync p c d, [])
  | .remainder => (feedRemainder c d, [])
  | .mark => (feedMark c d, [])
  | .bits => feedBits n c d
  | .done => (d, [])

/-- R137, R139: Decode ends with OK as soon as it is in BITS with BYTE_CNT = n. -/
def decodeComplete (n : Nat) (d : Decoder) : Bool := d.phase == .bits && d.byteCnt == n

/-- A sequence of classes fed to Decode's working registers, with every byte completed, in order. -/
def feedAll (p : Params) (n : Nat) : Decoder → List PulseClass → Decoder × List Byte
  | d, [] => (d, [])
  | d, c :: cs =>
    ((feedAll p n (feed p n d c).1 cs).1, (feed p n d c).2 ++ (feedAll p n (feed p n d c).1 cs).2)

/-- How many bytes a Decode wants: 7 for an address mark, 515 for a body (R132). -/
def Decoding.need : Decoding → Nat
  | .decode n => n.toNat
  | .rbody => bodySize
  | .locate _ _ _ => amSize
  | .readId _ => amSize
  | .readBody _ => bodySize

/-- The buffer that a Decode writes (R132). -/
def Decoding.base : Decoding → Nat
  | .decode _ => bodyBase
  | .rbody => bodyBase
  | .locate _ _ _ => amBase
  | .readId _ => amBase
  | .readBody _ => bodyBase

/-- The command that a call of ReadSector belongs to. -/
def SectorRead.command (r : SectorRead) : Instr :=
  match r.caller with
  | .rsec => .rsec r.cyl r.head r.sec
  | .rblk addr count => .rblk addr count

/-- The command that a Decode belongs to. -/
def Decoding.command : Decoding → Instr
  | .decode n => .decode n
  | .rbody => .rbody
  | .locate c h sec => .locate c h sec
  | .readId r => r.command
  | .readBody r => r.command

/-- The command that is at a point. -/
def Job.command : Job → Instr
  | .init => .init
  | .calibrating => .init
  | .seek t => .seek t
  | .seekCheck t => .seek t
  | .seekStep t _ => .seek t
  | .mtick => .mtick
  | .motor on => .motor on
  | .classify d => .classify d
  | .xlate addr => .xlate addr
  | .rblk addr count => .rblk addr count
  | .readBegin r => r.command
  | .readCheck r => r.command
  | .readMove r => r.command
  | .readStep r _ => r.command
  | .decoding d => d.command
  | .ending i _ => i

/-- Decode is entered (R139): the running command now waits for a pulse. -/
def beginDecode (d : Decoding) (s : State) : State :=
  { s with job := some (.decoding d), dec := decoderStart s.dec }

/-- One pulse of duration `t` reaches the Decode `d`: the working registers advance, and a completed byte
is stored at dst[BYTE_CNT] (R137). -/
def feedPulse (d : Decoding) (t : Nat) (s : State) : State :=
  { s with
    dec := (feed s.par d.need s.dec (classify s.par t)).1
    mem := s.mem.setAll (d.base + s.dec.byteCnt) (feed s.par d.need s.dec (classify s.par t)).2 }

/-- R139: DEC_PHASE <- DONE. -/
def endDecode (s : State) : State := { s with dec := { s.dec with phase := .done } }

end Sys2Proof.Machine
end

