-- ==== Sys2Proof/Machine/SectorReader.lean ====
section
/-! DEFINITION. The Sector Reader (42_sector_reader.md): how a decoded body is judged; and how a
failed ReadSector ends (R263). -/

namespace Sys2Proof.Machine

/-- R200: `crc16(BODY_BUF[0..513)) = BODY_BUF[513]*256 + BODY_BUF[514]`. -/
def bodyCrcOk (s : State) : Bool :=
  crc16 s.par (bufBytes s bodyBase 513) ==
    crcOf (bufByte s (bodyBase + 513)) (bufByte s (bodyBase + 514))

/-- R201: ReadBody's result once its Decode has ended with OK: the mark is judged before the CRC. -/
def bodyVerdict (s : State) : ResultCode :=
  if bufByte s bodyBase ≠ 0xFB then .incorrectDataMark
  else if bodyCrcOk s then .ok
  else .crc

/-- R263: ReadSector ends with an error; its output slot takes unspecified values (U2). -/
def sectorFail (r : SectorRead) (code : ResultCode) (s : State) : State :=
  endWith r.command code (drawBuf (slotBase r.slot) sectorSize s)

/-- R263: copy the body's data to the slot, in increasing order (R203). -/
def copySlot (slot : Nat) (s : State) : State :=
  writeBuf (slotBase slot) (bufBytes s (bodyBase + 1) sectorSize) s

end Sys2Proof.Machine
end

