-- ==== Sys2Proof/Machine/Locator.lean ====
section
/-! DEFINITION. The Sector Locator (41_sector_locator.md): how one decoded record is judged, and the
bounded retry. -/

namespace Sys2Proof.Machine

/-- What one attempt's record says (R182, R186). -/
def recordMark (s : State) : Byte := bufByte s amBase
/-- The record's cylinder byte, AM_BUF[1] (R73). -/
def recordCyl (s : State) : Byte := bufByte s (amBase + 1)
/-- The record's head byte, AM_BUF[2] (R73). -/
def recordHead (s : State) : Byte := bufByte s (amBase + 2)
/-- The record's sector byte, AM_BUF[3] (R73). -/
def recordSec (s : State) : Byte := bufByte s (amBase + 3)
/-- R181: `crc16(AM_BUF[0..5)) = AM_BUF[5]*256 + AM_BUF[6]`. -/
def recordCrcOk (s : State) : Bool :=
  crc16 s.par (bufBytes s amBase 5) == crcOf (bufByte s (amBase + 5)) (bufByte s (amBase + 6))

/-- R182, R183: the record carries the address mark and another cylinder. -/
def recordMisplaced (cyl : Byte) (s : State) : Bool :=
  recordMark s == 0xFE && recordCyl s != cyl

/-- R181: the record is a match. -/
def recordMatches (cyl head sec : Byte) (s : State) : Bool :=
  recordMark s == 0xFE && recordCyl s == cyl && recordHead s == head && recordSec s == sec &&
    recordCrcOk s

/-- Locate fails with `code`: LOCATE ends; a ReadSector ends with its slot unspecified (R182, R263). -/
def locateFail (d : Decoding) (code : ResultCode) (s : State) : State :=
  match d with
  | .readId r => sectorFail r code s
  | _ => endWith d.command code s

/-- R182, R185: attempt number `k` begins, or the attempts are exhausted. -/
def locateTry (k : Nat) (d : Decoding) (s : State) : State :=
  if k ≤ s.par.locateAttempts then beginDecode d { s with attempt := k }
  else locateFail d .sectorNotFound s

/-- R182: the attempt's Decode ended with OK: SeekError on another cylinder (R183), success on a match,
else one failed attempt (R184). -/
def locateJudge (d : Decoding) (cyl head sec : Byte) (found : State → State) (s : State) : State :=
  if recordMisplaced cyl s then locateFail d .seekError { s with currentTrack := recordCyl s }
  else if recordMatches cyl head sec s then found s
  else locateTry (s.attempt + 1) d s

end Sys2Proof.Machine
end

