-- ==== Sys2Proof/Machine/SeekMotor.lean ====
section
/-! DEFINITION. The Seek/Motor Controller (43_seek_motor.md): Calibrate, SeekCheck, SeekMove and SetMotor,
one point of their pseudocode at a time, and the motor's idle time. -/

namespace Sys2Proof.Machine

/-- R222: STEP_CNT <- STEP_CNT + 1. -/
def countStep (s : State) : State := { s with stepCnt := s.stepCnt + 1 }

/-- R222: what Calibrate does before its loop. -/
def calibrateStart (s : State) : State :=
  { driveLine .dir false (driveLine .driveSel true { s with initialized := false }) with stepCnt := 0 }

/-- R222, R223: one turn of the calibration loop: TRK0 is sampled; then READY, or the bound is reached, or
one step. -/
def calibrateTurn (s : State) : State :=
  if trk0Answer s then endWith .init .ok { takeTrk0 s with currentTrack := 0, initialized := true }
  else if s.par.tracks ≤ s.stepCnt then endWith .init .track0NotFound (takeTrk0 s)
  else countStep (stepPulse (takeTrk0 s))

/-- R224: `SeekCheck(t)`: the error it raises, if any. -/
def seekCheck (t : Byte) (s : State) : Option ResultCode :=
  if s.initialized = false then some .notInitialized
  else if s.par.tracks ≤ t.toNat then some .trackOutOfRange
  else none

/-- R225: the step direction for a move to `t`: 1 (IN) only if the target is above. -/
def seekDir (t : Byte) (s : State) : Bool := decide (s.currentTrack.toNat < t.toNat)

/-- R225: how many steps a move to `t` takes, the exact difference. -/
def seekSteps (t : Byte) (s : State) : Nat :=
  if s.currentTrack.toNat < t.toNat then t.toNat - s.currentTrack.toNat
  else s.currentTrack.toNat - t.toNat

/-- R225: the direction of a SeekMove to `t`, driven even when no step is issued. -/
def seekAim (t : Byte) (s : State) : State := driveLine .dir (seekDir t s) s

/-- R225: SeekMove ends: CURRENT_TRACK <- t. -/
def seekArrive (t : Byte) (s : State) : State := { s with currentTrack := t }

/-- R228: `SetMotor(on)`: nothing if the motor is already so; on: a spin-up delay follows. -/
def setMotor (on : Bool) (s : State) : State :=
  if s.motorOn = on then s
  else if on then delay .motorSpinup (driveLine .motor true { s with motorOn := true })
  else driveLine .motor false { s with motorOn := false }

/-- R231: the idle time, an unsigned 32-bit difference. -/
def idleTime (t : Word) (s : State) : Nat := (t - s.lastOpTime).toNat

/-- R230: the idle time exceeds MOTOR_IDLE_TIMEOUT, strictly, with the motor on. -/
def idleExpired (t : Word) (s : State) : Bool :=
  s.motorOn && decide (s.par.motorIdleTimeout < idleTime t s)

/-- R230: what MTICK does. -/
def motorTick (s : State) : State :=
  if idleExpired (nowAnswer s) s then setMotor false (takeNow s) else takeNow s

end Sys2Proof.Machine
end

