-- ==== Sys2Proof/Machine/DriveOps.lean ====
section
/-! DEFINITION. The Drive Controller's procedures (44_drive_controller.md), and how a running command
goes on from the point it has reached to its next one. -/

namespace Sys2Proof.Machine

/-! ## Logical block addresses and times -/

/-- R261: the cylinder of a logical block address. -/
def chsCyl (p : Params) (addr : Nat) : Nat := addr / (p.sectors * p.heads)
/-- R261: the head of a logical block address. -/
def chsHead (p : Params) (addr : Nat) : Nat := addr / p.sectors % p.heads
/-- R261: the sector of a logical block address, 1-indexed. -/
def chsSec (p : Params) (addr : Nat) : Nat := addr % p.sectors + 1

/-- R266: RDATA after a successful XLATE: {8'b0, s, h, c}. -/
def chsWord (p : Params) (addr : Nat) : Word :=
  (0 : Byte) ++ BitVec.ofNat 8 (chsSec p addr) ++ BitVec.ofNat 8 (chsHead p addr) ++
    BitVec.ofNat 8 (chsCyl p addr)

/-- LAST_OP_TIME <- Now(), recorded first (R262, R263). -/
def recordTime (s : State) : State := { takeNow s with lastOpTime := nowAnswer s }

/-! ## What a command does at each of its points outside Decode -/

/-- R131: CLASSIFY writes the class. -/
def classifyPulse (d : Half) (s : State) : State :=
  endWith (.classify d) .ok { s with rdata := classWord (classify s.par d.toNat) }

/-- R266: XLATE checks the range and translates. -/
def translateAddr (addr : Half) (s : State) : State :=
  if s.par.capacity ≤ addr.toNat then endWith (.xlate addr) .trackOutOfRange s
  else endWith (.xlate addr) .ok { s with rdata := chsWord s.par addr.toNat }

/-- R262: SEEK at its SeekCheck: the error, or the start of SeekMove. -/
def seekStart (t : Byte) (s : State) : State :=
  match seekCheck t s with
  | some e => endWith (.seek t) e s
  | none => goto (.seekStep t (seekSteps t s)) (seekAim t s)

/-- R225: SEEK inside SeekMove: a step pulse, or the arrival. -/
def seekTurn (t : Byte) (k : Nat) (s : State) : State :=
  match k with
  | 0 => endWith (.seek t) .ok (seekArrive t s)
  | k + 1 => goto (.seekStep t k) (stepPulse s)

/-- R263: ReadSector at its SeekCheck: the error, before the motor is started, or SetMotor(1). -/
def readStart (r : SectorRead) (s : State) : State :=
  match seekCheck r.cyl s with
  | some e => sectorFail r e s
  | none => goto (.readMove r) (setMotor true s)

/-- R263: ReadSector at its SeekMove: the direction. -/
def readAim (r : SectorRead) (s : State) : State :=
  goto (.readStep r (seekSteps r.cyl s)) (seekAim r.cyl s)

/-- R263: ReadSector inside SeekMove: a step pulse; or the arrival, HEAD_SEL, and the first attempt of
Locate. -/
def readTurn (r : SectorRead) (k : Nat) (s : State) : State :=
  match k with
  | 0 => locateTry 1 (.readId r) (driveLine .headSel (r.head != 0) (seekArrive r.cyl s))
  | k + 1 => goto (.readStep r k) (stepPulse s)

/-- R264: the read of block number `i` of an RBLK begins, into slot `i`. -/
def startBlock (addr : Half) (count : Byte) (i : Nat) (s : State) : State :=
  goto (.readBegin
    { cyl := BitVec.ofNat 8 (chsCyl s.par (addr.toNat + i))
      head := BitVec.ofNat 8 (chsHead s.par (addr.toNat + i))
      sec := BitVec.ofNat 8 (chsSec s.par (addr.toNat + i))
      slot := i
      caller := .rblk addr count }) { s with blockIdx := i }

/-- R264, R265: RBLK's two validations, count first, then range, in exact arithmetic. -/
def blockCheck (addr : Half) (count : Byte) (s : State) : Option ResultCode :=
  if count.toNat = 0 ∨ s.par.maxBlocks < count.toNat then some .invalidAmount
  else if s.par.capacity < addr.toNat + count.toNat then some .trackOutOfRange
  else none

/-- R264: RBLK's validations, then its first block. -/
def startBlocks (addr : Half) (count : Byte) (s : State) : State :=
  match blockCheck addr count s with
  | some e => endWith (.rblk addr count) e s
  | none => startBlock addr count 0 s

/-! ## What a command does when its Decode ends -/

/-- R263, R264: a sector has been read and validated: copy it out, then end RSEC, or go on to the next
block of RBLK. -/
def sectorDone (r : SectorRead) (s : State) : State :=
  match r.caller with
  | .rsec => endWith r.command .ok (copySlot r.slot s)
  | .rblk addr count =>
    if s.blockIdx + 1 < count.toNat then startBlock addr count (s.blockIdx + 1) (copySlot r.slot s)
    else endWith r.command .ok (copySlot r.slot s)

/-- R263: ReadBody of a ReadSector has ended: with OK the sector is done, else ReadSector fails. -/
def sectorJudge (r : SectorRead) (s : State) : State :=
  match bodyVerdict s with
  | .ok => sectorDone r s
  | e => sectorFail r e s

/-- The running command goes on after its Decode ended with OK. -/
def decodeOk (d : Decoding) (s : State) : State :=
  match d with
  | .decode n => endWith (.decode n) .ok s
  | .rbody => endWith .rbody (bodyVerdict s) s
  | .locate c h sec => locateJudge d c h sec (endWith (.locate c h sec) .ok) s
  | .readId r => locateJudge d r.cyl r.head r.sec (beginDecode (.readBody r)) s
  | .readBody r => sectorJudge r s

/-- The running command goes on after its Decode ended with NoPulse (R138): the destination takes
unspecified values; Locate counts one failed attempt (R184), every other caller reports it (R304). -/
def decodeNoPulse (d : Decoding) (s : State) : State :=
  match d with
  | .decode n => endWith (.decode n) .noPulse (drawBuf d.base d.need s)
  | .rbody => endWith .rbody .noPulse (drawBuf d.base d.need s)
  | .locate _ _ _ => locateTry (s.attempt + 1) d (drawBuf d.base d.need s)
  | .readId _ => locateTry (s.attempt + 1) d (drawBuf d.base d.need s)
  | .readBody r => sectorFail r .noPulse (drawBuf d.base d.need s)

/-- R139: the Decode `d` after a pulse: it ends with OK as soon as its bytes are complete. -/
def settleDecode (d : Decoding) (s : State) : State :=
  if decodeComplete d.need s.dec then decodeOk d (endDecode s) else s

/-- R139: one turn of Decode's loop: one query of the Pulse Source, and what its answer does. -/
def takeAnswer (d : Decoding) (s : State) : State :=
  match pulseAnswer s with
  | .timeout => decodeNoPulse d (takePulse s)
  | .pulse t => settleDecode d (feedPulse d t (takePulse s))

/-! ## From point to point -/

/-- What a running command does at the point it has reached, up to its next one. -/
def act (j : Job) (s : State) : State :=
  match j with
  | .init => goto .calibrating (calibrateStart s)
  | .calibrating => calibrateTurn s
  | .seek t => goto (.seekCheck t) (recordTime s)
  | .seekCheck t => seekStart t s
  | .seekStep t k => seekTurn t k s
  | .mtick => endWith .mtick .ok (motorTick s)
  | .motor on => endWith (.motor on) .ok (setMotor on s)
  | .classify d => classifyPulse d s
  | .xlate addr => translateAddr addr s
  | .rblk addr count => startBlocks addr count s
  | .readBegin r => goto (.readCheck r) (recordTime s)
  | .readCheck r => readStart r s
  | .readMove r => readAim r s
  | .readStep r k => readTurn r k s
  | .decoding d => takeAnswer d s
  | .ending _ code => finish code s

/-- The running command goes on to its next point. -/
def advance (s : State) : State :=
  match s.job with
  | none => s
  | some j => act j s

/-- Nothing is left to run on the given answers: no command runs, or one waits for a pulse answer that
State's script does not give. -/
def waits (s : State) : Bool :=
  !s.busy ||
    match s.job with
    | none => true
    | some (.decoding _) => s.pulses.isEmpty
    | some _ => false

/-- `advance` until nothing is left to run, at most `k` times. -/
def advanceN : Nat → State → State
  | 0, s => s
  | k + 1, s => if waits s then s else advanceN k (advance s)

/-- At most how many points a command passes from this one on before it asks for a pulse or ends. A
SeekMove has at most 255 steps (R225). -/
def Job.distance (s : State) : Job → Nat
  | .init => s.par.tracks + 3
  | .calibrating => s.par.tracks - s.stepCnt + 2
  | .seek _ => 260
  | .seekCheck _ => 259
  | .seekStep _ k => k + 2
  | .mtick => 2
  | .motor _ => 2
  | .classify _ => 2
  | .xlate _ => 2
  | .rblk _ _ => 262
  | .readBegin _ => 261
  | .readCheck _ => 260
  | .readMove _ => 259
  | .readStep _ k => k + 2
  | .decoding _ => 0
  | .ending _ _ => 1

/-- At most how many points a command passes on the given answers: between two pulse answers, fewer than
300. -/
def pointsLeft (s : State) : Nat :=
  300 * s.pulses.length +
    match s.job with
    | none => 0
    | some j => j.distance s

/-- Run the running command until it ends or waits for a pulse answer that is not given. -/
def run (s : State) : State := advanceN (pointsLeft s) s

/-- An accepted command starts (log entry 10): it is left to later steps, or run now. -/
def launch (s : State) : State := if s.stepwise then s else run s

end Sys2Proof.Machine
end

