-- ==== Sys2Proof/Machine/Component.lean ====
section
/-! DEFINITION. The meanings of the component commands CLASSIFY, DECODE (40_mfm_decoder.md), LOCATE
(41_sector_locator.md), RBODY (42_sector_reader.md) and XLATE (44_drive_controller.md). -/

namespace Sys2Proof.Machine

/-- CLASSIFY (R131). -/
def execClassify (d : Half) (s : State) : Host.Outcome State Fault Refusal :=
  .next (launch (goto (.classify d) (accept s)))

/-- XLATE (R266). -/
def execXlate (addr : Half) (s : State) : Host.Outcome State Fault Refusal :=
  .next (launch (goto (.xlate addr) (accept s)))

/-- DECODE (R139): `Decode(W, BODY_BUF)`. A length above 515 is illegal (R95); no word
decodes to one (log entry 13). -/
def execDecode (n : Half) (s : State) : Host.Outcome State Fault Refusal :=
  .next (if n.toNat ≤ bodySize then launch (beginDecode (.decode n) (accept s)) else rejectWord s)

/-- LOCATE (R182): `Locate(A, B, C)`. -/
def execLocate (cyl head sec : Byte) (s : State) : Host.Outcome State Fault Refusal :=
  .next (launch (locateTry 1 (.locate cyl head sec) (accept s)))

/-- RBODY (R201): `ReadBody()`, whether or not a LOCATE came before (R202). -/
def execRbody (s : State) : Host.Outcome State Fault Refusal :=
  .next (launch (beginDecode .rbody (accept s)))

end Sys2Proof.Machine
end

