-- ==== Sys2Proof/Machine/Drive.lean ====
section
/-! DEFINITION. The meanings of the drive commands INIT, SEEK, RSEC and RBLK (44_drive_controller.md),
MOTOR and MTICK (43_seek_motor.md). -/

namespace Sys2Proof.Machine

/-- INIT (R260): `Calibrate()`. -/
def execInit (s : State) : Host.Outcome State Fault Refusal :=
  .next (launch (goto .init (accept s)))

/-- SEEK (R262). -/
def execSeek (t : Byte) (s : State) : Host.Outcome State Fault Refusal :=
  .next (launch (goto (.seek t) (accept s)))

/-- RSEC (R263): `ReadSector(A, B, C, 0)`. -/
def execRsec (cyl head sec : Byte) (s : State) : Host.Outcome State Fault Refusal :=
  .next (launch (goto (.readBegin { cyl, head, sec, slot := 0, caller := .rsec }) (accept s)))

/-- RBLK (R264). -/
def execRblk (addr : Half) (count : Byte) (s : State) : Host.Outcome State Fault Refusal :=
  .next (launch (goto (.rblk addr count) (accept s)))

/-- MTICK (R230): turn an idle motor off. -/
def execMtick (s : State) : Host.Outcome State Fault Refusal :=
  .next (launch (goto .mtick (accept s)))

/-- MOTOR (R229): `SetMotor(A[0]); return OK`. -/
def execMotor (on : Bool) (s : State) : Host.Outcome State Fault Refusal :=
  .next (launch (goto (.motor on) (accept s)))

end Sys2Proof.Machine
end

