-- ==== Sys2Proof/Machine/Dispatch.lean ====
section
/-! DEFINITION. One arm per command (R94). -/

namespace Sys2Proof.Machine

def exec (i : Instr) (s : State) : Host.Outcome State Fault Refusal :=
  match i with
  | .init => Sys2Proof.Machine.execInit s
  | .seek t => Sys2Proof.Machine.execSeek t s
  | .rsec c h sec => Sys2Proof.Machine.execRsec c h sec s
  | .rblk addr count => Sys2Proof.Machine.execRblk addr count s
  | .mtick => Sys2Proof.Machine.execMtick s
  | .motor on => Sys2Proof.Machine.execMotor on s
  | .classify d => Sys2Proof.Machine.execClassify d s
  | .xlate addr => Sys2Proof.Machine.execXlate addr s
  | .decode n => Sys2Proof.Machine.execDecode n s
  | .locate c h sec => Sys2Proof.Machine.execLocate c h sec s
  | .rbody => Sys2Proof.Machine.execRbody s

end Sys2Proof.Machine
end

