-- ==== Sys2Proof/Machine/HostPort.lean ====
section
/-! DEFINITION. What one access of the host does (R38, R39, R71, R72, R80, R91). -/

namespace Sys2Proof.Machine

/-- With no host access in this step: a running command goes on to its next point, an idle core waits. -/
def turn (s : State) : State := if s.busy then advance s else s

/-- R91: a word is written to CMD. While a command runs the write is ignored (D31). -/
def writeCmd (w : Word) (s : State) : Host.Outcome State Fault Refusal :=
  if s.busy then .next s
  else
    match decodeWord w with
    | .ok i => exec i s
    | .error _ => .next (rejectWord s)

/-- R39: a register write at an aligned offset; only CMD is writable. -/
def writeRegister (off : Nat) (w : Word) (s : State) : Host.Outcome State Fault Refusal :=
  if off = 0 then writeCmd w s else .next s

/-- One access of the host. An offset that is no multiple of 4 has no move (R38). -/
def hostMove (m : HostMove) (s : State) : Host.Outcome State Fault Refusal :=
  match m with
  | .writeReg off w =>
    if off % 4 = 0 then writeRegister off w s else .fault (.unalignedHostAccess off)
  | .readReg off =>
    if off % 4 = 0 then .next (hostReadReg off s) else .fault (.unalignedHostAccess off)
  | .readBuf addr => .next (hostReadBuf addr s)
  | .writeBuf _ _ => .next s
  | .idle => .next (turn s)

end Sys2Proof.Machine
end

