-- ==== Sys2Proof/Machine/Step.lean ====
section
/-! DEFINITION. One step of the machine: the host's next access, or a running command's next point. -/

namespace Sys2Proof.Machine

/-- One step (DESIGN CHOICE, log entry 10). The host's pending accesses come first; with none pending a
running command goes on to its next point (R31), and an idle core waits (R341). -/
def step (s : State) : Host.Outcome State Fault Refusal :=
  match s.host with
  | [] => .next (turn s)
  | m :: rest => hostMove m { s with host := rest }

/-- `s` with the command word `w` as the host's next access, written to CMD while no command runs
(R91): the very next step runs it (log entry 7). -/
def State.withFetchWord (s : State) (nbits w : Nat) : State :=
  { s with
    host := .writeReg 0 (BitVec.ofNat 32 (w % 2 ^ nbits)) :: s.host
    busy := false
    job := none
    stepwise := false }

end Sys2Proof.Machine
end

