-- ==== Sys2Proof/Machine/Assembler.lean ====
section
/-! DEFINITION. The assembly syntax (R98) and its pseudo-instructions (R99): one line of text to the
command it stands for. The assembler is host software; no step of the machine uses it. Where white space
may stand, and that mnemonics are upper case, is a DESIGN CHOICE (log entry 15). -/

namespace Sys2Proof.Machine

/-- The value of a digit, decimal or hexadecimal. -/
def digitValue (c : Char) : Option Nat :=
  let n := c.toNat
  if 48 ≤ n ∧ n ≤ 57 then some (n - 48)
  else if 65 ≤ n ∧ n ≤ 70 then some (n - 55)
  else if 97 ≤ n ∧ n ≤ 102 then some (n - 87)
  else none

/-- The digits of a number in the given base, after the value read so far. -/
def digits (base : Nat) : Nat → List Char → Option Nat
  | acc, [] => some acc
  | acc, c :: cs =>
    match digitValue c with
    | some d => if d < base then digits base (acc * base + d) cs else none
    | none => none

/-- R98: a decimal number, or a hexadecimal one with a `0x` prefix. -/
def number : List Char → Option Nat
  | [] => none
  | '0' :: 'x' :: c :: cs => digits 16 0 (c :: cs)
  | c :: cs => digits 10 0 (c :: cs)

/-- White space between the parts of a line. -/
def blankChar (c : Char) : Bool := c == ' ' || c == '\t'

/-- A field of a line without the white space around it. -/
def trim (cs : List Char) : List Char :=
  ((cs.dropWhile blankChar).reverse.dropWhile blankChar).reverse

/-- The comma-separated fields of a line; the first argument is the field read so far, reversed. -/
def fields : List Char → List Char → List (List Char)
  | acc, [] => [acc.reverse]
  | acc, c :: cs => if c == ',' then acc.reverse :: fields [] cs else fields (c :: acc) cs

/-- The operands of a line: none, or numbers separated by commas. -/
def operands (cs : List Char) : Option (List Nat) :=
  match trim cs with
  | [] => some []
  | d :: ds => (fields [] (d :: ds)).mapM fun f => number (trim f)

/-- A byte operand, if it fits (R98). -/
def byteOperand (n : Nat) : Option Byte := if n < 256 then some (BitVec.ofNat 8 n) else none
/-- A 16-bit operand, if it fits (R98). -/
def halfOperand (n : Nat) : Option Half := if n < 65536 then some (BitVec.ofNat 16 n) else none
/-- MOTOR's operand: 0 or 1 (R98). -/
def bitOperand (n : Nat) : Option Bool := if n = 0 then some false else if n = 1 then some true else none

/-- A command with three byte operands. -/
def threeBytes (f : Byte → Byte → Byte → Instr) (a b c : Nat) : Option Instr :=
  (byteOperand a).bind fun x => (byteOperand b).bind fun y => (byteOperand c).map fun z => f x y z

/-- RBLK's assembly operands: address, count (R98). -/
def blockRead (addr count : Nat) : Option Instr :=
  (halfOperand addr).bind fun a => (byteOperand count).map fun n => .rblk a n

/-- DECODE n, refused for n > 515 (R98). -/
def decodeLine (n : Nat) : Option Instr :=
  if n ≤ maxDecodeLength then (halfOperand n).map .decode else none

/-- The forms of R98, and the pseudo-instructions of R99 with their expansions. -/
def form (mnemonic : List Char) (ops : List Nat) : Option Instr :=
  match mnemonic, ops with
  | ['I', 'N', 'I', 'T'], [] => some .init
  | ['S', 'E', 'E', 'K'], [t] => (byteOperand t).map .seek
  | ['R', 'S', 'E', 'C'], [c, h, s] => threeBytes .rsec c h s
  | ['R', 'B', 'L', 'K'], [a, n] => blockRead a n
  | ['M', 'T', 'I', 'C', 'K'], [] => some .mtick
  | ['M', 'O', 'T', 'O', 'R'], [on] => (bitOperand on).map .motor
  | ['C', 'L', 'A', 'S', 'S', 'I', 'F', 'Y'], [d] => (halfOperand d).map .classify
  | ['X', 'L', 'A', 'T', 'E'], [a] => (halfOperand a).map .xlate
  | ['D', 'E', 'C', 'O', 'D', 'E'], [n] => decodeLine n
  | ['L', 'O', 'C', 'A', 'T', 'E'], [c, h, s] => threeBytes .locate c h s
  | ['R', 'B', 'O', 'D', 'Y'], [] => some .rbody
  | ['M', 'O', 'T', 'O', 'R', 'O', 'N'], [] => some (.motor true)
  | ['M', 'O', 'T', 'O', 'R', 'O', 'F', 'F'], [] => some (.motor false)
  | ['R', 'E', 'A', 'D'], [a] => blockRead a 1
  | ['I', 'N', 'I', 'T', 'I', 'A', 'L', 'I', 'Z', 'E'], [] => some .init
  | ['R', 'E', 'A', 'D', '_', 'S', 'E', 'C', 'T', 'O', 'R'], [c, h, s] => threeBytes .rsec c h s
  | ['R', 'E', 'A', 'D', '_', 'B', 'L', 'O', 'C', 'K', 'S'], [a, n] => blockRead a n
  | _, _ => none

/-- R98: one line of assembly: no command for a blank or comment line, one command, or `none` where the
assembler rejects the line. -/
def assembleLine (line : List Char) : Option (List Instr) :=
  match trim (line.takeWhile (· != ';')) with
  | [] => some []
  | c :: cs =>
    let text := c :: cs
    (operands (text.dropWhile fun x => !blankChar x)).bind fun ops =>
      (form (text.takeWhile fun x => !blankChar x) ops).map fun i => [i]

/-- The words of an assembly text, given line by line. -/
def assemble (text : List (List Char)) : Option (List Word) :=
  (text.mapM assembleLine).map fun ls => ls.flatten.map encode

end Sys2Proof.Machine
end

