-- ==== Sys2Proof/Safety.lean ====
section
/-! DEFINITION. The terms the claims are made in: which states a run of the machine can be in (`Inv`),
and which pulse sequences carry which bytes. -/

namespace Sys2Proof.Machine

/-- The ranges of the decoder's working registers (R43). -/
structure DecoderOk (p : Params) (d : Decoder) : Prop where
  syncCnt : d.syncCnt ≤ p.syncLen
  syncing : d.phase = .sync → d.syncCnt < p.syncLen
  markIdx : d.markIdx ≤ 14
  marking : d.phase = .mark → d.markIdx < 14
  bitCnt : d.bitCnt < 8
  byteCnt : d.byteCnt ≤ bodySize

/-- The result codes each command can produce (R111). -/
def resultCodes : Instr → List ResultCode
  | .init => [.ok, .track0NotFound]
  | .seek _ => [.ok, .notInitialized, .trackOutOfRange]
  | .rsec _ _ _ => [.ok, .notInitialized, .trackOutOfRange, .seekError, .sectorNotFound, .noPulse,
      .incorrectDataMark, .crc]
  | .rblk _ _ => [.ok, .invalidAmount, .trackOutOfRange, .notInitialized, .seekError,
      .sectorNotFound, .noPulse, .incorrectDataMark, .crc]
  | .mtick => [.ok]
  | .motor _ => [.ok]
  | .classify _ => [.ok]
  | .xlate _ => [.ok, .trackOutOfRange]
  | .decode _ => [.ok, .noPulse]
  | .locate _ _ _ => [.ok, .seekError, .sectorNotFound]
  | .rbody => [.ok, .noPulse, .incorrectDataMark, .crc]

/-- What holds of a ReadSector for its caller: RSEC reads into slot 0 (R263), RBLK reads the block
BLOCK_IDX of a request that it has validated into that block's slot (R264). -/
def CallerOk (s : State) (r : SectorRead) : Prop :=
  match r.caller with
  | .rsec => r.slot = 0
  | .rblk addr count =>
    r.slot = s.blockIdx ∧ s.blockIdx < count.toNat ∧ count.toNat ≤ s.par.maxBlocks ∧
      addr.toNat + count.toNat ≤ s.par.capacity ∧
      r.cyl = BitVec.ofNat 8 (chsCyl s.par (addr.toNat + s.blockIdx)) ∧
      r.head = BitVec.ofNat 8 (chsHead s.par (addr.toNat + s.blockIdx)) ∧
      r.sec = BitVec.ofNat 8 (chsSec s.par (addr.toNat + s.blockIdx))

/-- What holds of a ReadSector that has passed SeekCheck and started the motor (R224, R263). -/
def MovingOk (s : State) (r : SectorRead) : Prop :=
  CallerOk s r ∧ s.initialized = true ∧ s.motorOn = true ∧ r.cyl.toNat < s.par.tracks

/-- What holds of a command inside Decode (R43, R44, R132): the Decode is under way and not complete; a
Locate is in one of its attempts; a ReadSector's head is on its cylinder. -/
def DecodingOk (s : State) (d : Decoding) : Prop :=
  s.dec.phase ≠ .done ∧ (s.dec.phase = .bits → s.dec.byteCnt < d.need) ∧
  match d with
  | .decode n => n.toNat ≤ bodySize
  | .rbody => True
  | .locate _ _ _ => 1 ≤ s.attempt ∧ s.attempt ≤ s.par.locateAttempts
  | .readId r => (1 ≤ s.attempt ∧ s.attempt ≤ s.par.locateAttempts) ∧ MovingOk s r ∧
      s.currentTrack = r.cyl
  | .readBody r => MovingOk s r ∧ s.currentTrack = r.cyl

/-- What holds at each point of a running command. -/
def JobOk (s : State) (j : Job) : Prop :=
  match j with
  | .calibrating => s.initialized = false
  | .seekStep t _ => s.initialized = true ∧ t.toNat < s.par.tracks
  | .readBegin r => CallerOk s r
  | .readCheck r => CallerOk s r
  | .readMove r => MovingOk s r
  | .readStep r _ => MovingOk s r
  | .decoding d => DecodingOk s d
  | .ending i code => code ∈ resultCodes i
  | .init | .seek _ | .seekCheck _ | .mtick | .motor _ | .classify _ | .xlate _ | .rblk _ _ => True

/-- The states a run can be in: the parameters meet their constraints (R10 to R18), memory is in its
canonical form and holds nothing outside the buffers (R71), the MOTOR line equals MOTOR_ON (R34), STEP
is low between steps (R25, R221), BUSY is 1 exactly while a command runs (R40), RDATA[31:24] = 0 (R266,
X5), every working register is in its range (R43 to R46), and a running command stands where its rule
allows. -/
structure Inv (s : State) : Prop where
  params : s.par.wf
  memCanonical : s.mem.wf
  memMapped : ∀ c ∈ s.mem, mapped s.par c.1 = true
  motorLine : s.lines.motor = s.motorOn
  stepLow : s.lines.step = false
  busyJob : s.busy = s.job.isSome
  rdataHigh : s.rdata.toNat < 2 ^ 24
  decoder : DecoderOk s.par s.dec
  attempt : s.attempt ≤ s.par.locateAttempts
  stepCnt : s.stepCnt ≤ s.par.tracks
  blockIdx : s.blockIdx < s.par.maxBlocks
  job : ∀ j, s.job = some j → JobOk s j

/-- The host makes only accesses that R38 gives a move. -/
def HostMove.aligned : HostMove → Bool
  | .writeReg off _ => off % 4 == 0
  | .readReg off => off % 4 == 0
  | .readBuf _ => true
  | .writeBuf _ _ => true
  | .idle => true

/-! ## Runs of a command -/

/-- Command `i` is running. -/
def Running (i : Instr) (s : State) : Prop := s.busy = true ∧ ∃ j, s.job = some j ∧ j.command = i

/-- Command `i` is what the host's next access starts (R91). -/
def Starts (i : Instr) (s : State) : Prop :=
  s.busy = false ∧ ∃ w rest, s.host = .writeReg 0 w :: rest ∧ decodeWord w = .ok i

/-- From `s` to `t` command `i` has run: from its acceptance, as far as `exec` takes it, or on by one step
from a state of a run. -/
def Runs (i : Instr) (s t : State) : Prop :=
  exec i s = .next t ∨ Inv s ∧ Running i s ∧ step s = .next t

/-- Command `i` has come to this result: it has ended with it, or ends with it next. -/
def Concludes (i : Instr) (code : ResultCode) (t : State) : Prop :=
  t.busy = false ∧ t.result = code ∨ t.job = some (.ending i code)

/-- `k` steps, as far as they answer a next state. -/
def steps : Nat → State → Host.Outcome State Fault Refusal
  | 0, s => .next s
  | k + 1, s =>
    match step s with
    | .next t => steps k t
    | o => o

/-! ## A move of the head as one update -/

/-- `repeat k times: StepPulse()` (R225). -/
def stepPulses : Nat → State → State
  | 0, s => s
  | k + 1, s => stepPulses k (stepPulse s)

/-- The whole of `SeekMove(t)` (R225). -/
def seekMove (t : Byte) (s : State) : State :=
  seekArrive t (stepPulses (seekSteps t s) (seekAim t s))

/-- The mechanical part of ReadSector (R263): SetMotor(1), SeekMove(c), HEAD_SEL. -/
def positionHead (cyl head : Byte) (s : State) : State :=
  driveLine .headSel (head != 0) (seekMove cyl (setMotor true s))

/-! ## Event sequences -/

/-- The events of `k` step pulses (R25), newest first. -/
def stepEvents (k : Nat) : List Event :=
  (List.replicate k
    [.delay .stepInterval, .line .step false, .delay .stepPulseWidth, .line .step true]).flatten

/-- The events of `k` turns of the calibration loop (R222), newest first: each samples TRK0 as false and
steps once. -/
def calibrationEvents (k : Nat) : List Event :=
  (List.replicate k
    [.delay .stepInterval, .line .step false, .delay .stepPulseWidth, .line .step true,
      .trk0 false]).flatten

/-! ## Pulse sequences -/

/-- A Decode of `n` bytes, from `d`, ends with OK exactly at the last of these pulses (R137, R139). -/
def completesAt (p : Params) (n : Nat) : Decoder → List PulseClass → Bool
  | _, [] => false
  | d, [c] => decodeComplete n (feed p n d c).1
  | d, c :: c' :: cs =>
    !decodeComplete n (feed p n d c).1 && completesAt p n (feed p n d c).1 (c' :: cs)

/-- A Decode of `n` bytes, from `d`, is still under way after each of these pulses. -/
def neverCompletes (p : Params) (n : Nat) : Decoder → List PulseClass → Bool
  | _, [] => true
  | d, c :: cs => !decodeComplete n (feed p n d c).1 && neverCompletes p n (feed p n d c).1 cs

/-- The durations `ds`, as the answers of a fresh Decode of `n` bytes, end it with OK exactly at the
last one, and the bytes decoded are `bytes` (R132 to R139). -/
def DecodesTo (p : Params) (n : Nat) (ds : List Nat) (bytes : List Byte) : Prop :=
  completesAt p n .reset (ds.map (classify p)) = true ∧
    (feedAll p n .reset (ds.map (classify p))).2 = bytes

/-- The durations `ds`, as the answers of a fresh Decode of `n` bytes, leave it under way (R139). -/
def KeepsDecoding (p : Params) (n : Nat) (ds : List Nat) : Prop :=
  neverCompletes p n .reset (ds.map (classify p)) = true

/-- The Pulse Source's answers for these durations. -/
def answers (ds : List Nat) : List PulseAnswer := ds.map .pulse

/-- R77: the bits of a byte, bit 7 first. -/
def msbBits (b : Byte) : List Bool := (List.range 8).map b.getMsbD

/-- A preamble of `k` Short pulses, the Medium, MARKSEQ, then `data` (R133 to R136). -/
def frameClasses (k : Nat) (data : List PulseClass) : List PulseClass :=
  List.replicate k .short ++ .medium :: (markSeq ++ data)

/-- The MFM encoding of a bit sequence as pulse classes, the table of R136 read backwards: in EVEN the
next bit is always 0. -/
def mfmEncode : BitState → List Bool → List PulseClass
  | _, [] => []
  | .odd, [true] => [.short]
  | .odd, [false] => [.medium]
  | .odd, true :: b :: bs => .short :: mfmEncode .odd (b :: bs)
  | .odd, false :: true :: bs => .long :: mfmEncode .odd bs
  | .odd, false :: false :: bs => .medium :: mfmEncode .even (false :: bs)
  | .even, [_] => [.short]
  | .even, _ :: true :: bs => .medium :: mfmEncode .odd bs
  | .even, _ :: false :: bs => .short :: mfmEncode .even (false :: bs)

/-! ## Records -/

/-- R181: a 7-byte record that matches the request. -/
def MatchingRecord (p : Params) (cyl head sec : Byte) (bytes : List Byte) : Prop :=
  ∃ res hi lo, bytes = [0xFE, cyl, head, sec, res, hi, lo] ∧
    crc16 p [0xFE, cyl, head, sec, res] = crcOf hi lo

/-- R184: a 7-byte record that is one failed attempt: another mark, or the requested cylinder with a
head, sector or CRC that does not match. -/
def FailedRecord (p : Params) (cyl head sec : Byte) (bytes : List Byte) : Prop :=
  ∃ m c h s res hi lo, bytes = [m, c, h, s, res, hi, lo] ∧
    (m ≠ 0xFE ∨ c = cyl ∧ (h ≠ head ∨ s ≠ sec ∨ crc16 p [m, c, h, s, res] ≠ crcOf hi lo))

/-- R184: the answers of one failed attempt of Locate: a record that does not match, or a timeout. -/
def FailedAttempt (p : Params) (cyl head sec : Byte) (as : List PulseAnswer) : Prop :=
  (∃ ds bytes, as = answers ds ∧ DecodesTo p amSize ds bytes ∧ FailedRecord p cyl head sec bytes) ∨
    ∃ ds, as = answers ds ++ [.timeout] ∧ KeepsDecoding p amSize ds

/-- R201: ReadBody's result for the 515 bytes decoded: the mark first, then the CRC. -/
def bodyResult (p : Params) (bytes : List Byte) : ResultCode :=
  if bytes[0]? ≠ some 0xFB then .incorrectDataMark
  else if crc16 p (bytes.take 513) = crcOf (bytes.getD 513 0) (bytes.getD 514 0) then .ok
  else .crc

/-- R185, R183, R201, R263: the answers of the Pulse Source that make a positioned ReadSector end with the
error `e`: the attempts run out; or a record of another cylinder; or, after the matching record, a Timeout
in the body, or a body that is not accepted. -/
def ReadFails (p : Params) (cyl head sec : Byte) (as : List PulseAnswer) (e : ResultCode) : Prop :=
  ∃ fails : List (List PulseAnswer), (∀ a ∈ fails, FailedAttempt p cyl head sec a) ∧
    ((fails.length = p.locateAttempts ∧ as = fails.flatten ∧ e = .sectorNotFound) ∨
      fails.length < p.locateAttempts ∧
        ((∃ ids seen more, as = fails.flatten ++ answers ids ∧
            DecodesTo p amSize ids (0xFE :: seen :: more) ∧ seen ≠ cyl ∧ e = .seekError) ∨
          ∃ ids record, DecodesTo p amSize ids record ∧ MatchingRecord p cyl head sec record ∧
            ((∃ bds, as = fails.flatten ++ (answers ids ++ (answers bds ++ [.timeout])) ∧
                KeepsDecoding p bodySize bds ∧ e = .noPulse) ∨
              ∃ bds body, as = fails.flatten ++ (answers ids ++ answers bds) ∧
                DecodesTo p bodySize bds body ∧ bodyResult p body = e ∧ e ≠ .ok)))

end Sys2Proof.Machine
end

