-- ==== Sys2Proof/Certificates/Slice0/Obligations.lean ====
section
/-! DEFINITION. The statements for the provers. A docstring names the rule a statement formalises, or
the log entry of the model's own choice that it rests on. A statement about a next state gives it as a
record: every field of State that the record does not name is as it was, so the statement is its
instruction's frame as well. A statement that a command runs to its end in the step that accepts it
assumes `s.stepwise = false`: the environment leaves it to that step (log entry 10);
`WholeRunIsItsSteps` says that with `stepwise = true` its steps, one by one, come to the same. -/

open Sys2Proof Sys2Proof.Machine Host

/-! ## Encoding (30_encoding.md) -/

/-- R92 to R94: the decoder gives every well-formed command back from its word, with every operand. -/
def Obligations.CommandWordRoundTrip : Prop :=
  ∀ i : Instr, i.wf = true → decodeWord (encode i) = .ok i

/-- R92 to R95: every word that decodes is the one encoding of its command: no bit of it is dropped. -/
def Obligations.DecodedWordIsItsEncoding : Prop :=
  ∀ (w : Word) (i : Instr), decodeWord w = .ok i → i.wf = true ∧ encode i = w

/-- R94: a word decodes to a command only through that command's row of the opcode table. -/
def Obligations.DecodingFollowsOpcodeTable : Prop :=
  ∀ (w : Word) (i : Instr), decodeWord w = .ok i →
    ∃ row ∈ opcodeTable, row.1 = i.mnemonic ∧ w &&& row.2.2 = row.2.1

/-- R95: the illegal words are those of no row of the opcode table and DECODE with W > 515. Such a word,
written while the core is idle, ends at once with BadCommand and changes nothing else. -/
def Obligations.IllegalWordIsBadCommand : Prop :=
  ∀ w : Word,
    ((∃ e, decodeWord w = .error e) ↔
      (∀ row ∈ opcodeTable, w &&& row.2.2 ≠ row.2.1) ∨
        (fieldOpc w = 0x12 ∧ 515 < (fieldW w).toNat)) ∧
    ∀ (s : State) (rest : List HostMove), (∃ e, decodeWord w = .error e) → s.busy = false →
      s.job = none → s.host = .writeReg 0 w :: rest →
      step s = .next { s with host := rest, result := .badCommand }

/-- Words written out from the examples of files 40 to 44, and an illegal one (V-DEC-19). -/
def Obligations.SampleWordsDecode : Prop :=
  decodeWord 0x00000001 = .ok .init ∧ decodeWord 0x00000502 = .ok (.seek 5) ∧
    decodeWord 0x12010003 = .ok (.rsec 0 1 18) ∧ decodeWord 0x00230104 = .ok (.rblk 35 1) ∧
    decodeWord 0x00000005 = .ok .mtick ∧ decodeWord 0x00000106 = .ok (.motor true) ∧
    decodeWord 0x00280010 = .ok (.classify 40) ∧ decodeWord 0x00230011 = .ok (.xlate 35) ∧
    decodeWord 0x02030012 = .ok (.decode 515) ∧ decodeWord 0x01000013 = .ok (.locate 0 0 1) ∧
    decodeWord 0x00000014 = .ok .rbody ∧ decodeWord 0x02040012 = .error (.decodeTooLong 516)

/-- R79: byte k of a word is bits [8k+7:8k]. That the model's byte decoder reads a word from four bytes in that
order, and leaves the bytes after them, is the model's deduction from R79 and R97 (log entry 18). -/
def Obligations.WordBytesAreLittleEndian : Prop :=
  ∀ (w : Word) (rest : List Byte),
    (∀ k, k < 4 → (bytesOfWord w)[k]? = some (w.extractLsb' (8 * k) 8)) ∧
      decodeBytes (bytesOfWord w ++ rest) = (decodeWord w).map (·, rest)

/-- R99: each pseudo-instruction stands for its expansion, and for nothing else: with the same operands
both are read alike. -/
def Obligations.PseudoInstructionsExpand : Prop :=
  ∀ ops : List Nat,
    form "MOTORON".toList [] = form "MOTOR".toList [1] ∧
    form "MOTOROFF".toList [] = form "MOTOR".toList [0] ∧
    (∀ a, form "READ".toList [a] = form "RBLK".toList [a, 1]) ∧
    form "INITIALIZE".toList ops = form "INIT".toList ops ∧
    form "READ_SECTOR".toList ops = form "RSEC".toList ops ∧
    form "READ_BLOCKS".toList ops = form "RBLK".toList ops

/-! ## Steps and the host's accesses (10_state.md, 20_memory.md, 30_encoding.md) -/

/-- R91: when the host's next access writes a word to CMD while no command runs, and the word decodes to
`i`, the step is `i`'s execution, with the access gone from the model's queue of them (log entry 7). -/
def Obligations.StepRunsDecodedCommand : Prop :=
  ∀ (s : State) (w : Word) (i : Instr) (rest : List HostMove), s.busy = false →
    s.host = .writeReg 0 w :: rest → decodeWord w = .ok i →
    step s = exec i { s with host := rest }

/-- R91, R307: a CMD write while BUSY = 1 is ignored, not queued. -/
def Obligations.CmdWriteWhileBusyIsIgnored : Prop :=
  ∀ (s : State) (w : Word) (rest : List HostMove), s.busy = true →
    s.host = .writeReg 0 w :: rest → step s = .next { s with host := rest }

/-- R341: an idle core waits for a command. A step in which the host makes no access is the same whether
the host has none to make or lets this one pass (log entry 7). -/
def Obligations.IdleCoreWaits : Prop :=
  (∀ s : State, s.busy = false → s.host = [] → step s = .next s) ∧
    ∀ (s t : State) (rest : List HostMove), s.host = .idle :: rest →
      step { s with host := [] } = .next t → step s = .next { t with host := rest }

/-- R300: no command faults or is refused; and a step stops only at an access that R38 gives no move
(log entry 8). -/
def Obligations.EveryCommandAnswersNext : Prop :=
  (∀ (i : Instr) (s : State), ∃ t, exec i s = .next t) ∧
    ∀ s : State, (∀ m ∈ s.host.head?, m.aligned = true) → ∃ t, step s = .next t

/-- R38: a register access whose offset is no multiple of 4 has no move; the model faults by name (log
entry 8). -/
def Obligations.UnalignedHostAccessStops : Prop :=
  ∀ (s : State) (off : Nat) (w : Word) (rest : List HostMove), off % 4 ≠ 0 →
    (s.host = .readReg off :: rest → step s = .fault (.unalignedHostAccess off)) ∧
      (s.host = .writeReg off w :: rest → step s = .fault (.unalignedHostAccess off))

/-- The numbers of the result codes (R110). -/
def resultNumber : ResultCode → Nat
  | .ok => 0
  | .trackOutOfRange => 1
  | .track0NotFound => 2
  | .notInitialized => 3
  | .seekError => 4
  | .sectorNotFound => 5
  | .incorrectDataMark => 6
  | .noPulse => 7
  | .crc => 8
  | .invalidAmount => 9
  | .badCommand => 15

/-- R40, R80, R110: a host read of STATUS returns RESULT's number, BUSY, INIT and MOTOR at their bits,
whether or not a command runs, and changes nothing but what the host has read. -/
def Obligations.StatusReadShowsFields : Prop :=
  ∀ (s : State) (rest : List HostMove), s.host = .readReg 4 :: rest →
    ∃ v : Word, step s = .next { s with host := rest, hostData := v } ∧
      v.toNat = resultNumber s.result + 16 * s.busy.toNat + 32 * s.initialized.toNat +
        64 * s.motorOn.toNat

/-- R39, R80: what a read of each other register returns while no command runs; while one runs TRACK,
RDATA and LASTOP read as free values (log entry 9); every other offset reads 0; a write to any offset but
CMD's is ignored, and so is a CMD write while BUSY = 1. -/
def Obligations.RegisterMap : Prop :=
  ∀ (s : State) (off : Nat) (w : Word) (rest : List HostMove), off % 4 = 0 →
    (s.host = .readReg off :: rest → s.busy = false → off ≠ 4 →
      step s = .next { s with
        host := rest
        hostData :=
          if off = 8 then BitVec.ofNat 32 s.currentTrack.toNat
          else if off = 12 then s.rdata
          else if off = 16 then s.lastOpTime
          else 0 }) ∧
    (s.host = .readReg off :: rest → s.busy = true → off ≠ 4 →
      step s = .next
        (if off = 8 ∨ off = 12 ∨ off = 16 then { s with
          host := rest, hostData := Config.freeWord s.draws, draws := s.draws + 1 }
        else { s with host := rest, hostData := 0 })) ∧
    (s.host = .writeReg off w :: rest → off ≠ 0 ∨ s.busy = true →
      step s = .next { s with host := rest })

/-- R71, R72: a host read of a buffer byte returns the byte at its address and has no side effect; an
unmapped address reads 0x00; a host write to the buffer space is ignored. R80: while a command runs a read
returns a free byte (log entry 9). -/
def Obligations.BufferSpaceAccess : Prop :=
  ∀ (s : State) (a : Half) (b : Byte) (rest : List HostMove),
    (∀ c ∈ s.mem, mapped s.par c.1 = true) →
    (s.host = .readBuf a :: rest → s.busy = false →
      ∃ v : Word, step s = .next { s with host := rest, hostData := v } ∧
        v.toNat = (bufByte s a.toNat).toNat ∧
        (¬(a.toNat < 512 * s.par.maxBlocks ∨ (0x8000 ≤ a.toNat ∧ a.toNat ≤ 0x8202) ∨
            (0x8400 ≤ a.toNat ∧ a.toNat ≤ 0x8406)) → v = 0)) ∧
    (s.host = .readBuf a :: rest → s.busy = true →
      ∃ v : Word, v.toNat = (Config.freeWord s.draws).toNat % 256 ∧
        step s = .next { s with host := rest, hostData := v, draws := s.draws + 1 }) ∧
    (s.host = .writeBuf a b :: rest → step s = .next { s with host := rest })

/-- R21 to R23, R83: a query takes the environment's next answer, which is then gone; where the state
gives none, the answer is a free value (log entry 2). -/
def Obligations.OracleAnswersAreConsumed : Prop :=
  ∀ s : State,
    (∀ a rest, s.pulses = a :: rest → pulseAnswer s = a ∧
      takePulse s = { s with pulses := rest, trace := .nextPulse a :: s.trace }) ∧
    (∀ b rest, s.trk0s = b :: rest → trk0Answer s = b ∧
      takeTrk0 s = { s with trk0s := rest, trace := .trk0 b :: s.trace }) ∧
    (∀ t rest, s.nows = t :: rest → nowAnswer s = t ∧
      takeNow s = { s with nows := rest, trace := .now t :: s.trace }) ∧
    (s.pulses = [] → pulseAnswer s = Config.freePulse s.draws ∧
      takePulse s = { s with
        draws := s.draws + 1, trace := .nextPulse (Config.freePulse s.draws) :: s.trace }) ∧
    (s.trk0s = [] → trk0Answer s = Config.freeTrk0 s.draws ∧
      takeTrk0 s = { s with
        draws := s.draws + 1, trace := .trk0 (Config.freeTrk0 s.draws) :: s.trace }) ∧
    (s.nows = [] → nowAnswer s = Config.freeNow s.draws ∧
      takeNow s = { s with
        draws := s.draws + 1, trace := .now (Config.freeNow s.draws) :: s.trace })

/-- R48, R340: the state after reset, for the state that R48 gives a value; the buffers, which R48 leaves
unspecified, hold free values (log entry 5). -/
def Obligations.ResetState : Prop :=
  State.reset.currentTrack = 0 ∧ State.reset.initialized = false ∧ State.reset.motorOn = false ∧
    State.reset.lastOpTime = 0 ∧
    State.reset.lines =
      { driveSel := false, dir := false, step := false, headSel := false, motor := false } ∧
    State.reset.result = .ok ∧ State.reset.busy = false ∧ State.reset.rdata = 0 ∧
    ∀ a, mapped State.reset.par a = true → bufByte State.reset a = Config.resetByte a

/-- R343: the parameters, which the model carries in State (log entry 1), do not change while the core
runs. -/
def Obligations.ParametersAreFixed : Prop :=
  ∀ s t : State, step s = .next t → t.par = s.par

/-! ## CLASSIFY and XLATE -/

/-- R130, R131: CLASSIFY writes the class of its operand to RDATA, and nothing else but the result. -/
def Obligations.ClassifyWritesClass : Prop :=
  ∀ (s : State) (d : Half), s.stepwise = false → exec (.classify d) s = .next { s with
    rdata := if d.toNat < s.par.tMedium then 0 else if d.toNat < s.par.tLong then 1 else 2
    result := .ok, busy := false, job := none }

/-- R261, R266: XLATE packs cylinder, head and sector into RDATA; an address at or above CAPACITY gives
TrackOutOfRange and leaves RDATA. -/
def Obligations.XlateTranslatesOrRefuses : Prop :=
  ∀ (s : State) (addr : Half), s.par.wf → s.stepwise = false →
    (s.par.capacity ≤ addr.toNat → exec (.xlate addr) s = .next { s with
      result := .trackOutOfRange, busy := false, job := none }) ∧
    (addr.toNat < s.par.capacity → ∃ w : Word,
      exec (.xlate addr) s = .next { s with rdata := w, result := .ok, busy := false, job := none } ∧
      w.toNat = addr.toNat / (s.par.sectors * s.par.heads) +
        256 * (addr.toNat / s.par.sectors % s.par.heads) +
        65536 * (addr.toNat % s.par.sectors + 1))

/-- R261, R267: the translation is in range and the inverse mapping recovers the address. -/
def Obligations.ChsRoundTrip : Prop :=
  ∀ (p : Params) (addr : Nat), p.wf → addr < p.capacity →
    chsCyl p addr < p.tracks ∧ chsHead p addr < p.heads ∧ 1 ≤ chsSec p addr ∧
      chsSec p addr ≤ p.sectors ∧
      (chsCyl p addr * p.heads + chsHead p addr) * p.sectors + (chsSec p addr - 1) = addr

/-! ## The Seek/Motor Controller (43_seek_motor.md) and INIT, SEEK (44_drive_controller.md) -/

/-- R228, R229: MOTOR is a no-op in the requested state; turning on drives the line, then waits for
spin-up; turning off drives the line. -/
def Obligations.MotorCommandSetsMotor : Prop :=
  ∀ (s : State) (on : Bool), s.stepwise = false → exec (.motor on) s = .next
    (if s.motorOn = on then { s with result := .ok, busy := false, job := none }
    else { s with
      motorOn := on
      lines := { s.lines with motor := on }
      trace :=
        if on then .delay .motorSpinup :: .line .motor true :: s.trace
        else .line .motor false :: s.trace
      result := .ok, busy := false, job := none })

/-- R230, R231: MTICK samples the clock and turns the motor off exactly when it is on and the idle time,
`(Now() − LAST_OP_TIME) mod 2^32`, exceeds MOTOR_IDLE_TIMEOUT. -/
def Obligations.MotorTickStopsIdleMotor : Prop :=
  ∀ s : State, s.stepwise = false → exec .mtick s = .next
    (if s.motorOn = true ∧ s.par.motorIdleTimeout <
        ((nowAnswer s).toNat + (2 ^ 32 - s.lastOpTime.toNat)) % 2 ^ 32 then
      { takeNow s with
        motorOn := false
        lines := { s.lines with motor := false }
        trace := .line .motor false :: (takeNow s).trace
        result := .ok, busy := false, job := none }
    else { takeNow s with result := .ok, busy := false, job := none })

/-- R224, R262: SEEK records the time first; NotInitialized comes before TrackOutOfRange; either leaves
everything else as it was. -/
def Obligations.SeekRefusals : Prop :=
  ∀ (s : State) (t : Byte), s.stepwise = false →
    (s.initialized = false → exec (.seek t) s = .next { takeNow s with
      lastOpTime := nowAnswer s, result := .notInitialized, busy := false, job := none }) ∧
    (s.initialized = true → s.par.tracks ≤ t.toNat → exec (.seek t) s = .next { takeNow s with
      lastOpTime := nowAnswer s, result := .trackOutOfRange, busy := false, job := none })

/-- R225, R262: a READY SEEK to a track below TRACKS drives DIR, issues one step pulse per cylinder of
distance, and sets CURRENT_TRACK to the target without reading a position. -/
def Obligations.SeekMovesHead : Prop :=
  ∀ (s : State) (t : Byte), s.stepwise = false → s.initialized = true → t.toNat < s.par.tracks →
    exec (.seek t) s = .next { takeNow s with
      lastOpTime := nowAnswer s
      currentTrack := t
      lines := { s.lines with
        dir := decide (s.currentTrack.toNat < t.toNat)
        step := if s.currentTrack = t then s.lines.step else false }
      trace :=
        stepEvents ((t.toNat - s.currentTrack.toNat) + (s.currentTrack.toNat - t.toNat)) ++
          .line .dir (decide (s.currentTrack.toNat < t.toNat)) :: (takeNow s).trace
      result := .ok, busy := false, job := none }

/-- R222, R260: with TRK0 first seen at the sample after `k ≤ TRACKS` steps, INIT selects the drive,
steps outward `k` times and enters READY at cylinder 0. -/
def Obligations.InitSucceeds : Prop :=
  ∀ (s : State) (k : Nat) (rest : List Bool), s.stepwise = false → k ≤ s.par.tracks →
    s.trk0s = List.replicate k false ++ true :: rest →
    exec .init s = .next { s with
      currentTrack := 0
      initialized := true
      stepCnt := k
      lines := { s.lines with
        driveSel := true, dir := false, step := if k = 0 then s.lines.step else false }
      trk0s := rest
      trace := .trk0 true :: (calibrationEvents k ++
        .line .dir false :: .line .driveSel true :: s.trace)
      result := .ok, busy := false, job := none }

/-- R222, R223: with TRACKS + 1 false samples, INIT issues exactly TRACKS steps and ends with
Track0NotFound, not READY, CURRENT_TRACK unchanged. -/
def Obligations.InitFailsAfterTracksSteps : Prop :=
  ∀ (s : State) (rest : List Bool), s.stepwise = false → 1 ≤ s.par.tracks →
    s.trk0s = List.replicate (s.par.tracks + 1) false ++ rest →
    exec .init s = .next { s with
      initialized := false
      stepCnt := s.par.tracks
      lines := { s.lines with driveSel := true, dir := false, step := false }
      trk0s := rest
      trace := .trk0 false :: (calibrationEvents s.par.tracks ++
        .line .dir false :: .line .driveSel true :: s.trace)
      result := .track0NotFound, busy := false, job := none }

/-- R220, R222, R260: whatever TRK0 answers, INIT ends: READY at cylinder 0, or not READY with
CURRENT_TRACK kept; and it leaves the motor, the clock's record, RDATA, the buffers, HEAD_SEL and the
other oracles alone. R33: while its loop runs the controller is CALIBRATING, with BUSY = 1, and a sample
that is false below the bound leaves it there; that a step is one turn of the loop is the model's choice
(log entry 10). -/
def Obligations.InitEndsEitherWay : Prop :=
  (∀ s : State, s.stepwise = false → ∃ t, exec .init s = .next t ∧ t.busy = false ∧ t.job = none ∧
    (t.result = .ok ∧ t.initialized = true ∧ t.currentTrack = 0 ∨
      t.result = .track0NotFound ∧ t.initialized = false ∧ t.currentTrack = s.currentTrack) ∧
    t.stepCnt ≤ s.par.tracks ∧ t.lines.driveSel = true ∧ t.lines.dir = false ∧
    t.lines.headSel = s.lines.headSel ∧ t.lines.motor = s.lines.motor ∧
    t.motorOn = s.motorOn ∧ t.lastOpTime = s.lastOpTime ∧ t.rdata = s.rdata ∧ t.mem = s.mem ∧
    t.dec = s.dec ∧ t.attempt = s.attempt ∧ t.blockIdx = s.blockIdx ∧ t.pulses = s.pulses ∧
    t.nows = s.nows ∧ t.host = s.host ∧ t.hostData = s.hostData ∧ t.par = s.par) ∧
  ∀ s : State, s.busy = true → s.host = [] →
    (s.job = some .init → ∃ t, step s = .next t ∧ controller t = .calibrating ∧ t.busy = true ∧
      t.stepCnt = 0) ∧
    (controller s = .calibrating → trk0Answer s = false → s.stepCnt < s.par.tracks →
      ∃ t, step s = .next t ∧ controller t = .calibrating ∧ t.busy = true ∧
        t.stepCnt = s.stepCnt + 1)

/-- R220, R33: no command but INIT writes INITIALIZED, from its acceptance to its end; INIT enters READY only
with the result OK; and no command leaves READY but INIT. -/
def Obligations.OnlyInitWritesInitialized : Prop :=
  ∀ (i : Instr) (s t : State), Runs i s t →
    (i ≠ .init → t.initialized = s.initialized) ∧
    (t.initialized = true → s.initialized = true ∨ i = .init ∧ Concludes .init .ok t) ∧
    (controller s = .ready → controller t ≠ .ready → i = .init)

/-! ## The MFM Decoder (40_mfm_decoder.md) -/

/-- R133 to R137, R140: after a preamble of at least SYNC_LEN Short pulses, the Medium and MARKSEQ,
Decode packs the bits that the table emits pulse by pulse, most significant first, ends with OK at the
pulse that completes the last byte, and discards what that pulse emits beyond it. -/
def Obligations.FrameDecodesToItsBytes : Prop :=
  ∀ (p : Params) (k : Nat) (data : List PulseClass) (bytes : List Byte),
    1 ≤ p.syncLen → p.syncLen ≤ k →
    (emittedAll .odd data).take (8 * bytes.length) = bytes.flatMap msbBits →
    8 * bytes.length ≤ (emittedAll .odd data).length →
    (data = [] ∨ (emittedAll .odd data.dropLast).length < 8 * bytes.length) →
    completesAt p bytes.length .reset (frameClasses k data) = true ∧
      (feedAll p bytes.length .reset (frameClasses k data)).2 = bytes

/-- Derived from R136, R137 and D9: every byte sequence has an MFM encoding, and Decode of its frame
gives it back. -/
def Obligations.MfmEncodingDecodes : Prop :=
  ∀ (p : Params) (k : Nat) (bytes : List Byte), 1 ≤ p.syncLen → p.syncLen ≤ k →
    completesAt p bytes.length .reset
      (frameClasses k (mfmEncode .odd (bytes.flatMap msbBits))) = true ∧
    (feedAll p bytes.length .reset
      (frameClasses k (mfmEncode .odd (bytes.flatMap msbBits)))).2 = bytes

/-- R133 to R136: what each pulse does before BITS. A pulse that breaks the sync count, the remainder or the
mark restarts the sync seek and is not counted; a pulse that matches the mark moves MARK_IDX on, at 14 to
BITS with its entry state; no byte is emitted before BITS. -/
def Obligations.DeviationRestartsSync : Prop :=
  ∀ (p : Params) (n : Nat) (d : Decoder) (c : PulseClass),
    (d.phase = .sync → c ≠ .short → (feed p n d c).1 = { d with syncCnt := 0 }) ∧
    (d.phase = .sync → c = .short → d.syncCnt + 1 < p.syncLen →
      (feed p n d c).1 = { d with syncCnt := d.syncCnt + 1 }) ∧
    (d.phase = .sync → c = .short → d.syncCnt + 1 = p.syncLen →
      (feed p n d c).1 = { d with syncCnt := p.syncLen, phase := .remainder }) ∧
    (d.phase = .remainder → c = .short → (feed p n d c).1 = d) ∧
    (d.phase = .remainder → c = .medium → (feed p n d c).1 = { d with phase := .mark, markIdx := 0 }) ∧
    (d.phase = .remainder → c = .long → (feed p n d c).1 = { d with phase := .sync, syncCnt := 0 }) ∧
    (d.phase = .mark → some c ≠ markSeq[d.markIdx]? →
      (feed p n d c).1 = { d with phase := .sync, syncCnt := 0 }) ∧
    (d.phase = .mark → some c = markSeq[d.markIdx]? → d.markIdx < 13 →
      (feed p n d c).1 = { d with markIdx := d.markIdx + 1 }) ∧
    (d.phase = .mark → some c = markSeq[d.markIdx]? → d.markIdx = 13 →
      (feed p n d c).1 = { d with
        phase := .bits, markIdx := 14, bitState := .odd, bitAcc := 0, bitCnt := 0, byteCnt := 0 }) ∧
    (d.phase ≠ .bits → (feed p n d c).2 = [])

/-- R132, R139: DECODE of n bytes, whose Decode the environment's answers complete, stores the bytes at
the start of BODY_BUF, ends with OK, and consumes exactly those answers. -/
def Obligations.DecodeCommandCompletes : Prop :=
  ∀ (s : State) (n : Half) (ds : List Nat) (bytes : List Byte) (rest : List PulseAnswer),
    s.stepwise = false → n.toNat ≤ 515 → s.pulses = answers ds ++ rest → DecodesTo s.par n.toNat ds bytes →
    bytes.length = n.toNat ∧ ∃ d : Decoder, d.phase = .done ∧
      exec (.decode n) s = .next { s with
        mem := s.mem.setAll bodyBase bytes
        dec := d
        pulses := rest
        trace := (answers ds).reverse.map .nextPulse ++ s.trace
        result := .ok, busy := false, job := none }

/-- R138, R304: a Timeout in any phase ends DECODE or RBODY with NoPulse; the destination's n bytes are
free values (log entry 3), every other byte is as it was, and nothing else changes but the decoder's
working registers, the answers taken and the result. -/
def Obligations.TimeoutEndsDecodeWithNoPulse : Prop :=
  ∀ (s : State) (i : Instr) (n : Nat) (ds : List Nat) (rest : List PulseAnswer),
    s.stepwise = false → s.pulses = answers ds ++ .timeout :: rest → KeepsDecoding s.par n ds →
    (∃ w : Half, i = .decode w ∧ w.toNat = n ∧ n ≤ 515) ∨ i = .rbody ∧ n = 515 →
    ∃ (t : State) (d : Decoder) (m : Memory),
      exec i s = .next t ∧
      t = { s with
        mem := m
        dec := d
        pulses := rest
        draws := s.draws + n
        trace := .nextPulse .timeout :: ((answers ds).reverse.map .nextPulse ++ s.trace)
        result := .noPulse, busy := false, job := none } ∧
      (∀ k, k < n → bufByte t (bodyBase + k) = Config.freeByte (s.draws + k)) ∧
      ∀ a, a < bodyBase ∨ bodyBase + n ≤ a → bufByte t a = bufByte s a

/-- R184, R185: after a failed attempt the next one is under way, or there is none left. -/
def NextAttempt (d : Decoding) (s t : State) : Prop :=
  if s.attempt < s.par.locateAttempts then
    t.job = some (.decoding d) ∧ t.attempt = s.attempt + 1 ∧ t.dec.phase = .sync ∧ t.dec.syncCnt = 0
  else t.job = some (.ending d.command .sectorNotFound)

/-- R182, R186: where a Locate stands after an attempt has decoded the record that AM_BUF now holds. -/
def RecordJudged (d : Decoding) (c h sec : Byte) (found : Job) (s t : State) : Prop :=
  (bufByte t amBase = 0xFE → bufByte t (amBase + 1) ≠ c →
    t.job = some (.ending d.command .seekError) ∧ t.currentTrack = bufByte t (amBase + 1)) ∧
  (MatchingRecord s.par c h sec (bufBytes t amBase 7) →
    t.job = some found ∧ t.currentTrack = s.currentTrack) ∧
  (FailedRecord s.par c h sec (bufBytes t amBase 7) →
    NextAttempt d s t ∧ t.currentTrack = s.currentTrack)

/-- R263, R264: where a ReadSector stands after its body has been accepted: the slot holds the data, and the
command ends or begins its next block. -/
def SectorCopied (r : SectorRead) (s t : State) : Prop :=
  (∀ k, k < 512 → bufByte t (512 * r.slot + k) = bufByte t (bodyBase + 1 + k)) ∧
    match r.caller with
    | .rsec => t.job = some (.ending r.command .ok)
    | .rblk addr count =>
      if s.blockIdx + 1 < count.toNat then
        t.blockIdx = s.blockIdx + 1 ∧ t.job = some (.readBegin
          { cyl := BitVec.ofNat 8 (chsCyl s.par (addr.toNat + (s.blockIdx + 1)))
            head := BitVec.ofNat 8 (chsHead s.par (addr.toNat + (s.blockIdx + 1)))
            sec := BitVec.ofNat 8 (chsSec s.par (addr.toNat + (s.blockIdx + 1)))
            slot := s.blockIdx + 1
            caller := .rblk addr count })
      else t.job = some (.ending r.command .ok)

/-- Where a command stands after the Decode `d` has ended with OK. -/
def DecodeEnded (d : Decoding) (s t : State) : Prop :=
  match d with
  | .decode n => t.job = some (.ending (.decode n) .ok)
  | .rbody => t.job = some (.ending .rbody (bodyResult s.par (bufBytes t bodyBase 515)))
  | .locate c h sec => RecordJudged d c h sec (.ending (.locate c h sec) .ok) s t
  | .readId r => RecordJudged d r.cyl r.head r.sec (.decoding (.readBody r)) s t
  | .readBody r =>
    if bodyResult s.par (bufBytes t bodyBase 515) = .ok then SectorCopied r s t
    else t.job = some (.ending r.command (bodyResult s.par (bufBytes t bodyBase 515)))

/-- Where a command stands after the Decode `d` has ended with NoPulse (R138, R184, R304). -/
def DecodeTimedOut (d : Decoding) (s t : State) : Prop :=
  match d with
  | .decode n => t.job = some (.ending (.decode n) .noPulse)
  | .rbody => t.job = some (.ending .rbody .noPulse)
  | .locate _ _ _ => NextAttempt d s t
  | .readId _ => NextAttempt d s t
  | .readBody r => t.job = some (.ending r.command .noPulse)

/-- A command that waits inside Decode, whichever it is, takes one answer in a step: that a step takes exactly
one is the model's choice (log entries 2 and 10); what the answer leads to is the rules'. A pulse that does
not complete the Decode moves the working registers on, stores a byte it completes at dst[BYTE_CNT], and
changes nothing else (R137, R139); a pulse that completes it, and a Timeout (R138), lead on as the command's
rule says (R182 to R185, R201, R263, R264). -/
def Obligations.WaitingDecodeTakesOneAnswer : Prop :=
  ∀ (s : State) (d : Decoding), Inv s → s.job = some (.decoding d) → s.host = [] →
    (pulseAnswer s = .timeout →
      ∃ t, step s = .next t ∧ t.pulses = s.pulses.tail ∧ t.busy = true ∧ t.result = s.result ∧
        DecodeTimedOut d s t) ∧
    ∀ x, pulseAnswer s = .pulse x →
      (decodeComplete d.need (feed s.par d.need s.dec (classify s.par x)).1 = false →
        step s = .next { takePulse s with
          dec := (feed s.par d.need s.dec (classify s.par x)).1
          mem := s.mem.setAll (d.base + s.dec.byteCnt)
            (feed s.par d.need s.dec (classify s.par x)).2 }) ∧
      (decodeComplete d.need (feed s.par d.need s.dec (classify s.par x)).1 = true →
        ∃ t, step s = .next t ∧ t.pulses = s.pulses.tail ∧ t.busy = true ∧ t.result = s.result ∧
          DecodeEnded d s t)

/-- R305, R91: pulses that never time out and never hold a Short keep a command running inside Decode:
BUSY stays 1 and RESULT stays the previous one, for as many answers as are given, and for one more at
every later step (log entry 2). -/
def Obligations.UnsyncableStreamHangs : Prop :=
  ∀ (s : State) (x m : Nat), s.par.wf → s.par.tMedium ≤ x →
    (∀ i : Instr,
      ((∃ n : Half, n.toNat ≤ 515 ∧ i = .decode n) ∨ i = .rbody ∨ (∃ c h sec, i = .locate c h sec) ∨
        s.initialized = true ∧
          ((∃ c h sec, c.toNat < s.par.tracks ∧ i = .rsec c h sec) ∨
            ∃ addr count, 1 ≤ count.toNat ∧ count.toNat ≤ s.par.maxBlocks ∧
              addr.toNat + count.toNat ≤ s.par.capacity ∧ i = .rblk addr count)) →
      s.stepwise = false → s.pulses = List.replicate m (.pulse x) →
      ∃ t, exec i s = .next t ∧ t.busy = true ∧ t.result = s.result ∧ t.dec.phase = .sync ∧
        t.pulses = []) ∧
    ∀ d : Decoding, s.busy = true → s.job = some (.decoding d) → s.dec.phase = .sync → s.host = [] →
      pulseAnswer s = .pulse x →
      ∃ t, step s = .next t ∧ t.busy = true ∧ t.result = s.result ∧ t.dec.phase = .sync ∧
        t.job = s.job

/-! ## The Sector Reader (42_sector_reader.md) -/

/-- R200, R201: RBODY, whose Decode the answers complete, leaves the 515 bytes in BODY_BUF and judges the
mark before the CRC. -/
def Obligations.RbodyJudgesBody : Prop :=
  ∀ (s : State) (ds : List Nat) (bytes : List Byte) (rest : List PulseAnswer),
    s.stepwise = false → s.pulses = answers ds ++ rest → DecodesTo s.par 515 ds bytes →
    bytes.length = 515 ∧ ∃ d : Decoder, d.phase = .done ∧
      exec .rbody s = .next { s with
        mem := s.mem.setAll bodyBase bytes
        dec := d
        pulses := rest
        trace := (answers ds).reverse.map .nextPulse ++ s.trace
        result :=
          if bytes[0]? ≠ some 0xFB then .incorrectDataMark
          else if crc16 s.par (bytes.take 513) = crcOf (bytes.getD 513 0) (bytes.getD 514 0) then .ok
          else .crc
        busy := false, job := none }

/-! ## The Sector Locator (41_sector_locator.md) -/

/-- R181, R182, R184: after fewer than LOCATE_ATTEMPTS failed attempts, a record that matches ends LOCATE
with OK, with the record in AM_BUF and CURRENT_TRACK unchanged. -/
def Obligations.LocateFindsMatchingRecord : Prop :=
  ∀ (s : State) (c h sec : Byte) (fails : List (List PulseAnswer)) (ds : List Nat)
    (bytes : List Byte) (rest : List PulseAnswer),
    s.stepwise = false → fails.length < s.par.locateAttempts →
    (∀ as ∈ fails, FailedAttempt s.par c h sec as) →
    s.pulses = fails.flatten ++ (answers ds ++ rest) → DecodesTo s.par 7 ds bytes →
    MatchingRecord s.par c h sec bytes →
    ∃ t, exec (.locate c h sec) s = .next t ∧ t.result = .ok ∧ t.busy = false ∧ t.pulses = rest ∧
      t.currentTrack = s.currentTrack ∧ t.attempt = fails.length + 1 ∧
      ∀ k, k < 7 → bufByte t (amBase + k) = bytes.getD k 0

/-- R183, R186: a record with the mark 0xFE and another cylinder byte ends LOCATE at once with SeekError,
whatever its CRC, and CURRENT_TRACK takes that byte; no further answer is taken. -/
def Obligations.LocateReportsSeekError : Prop :=
  ∀ (s : State) (c h sec : Byte) (fails : List (List PulseAnswer)) (ds : List Nat)
    (seen : Byte) (more : List Byte) (rest : List PulseAnswer),
    s.stepwise = false → fails.length < s.par.locateAttempts →
    (∀ as ∈ fails, FailedAttempt s.par c h sec as) →
    s.pulses = fails.flatten ++ (answers ds ++ rest) →
    DecodesTo s.par 7 ds (0xFE :: seen :: more) → seen ≠ c →
    ∃ t, exec (.locate c h sec) s = .next t ∧ t.result = .seekError ∧ t.busy = false ∧
      t.currentTrack = seen ∧ t.pulses = rest ∧ t.attempt = fails.length + 1

/-- R184, R185: LOCATE_ATTEMPTS failed attempts, timeouts or records that do not match, end LOCATE with
SectorNotFound, having taken the answers of exactly those attempts. -/
def Obligations.LocateExhaustsAttempts : Prop :=
  ∀ (s : State) (c h sec : Byte) (fails : List (List PulseAnswer)) (rest : List PulseAnswer),
    s.stepwise = false → fails.length = s.par.locateAttempts →
    (∀ as ∈ fails, FailedAttempt s.par c h sec as) → s.pulses = fails.flatten ++ rest →
    ∃ t, exec (.locate c h sec) s = .next t ∧ t.result = .sectorNotFound ∧ t.busy = false ∧
      t.pulses = rest ∧ t.currentTrack = s.currentTrack

/-! ## RSEC and RBLK (44_drive_controller.md) -/

/-- R263: RSEC's preconditions fail before the motor is started: the time is recorded, slot 0 takes free
values (log entry 3), no line is driven, no pulse is asked for. -/
def Obligations.RsecRefusals : Prop :=
  ∀ (s : State) (c h sec : Byte) (e : ResultCode), s.stepwise = false →
    (s.initialized = false ∧ e = .notInitialized ∨
      s.initialized = true ∧ s.par.tracks ≤ c.toNat ∧ e = .trackOutOfRange) →
    exec (.rsec c h sec) s = .next { takeNow s with
      lastOpTime := nowAnswer s
      mem := s.mem.setAll 0 (freeBytes (takeNow s).draws 512)
      draws := (takeNow s).draws + 512
      result := e, busy := false, job := none }

/-- R263: a READY RSEC whose Locate succeeds within its attempts and whose body decodes: the motor is on,
the head is on cylinder c and the side is selected; the result is the body's; AM_BUF and BODY_BUF hold
the decoded bytes; and on OK slot 0 holds the body's 512 data bytes. -/
def Obligations.RsecReadsSector : Prop :=
  ∀ (s : State) (c h sec : Byte) (fails : List (List PulseAnswer)) (ids bds : List Nat)
    (record body : List Byte) (rest : List PulseAnswer),
    s.stepwise = false → s.initialized = true → c.toNat < s.par.tracks →
    fails.length < s.par.locateAttempts →
    (∀ as ∈ fails, FailedAttempt s.par c h sec as) →
    s.pulses = fails.flatten ++ (answers ids ++ (answers bds ++ rest)) →
    DecodesTo s.par 7 ids record → MatchingRecord s.par c h sec record →
    DecodesTo s.par 515 bds body →
    ∃ t, exec (.rsec c h sec) s = .next t ∧ t.busy = false ∧ t.result = bodyResult s.par body ∧
      t.lastOpTime = nowAnswer s ∧ t.motorOn = true ∧
      (s.lines.motor = s.motorOn → t.lines.motor = true) ∧
      t.lines.dir = decide (s.currentTrack.toNat < c.toNat) ∧ t.lines.headSel = decide (h ≠ 0) ∧
      t.currentTrack = c ∧ t.pulses = rest ∧
      (∀ k, k < 7 → bufByte t (amBase + k) = record.getD k 0) ∧
      (∀ k, k < 515 → bufByte t (bodyBase + k) = body.getD k 0) ∧
      (t.result = .ok → ∀ j, j < 512 → bufByte t j = body.getD (j + 1) 0)

/-- R263, R268: a cylinder mismatch ends RSEC with SeekError; CURRENT_TRACK is the observed cylinder; the
core does not re-seek: after the first position no line is driven again and no further answer is taken. -/
def Obligations.RsecSeekErrorDoesNotReseek : Prop :=
  ∀ (s : State) (c h sec : Byte) (fails : List (List PulseAnswer)) (ids : List Nat) (seen : Byte)
    (more : List Byte) (rest : List PulseAnswer),
    s.stepwise = false → s.initialized = true → c.toNat < s.par.tracks →
    fails.length < s.par.locateAttempts →
    (∀ as ∈ fails, FailedAttempt s.par c h sec as) →
    s.pulses = fails.flatten ++ (answers ids ++ rest) →
    DecodesTo s.par 7 ids (0xFE :: seen :: more) → seen ≠ c →
    ∃ t, exec (.rsec c h sec) s = .next t ∧ t.busy = false ∧ t.result = .seekError ∧
      t.currentTrack = seen ∧ t.pulses = rest ∧ t.lastOpTime = nowAnswer s ∧
      t.trace = (fails.flatten ++ answers ids).reverse.map .nextPulse ++
        (positionHead c h (recordTime s)).trace

/-- R264, R265: RBLK checks the count, then the range in exact arithmetic, before it touches anything. -/
def Obligations.RblkChecksBeforeAnything : Prop :=
  ∀ (s : State) (addr : Half) (count : Byte), s.stepwise = false →
    (count.toNat = 0 ∨ s.par.maxBlocks < count.toNat → exec (.rblk addr count) s = .next { s with
      result := .invalidAmount, busy := false, job := none }) ∧
    (¬(count.toNat = 0 ∨ s.par.maxBlocks < count.toNat) →
      s.par.capacity < addr.toNat + count.toNat → exec (.rblk addr count) s = .next { s with
      result := .trackOutOfRange, busy := false, job := none })

/-- R264: with INITIALIZED = 0 a valid RBLK fails at block 0 with NotInitialized, after recording the
time; slot 0 takes free values (log entry 3) and nothing else changes. -/
def Obligations.RblkNeedsReady : Prop :=
  ∀ (s : State) (addr : Half) (count : Byte), s.stepwise = false → s.initialized = false →
    1 ≤ count.toNat →
    count.toNat ≤ s.par.maxBlocks → addr.toNat + count.toNat ≤ s.par.capacity →
    exec (.rblk addr count) s = .next { takeNow s with
      lastOpTime := nowAnswer s
      blockIdx := 0
      mem := s.mem.setAll 0 (freeBytes (takeNow s).draws 512)
      draws := (takeNow s).draws + 512
      result := .notInitialized, busy := false, job := none }

/-- What the environment answers while one block is read: the failed attempts, the matching record's
pulses and bytes, the body's pulses and bytes. -/
structure BlockScript where
  fails : List (List PulseAnswer)
  ids : List Nat
  record : List Byte
  bds : List Nat
  body : List Byte

/-- The answers of one block's read, in order. -/
def BlockScript.script (b : BlockScript) : List PulseAnswer :=
  b.fails.flatten ++ (answers b.ids ++ answers b.bds)

/-- The block at logical address `a` is read without an error by these answers (R182, R201, R261). -/
def BlockScript.Good (p : Params) (a : Nat) (b : BlockScript) : Prop :=
  b.fails.length < p.locateAttempts ∧
  (∀ as ∈ b.fails, FailedAttempt p (BitVec.ofNat 8 (chsCyl p a)) (BitVec.ofNat 8 (chsHead p a))
    (BitVec.ofNat 8 (chsSec p a)) as) ∧
  DecodesTo p 7 b.ids b.record ∧
  MatchingRecord p (BitVec.ofNat 8 (chsCyl p a)) (BitVec.ofNat 8 (chsHead p a))
    (BitVec.ofNat 8 (chsSec p a)) b.record ∧
  DecodesTo p 515 b.bds b.body ∧ bodyResult p b.body = .ok

/-- R264: a READY, valid RBLK whose blocks all read without error ends with OK; slot i holds the data of
block i, for every block of the request. -/
def Obligations.RblkDeliversEveryBlock : Prop :=
  ∀ (s : State) (addr : Half) (count : Byte) (blocks : List BlockScript) (rest : List PulseAnswer),
    s.par.wf → s.stepwise = false → s.initialized = true → 1 ≤ count.toNat → count.toNat ≤ s.par.maxBlocks →
    addr.toNat + count.toNat ≤ s.par.capacity → blocks.length = count.toNat →
    (∀ (i : Nat) (b : BlockScript), blocks[i]? = some b → b.Good s.par (addr.toNat + i)) →
    s.pulses = blocks.flatMap BlockScript.script ++ rest →
    ∃ t, exec (.rblk addr count) s = .next t ∧ t.busy = false ∧ t.result = .ok ∧ t.pulses = rest ∧
      t.motorOn = true ∧ t.currentTrack.toNat = chsCyl s.par (addr.toNat + count.toNat - 1) ∧
      ∀ (i : Nat) (b : BlockScript), blocks[i]? = some b → ∀ j, j < 512 →
        bufByte t (512 * i + j) = b.body.getD (j + 1) 0

/-- R264: on the failure of block k, with any of ReadSector's errors, slots 0 to k − 1 hold their blocks and
slots above k are as they were; the error is reported and no later block is read. -/
def Obligations.RblkStopsAtFirstError : Prop :=
  ∀ (s : State) (addr : Half) (count : Byte) (blocks : List BlockScript)
    (as : List PulseAnswer) (e : ResultCode) (rest : List PulseAnswer),
    s.par.wf → s.stepwise = false → s.initialized = true → count.toNat ≤ s.par.maxBlocks →
    addr.toNat + count.toNat ≤ s.par.capacity → blocks.length < count.toNat →
    (∀ (i : Nat) (b : BlockScript), blocks[i]? = some b → b.Good s.par (addr.toNat + i)) →
    ReadFails s.par (BitVec.ofNat 8 (chsCyl s.par (addr.toNat + blocks.length)))
      (BitVec.ofNat 8 (chsHead s.par (addr.toNat + blocks.length)))
      (BitVec.ofNat 8 (chsSec s.par (addr.toNat + blocks.length))) as e →
    s.pulses = blocks.flatMap BlockScript.script ++ (as ++ rest) →
    ∃ t, exec (.rblk addr count) s = .next t ∧ t.busy = false ∧ t.result = e ∧
      t.pulses = rest ∧ t.blockIdx = blocks.length ∧
      (∀ (i : Nat) (b : BlockScript), blocks[i]? = some b → ∀ j, j < 512 →
        bufByte t (512 * i + j) = b.body.getD (j + 1) 0) ∧
      ∀ a, 512 * (blocks.length + 1) ≤ a → a < bodyBase → bufByte t a = bufByte s a

/-! ## What the commands leave unchanged -/

/-- The buffer addresses a component command may write: the decoder's destination (R132). -/
def decodeRegion : Instr → Nat → Prop
  | .decode n, a => bodyBase ≤ a ∧ a < bodyBase + n.toNat
  | .rbody, a => bodyBase ≤ a ∧ a < bodyBase + bodySize
  | .locate _ _ _, a => amBase ≤ a ∧ a < amBase + amSize
  | _, _ => False

/-- R139, R180, R201: DECODE, LOCATE and RBODY change no drive state (but CURRENT_TRACK on SeekError in
LOCATE), no line, no other register (but ATTEMPT in LOCATE), and no byte outside their buffer, from their
acceptance to their end. -/
def Obligations.ComponentCommandFrame : Prop :=
  ∀ (i : Instr) (s t : State),
    ((∃ n, i = .decode n) ∨ i = .rbody ∨ (∃ c h sec, i = .locate c h sec)) → Runs i s t →
    t.par = s.par ∧ t.initialized = s.initialized ∧ t.motorOn = s.motorOn ∧
    t.lastOpTime = s.lastOpTime ∧ t.lines = s.lines ∧ t.rdata = s.rdata ∧ t.stepCnt = s.stepCnt ∧
    t.blockIdx = s.blockIdx ∧ t.trk0s = s.trk0s ∧ t.nows = s.nows ∧
    (exec i s = .next t ∨ s.host = [] → t.host = s.host ∧ t.hostData = s.hostData) ∧
    (t.currentTrack = s.currentTrack ∨
      Concludes i .seekError t ∧ ∃ c h sec, i = .locate c h sec) ∧
    (t.attempt = s.attempt ∨ ∃ c h sec, i = .locate c h sec) ∧
    ∀ a, ¬decodeRegion i a → bufByte t a = bufByte s a

/-- The buffer addresses a sector read may write: AM_BUF, BODY_BUF and its slots (R263, R264). -/
def readRegion : Instr → Nat → Prop
  | .rsec _ _ _, a => a < 512 ∨ (bodyBase ≤ a ∧ a < bodyBase + bodySize) ∨
      (amBase ≤ a ∧ a < amBase + amSize)
  | .rblk _ count, a => a < 512 * count.toNat ∨ (bodyBase ≤ a ∧ a < bodyBase + bodySize) ∨
      (amBase ≤ a ∧ a < amBase + amSize)
  | _, _ => False

/-- R263, R264: RSEC and RBLK leave INITIALIZED, RDATA, DRIVE_SEL, STEP_CNT, the host's side and every
byte outside AM_BUF, BODY_BUF and their slots as they were, from their acceptance to their end. -/
def Obligations.SectorReadFrame : Prop :=
  ∀ (i : Instr) (s t : State),
    ((∃ c h sec, i = .rsec c h sec) ∨ (∃ addr count, i = .rblk addr count)) → Runs i s t →
    t.par = s.par ∧ t.initialized = s.initialized ∧ t.rdata = s.rdata ∧ t.stepCnt = s.stepCnt ∧
    t.lines.driveSel = s.lines.driveSel ∧ t.trk0s = s.trk0s ∧
    (exec i s = .next t ∨ s.host = [] → t.host = s.host ∧ t.hostData = s.hostData) ∧
    ((∃ c h sec, i = .rsec c h sec) → t.blockIdx = s.blockIdx) ∧
    ∀ a, ¬readRegion i a → bufByte t a = bufByte s a

/-- R42: RDATA is written only by CLASSIFY and by a successful XLATE. -/
def Obligations.RdataWriters : Prop :=
  ∀ (i : Instr) (s t : State), Runs i s t → t.rdata ≠ s.rdata →
    (∃ d, i = .classify d) ∨ (∃ addr, i = .xlate addr ∧ Concludes i .ok t)

/-- R35: only SEEK and the sector reads record the time of the last operation. -/
def Obligations.LastOpTimeWriters : Prop :=
  ∀ (i : Instr) (s t : State), Runs i s t → t.lastOpTime ≠ s.lastOpTime →
    (∃ track, i = .seek track) ∨ (∃ c h sec, i = .rsec c h sec) ∨ (∃ addr count, i = .rblk addr count)

/-- R34: only MOTOR, MTICK, RSEC and RBLK write MOTOR_ON, and the MOTOR line always equals it. -/
def Obligations.MotorOnWriters : Prop :=
  ∀ (i : Instr) (s t : State), Runs i s t →
    (s.lines.motor = s.motorOn → t.lines.motor = t.motorOn) ∧
    (t.motorOn ≠ s.motorOn → (∃ on, i = .motor on) ∨ i = .mtick ∨ (∃ c h sec, i = .rsec c h sec) ∨
      (∃ addr count, i = .rblk addr count))

/-- R32: only calibration, a seek and a seek error write CURRENT_TRACK: with 0, with the target or the
cylinder of the sector or of one of the request's blocks, or with the observed cylinder. -/
def Obligations.CurrentTrackWriters : Prop :=
  ∀ (i : Instr) (s t : State), Runs i s t → t.currentTrack ≠ s.currentTrack →
    (i = .init ∧ Concludes i .ok t ∧ t.currentTrack = 0) ∨
    (∃ track, i = .seek track ∧ Concludes i .ok t ∧ t.currentTrack = track) ∨
    ((∃ c h sec, i = .locate c h sec) ∧ Concludes i .seekError t) ∨
    (∃ c h sec, i = .rsec c h sec ∧ (t.currentTrack = c ∨ Concludes i .seekError t)) ∨
    (∃ addr count, i = .rblk addr count ∧
      ((∃ k, k < count.toNat ∧ t.currentTrack = BitVec.ofNat 8 (chsCyl s.par (addr.toNat + k))) ∨
        Concludes i .seekError t))

/-- R36: CURRENT_TRACK < TRACKS while INITIALIZED = 1 is kept by every step but one in which a command
comes to the result SeekError. -/
def Obligations.TrackBoundKeptButForSeekError : Prop :=
  ∀ s t : State, Inv s → (s.initialized = true → s.currentTrack.toNat < s.par.tracks) →
    step s = .next t →
    (t.initialized = true → t.currentTrack.toNat < t.par.tracks) ∨
      ∃ i, Concludes i .seekError t ∧ (Starts i s ∨ Running i s ∧ s.job ≠ t.job)

/-- R111, R40: a command that has ended has one of its result codes; while it runs RESULT holds the
previous command's. -/
def Obligations.ResultCodesOfEachCommand : Prop :=
  ∀ (i : Instr) (s t : State), i.wf = true → Runs i s t →
    (t.busy = false → t.result ∈ resultCodes i) ∧ (t.busy = true → t.result = s.result)

/-- In these events, the newest first, every motor-on is followed at once by the spin-up delay (R227). -/
def SpinUpFollows (evs : List Event) : Prop :=
  ∀ k, evs[k]? = some (.line .motor true) →
    ∃ j, k = j + 1 ∧ evs[j]? = some (.delay .motorSpinup)

/-- R227: `Delay(MOTOR_SPINUP)` follows every `Line(MOTOR, 1)`, before any other event. -/
def Obligations.SpinUpFollowsMotorOn : Prop :=
  ∀ s t : State, SpinUpFollows s.trace → step s = .next t → SpinUpFollows t.trace

/-! ## The invariant -/

/-- The invariant holds after reset. Its clauses about working registers rest on the model's own reset
values (log entry 6). -/
def Obligations.ResetMeetsInvariant : Prop := Inv State.reset

/-- Every step keeps the invariant: memory canonical and inside the buffers, the MOTOR line equal to
MOTOR_ON, STEP low, BUSY exactly while a command runs, RDATA's high byte zero, every working register in
its range, and every running command where its rule allows. -/
def Obligations.StepKeepsInvariant : Prop :=
  ∀ s t : State, Inv s → step s = .next t → Inv t

/-! ## A run in one step and step by step -/

/-- R91, R24 and log entry 10: accepting a command writes BUSY and the working registers alone, and leaves
the command running; its steps, one by one, come to what `exec` does in one step. And one more answer of
the Pulse Source, whether it stands in the script or reaches the waiting command later, leads to the same
state. -/
def Obligations.WholeRunIsItsSteps : Prop :=
  ∀ (i : Instr) (s t : State), i.wf = true → s.stepwise = false → s.host = [] → exec i s = .next t →
    (∃ u, exec i { s with stepwise := true } = .next u ∧ Running i u ∧
      u = { s with
        busy := true, job := u.job, dec := u.dec, attempt := u.attempt, stepwise := true } ∧
      ∃ n, steps n u = .next { t with stepwise := true }) ∧
    (t.busy = true → ∀ a, ∃ t', exec i { s with pulses := s.pulses ++ [a] } = .next t' ∧
      ∃ n, steps (n + 1) { t with pulses := [a] } = .next t')

/-- R263, R302: a READY RSEC whose read fails ends with that error: no match within the attempts, another
cylinder, no pulse in the body, a wrong data mark or a wrong CRC; the motor is on, the time is recorded, and
but for SeekError the head's cylinder is the requested one. -/
def Obligations.RsecReportsFailedRead : Prop :=
  ∀ (s : State) (c h sec : Byte) (as : List PulseAnswer) (e : ResultCode) (rest : List PulseAnswer),
    s.stepwise = false → s.initialized = true → c.toNat < s.par.tracks →
    ReadFails s.par c h sec as e → s.pulses = as ++ rest →
    ∃ t, exec (.rsec c h sec) s = .next t ∧ t.busy = false ∧ t.result = e ∧ t.pulses = rest ∧
      t.lastOpTime = nowAnswer s ∧ t.motorOn = true ∧ (e ≠ .seekError → t.currentTrack = c)
end

