-- ==== Sys2Proof/Laws/State.lean ====
section
/-! SUPPORT. One lemma per field of State per shared update: what the update writes, and that it leaves
every other field as it was. No later proof unfolds these record updates. -/

namespace Sys2Proof.Machine

/-! ### emit -/
@[simp] theorem emit_par (e : Event) (s : State) : (emit e s).par = s.par := rfl
@[simp] theorem emit_currentTrack (e : Event) (s : State) : (emit e s).currentTrack = s.currentTrack := rfl
@[simp] theorem emit_initialized (e : Event) (s : State) : (emit e s).initialized = s.initialized := rfl
@[simp] theorem emit_motorOn (e : Event) (s : State) : (emit e s).motorOn = s.motorOn := rfl
@[simp] theorem emit_lastOpTime (e : Event) (s : State) : (emit e s).lastOpTime = s.lastOpTime := rfl
@[simp] theorem emit_lines (e : Event) (s : State) : (emit e s).lines = s.lines := rfl
@[simp] theorem emit_result (e : Event) (s : State) : (emit e s).result = s.result := rfl
@[simp] theorem emit_busy (e : Event) (s : State) : (emit e s).busy = s.busy := rfl
@[simp] theorem emit_rdata (e : Event) (s : State) : (emit e s).rdata = s.rdata := rfl
@[simp] theorem emit_dec (e : Event) (s : State) : (emit e s).dec = s.dec := rfl
@[simp] theorem emit_attempt (e : Event) (s : State) : (emit e s).attempt = s.attempt := rfl
@[simp] theorem emit_stepCnt (e : Event) (s : State) : (emit e s).stepCnt = s.stepCnt := rfl
@[simp] theorem emit_blockIdx (e : Event) (s : State) : (emit e s).blockIdx = s.blockIdx := rfl
@[simp] theorem emit_mem (e : Event) (s : State) : (emit e s).mem = s.mem := rfl
@[simp] theorem emit_job (e : Event) (s : State) : (emit e s).job = s.job := rfl
@[simp] theorem emit_stepwise (e : Event) (s : State) : (emit e s).stepwise = s.stepwise := rfl
@[simp] theorem emit_pulses (e : Event) (s : State) : (emit e s).pulses = s.pulses := rfl
@[simp] theorem emit_trk0s (e : Event) (s : State) : (emit e s).trk0s = s.trk0s := rfl
@[simp] theorem emit_nows (e : Event) (s : State) : (emit e s).nows = s.nows := rfl
@[simp] theorem emit_draws (e : Event) (s : State) : (emit e s).draws = s.draws := rfl
@[simp] theorem emit_host (e : Event) (s : State) : (emit e s).host = s.host := rfl
@[simp] theorem emit_hostData (e : Event) (s : State) : (emit e s).hostData = s.hostData := rfl
@[simp] theorem emit_trace (e : Event) (s : State) : (emit e s).trace = e :: s.trace := rfl
/-! ### driveLine -/
@[simp] theorem driveLine_par (l : OutLine) (v : Bool) (s : State) : (driveLine l v s).par = s.par := rfl
@[simp] theorem driveLine_currentTrack (l : OutLine) (v : Bool) (s : State) : (driveLine l v s).currentTrack = s.currentTrack := rfl
@[simp] theorem driveLine_initialized (l : OutLine) (v : Bool) (s : State) : (driveLine l v s).initialized = s.initialized := rfl
@[simp] theorem driveLine_motorOn (l : OutLine) (v : Bool) (s : State) : (driveLine l v s).motorOn = s.motorOn := rfl
@[simp] theorem driveLine_lastOpTime (l : OutLine) (v : Bool) (s : State) : (driveLine l v s).lastOpTime = s.lastOpTime := rfl
@[simp] theorem driveLine_lines (l : OutLine) (v : Bool) (s : State) : (driveLine l v s).lines = s.lines.drive l v := rfl
@[simp] theorem driveLine_result (l : OutLine) (v : Bool) (s : State) : (driveLine l v s).result = s.result := rfl
@[simp] theorem driveLine_busy (l : OutLine) (v : Bool) (s : State) : (driveLine l v s).busy = s.busy := rfl
@[simp] theorem driveLine_rdata (l : OutLine) (v : Bool) (s : State) : (driveLine l v s).rdata = s.rdata := rfl
@[simp] theorem driveLine_dec (l : OutLine) (v : Bool) (s : State) : (driveLine l v s).dec = s.dec := rfl
@[simp] theorem driveLine_attempt (l : OutLine) (v : Bool) (s : State) : (driveLine l v s).attempt = s.attempt := rfl
@[simp] theorem driveLine_stepCnt (l : OutLine) (v : Bool) (s : State) : (driveLine l v s).stepCnt = s.stepCnt := rfl
@[simp] theorem driveLine_blockIdx (l : OutLine) (v : Bool) (s : State) : (driveLine l v s).blockIdx = s.blockIdx := rfl
@[simp] theorem driveLine_mem (l : OutLine) (v : Bool) (s : State) : (driveLine l v s).mem = s.mem := rfl
@[simp] theorem driveLine_job (l : OutLine) (v : Bool) (s : State) : (driveLine l v s).job = s.job := rfl
@[simp] theorem driveLine_stepwise (l : OutLine) (v : Bool) (s : State) : (driveLine l v s).stepwise = s.stepwise := rfl
@[simp] theorem driveLine_pulses (l : OutLine) (v : Bool) (s : State) : (driveLine l v s).pulses = s.pulses := rfl
@[simp] theorem driveLine_trk0s (l : OutLine) (v : Bool) (s : State) : (driveLine l v s).trk0s = s.trk0s := rfl
@[simp] theorem driveLine_nows (l : OutLine) (v : Bool) (s : State) : (driveLine l v s).nows = s.nows := rfl
@[simp] theorem driveLine_draws (l : OutLine) (v : Bool) (s : State) : (driveLine l v s).draws = s.draws := rfl
@[simp] theorem driveLine_host (l : OutLine) (v : Bool) (s : State) : (driveLine l v s).host = s.host := rfl
@[simp] theorem driveLine_hostData (l : OutLine) (v : Bool) (s : State) : (driveLine l v s).hostData = s.hostData := rfl
@[simp] theorem driveLine_trace (l : OutLine) (v : Bool) (s : State) : (driveLine l v s).trace = .line l v :: s.trace := rfl
/-! ### delay -/
@[simp] theorem delay_par (d : DelayLabel) (s : State) : (delay d s).par = s.par := rfl
@[simp] theorem delay_currentTrack (d : DelayLabel) (s : State) : (delay d s).currentTrack = s.currentTrack := rfl
@[simp] theorem delay_initialized (d : DelayLabel) (s : State) : (delay d s).initialized = s.initialized := rfl
@[simp] theorem delay_motorOn (d : DelayLabel) (s : State) : (delay d s).motorOn = s.motorOn := rfl
@[simp] theorem delay_lastOpTime (d : DelayLabel) (s : State) : (delay d s).lastOpTime = s.lastOpTime := rfl
@[simp] theorem delay_lines (d : DelayLabel) (s : State) : (delay d s).lines = s.lines := rfl
@[simp] theorem delay_result (d : DelayLabel) (s : State) : (delay d s).result = s.result := rfl
@[simp] theorem delay_busy (d : DelayLabel) (s : State) : (delay d s).busy = s.busy := rfl
@[simp] theorem delay_rdata (d : DelayLabel) (s : State) : (delay d s).rdata = s.rdata := rfl
@[simp] theorem delay_dec (d : DelayLabel) (s : State) : (delay d s).dec = s.dec := rfl
@[simp] theorem delay_attempt (d : DelayLabel) (s : State) : (delay d s).attempt = s.attempt := rfl
@[simp] theorem delay_stepCnt (d : DelayLabel) (s : State) : (delay d s).stepCnt = s.stepCnt := rfl
@[simp] theorem delay_blockIdx (d : DelayLabel) (s : State) : (delay d s).blockIdx = s.blockIdx := rfl
@[simp] theorem delay_mem (d : DelayLabel) (s : State) : (delay d s).mem = s.mem := rfl
@[simp] theorem delay_job (d : DelayLabel) (s : State) : (delay d s).job = s.job := rfl
@[simp] theorem delay_stepwise (d : DelayLabel) (s : State) : (delay d s).stepwise = s.stepwise := rfl
@[simp] theorem delay_pulses (d : DelayLabel) (s : State) : (delay d s).pulses = s.pulses := rfl
@[simp] theorem delay_trk0s (d : DelayLabel) (s : State) : (delay d s).trk0s = s.trk0s := rfl
@[simp] theorem delay_nows (d : DelayLabel) (s : State) : (delay d s).nows = s.nows := rfl
@[simp] theorem delay_draws (d : DelayLabel) (s : State) : (delay d s).draws = s.draws := rfl
@[simp] theorem delay_host (d : DelayLabel) (s : State) : (delay d s).host = s.host := rfl
@[simp] theorem delay_hostData (d : DelayLabel) (s : State) : (delay d s).hostData = s.hostData := rfl
@[simp] theorem delay_trace (d : DelayLabel) (s : State) : (delay d s).trace = .delay d :: s.trace := rfl
/-! ### accept -/
@[simp] theorem accept_par (s : State) : (accept s).par = s.par := rfl
@[simp] theorem accept_currentTrack (s : State) : (accept s).currentTrack = s.currentTrack := rfl
@[simp] theorem accept_initialized (s : State) : (accept s).initialized = s.initialized := rfl
@[simp] theorem accept_motorOn (s : State) : (accept s).motorOn = s.motorOn := rfl
@[simp] theorem accept_lastOpTime (s : State) : (accept s).lastOpTime = s.lastOpTime := rfl
@[simp] theorem accept_lines (s : State) : (accept s).lines = s.lines := rfl
@[simp] theorem accept_result (s : State) : (accept s).result = s.result := rfl
@[simp] theorem accept_busy (s : State) : (accept s).busy = true := rfl
@[simp] theorem accept_rdata (s : State) : (accept s).rdata = s.rdata := rfl
@[simp] theorem accept_dec (s : State) : (accept s).dec = s.dec := rfl
@[simp] theorem accept_attempt (s : State) : (accept s).attempt = s.attempt := rfl
@[simp] theorem accept_stepCnt (s : State) : (accept s).stepCnt = s.stepCnt := rfl
@[simp] theorem accept_blockIdx (s : State) : (accept s).blockIdx = s.blockIdx := rfl
@[simp] theorem accept_mem (s : State) : (accept s).mem = s.mem := rfl
@[simp] theorem accept_job (s : State) : (accept s).job = none := rfl
@[simp] theorem accept_stepwise (s : State) : (accept s).stepwise = s.stepwise := rfl
@[simp] theorem accept_pulses (s : State) : (accept s).pulses = s.pulses := rfl
@[simp] theorem accept_trk0s (s : State) : (accept s).trk0s = s.trk0s := rfl
@[simp] theorem accept_nows (s : State) : (accept s).nows = s.nows := rfl
@[simp] theorem accept_draws (s : State) : (accept s).draws = s.draws := rfl
@[simp] theorem accept_host (s : State) : (accept s).host = s.host := rfl
@[simp] theorem accept_hostData (s : State) : (accept s).hostData = s.hostData := rfl
@[simp] theorem accept_trace (s : State) : (accept s).trace = s.trace := rfl
/-! ### goto -/
@[simp] theorem goto_par (j : Job) (s : State) : (goto j s).par = s.par := rfl
@[simp] theorem goto_currentTrack (j : Job) (s : State) : (goto j s).currentTrack = s.currentTrack := rfl
@[simp] theorem goto_initialized (j : Job) (s : State) : (goto j s).initialized = s.initialized := rfl
@[simp] theorem goto_motorOn (j : Job) (s : State) : (goto j s).motorOn = s.motorOn := rfl
@[simp] theorem goto_lastOpTime (j : Job) (s : State) : (goto j s).lastOpTime = s.lastOpTime := rfl
@[simp] theorem goto_lines (j : Job) (s : State) : (goto j s).lines = s.lines := rfl
@[simp] theorem goto_result (j : Job) (s : State) : (goto j s).result = s.result := rfl
@[simp] theorem goto_busy (j : Job) (s : State) : (goto j s).busy = s.busy := rfl
@[simp] theorem goto_rdata (j : Job) (s : State) : (goto j s).rdata = s.rdata := rfl
@[simp] theorem goto_dec (j : Job) (s : State) : (goto j s).dec = s.dec := rfl
@[simp] theorem goto_attempt (j : Job) (s : State) : (goto j s).attempt = s.attempt := rfl
@[simp] theorem goto_stepCnt (j : Job) (s : State) : (goto j s).stepCnt = s.stepCnt := rfl
@[simp] theorem goto_blockIdx (j : Job) (s : State) : (goto j s).blockIdx = s.blockIdx := rfl
@[simp] theorem goto_mem (j : Job) (s : State) : (goto j s).mem = s.mem := rfl
@[simp] theorem goto_job (j : Job) (s : State) : (goto j s).job = some j := rfl
@[simp] theorem goto_stepwise (j : Job) (s : State) : (goto j s).stepwise = s.stepwise := rfl
@[simp] theorem goto_pulses (j : Job) (s : State) : (goto j s).pulses = s.pulses := rfl
@[simp] theorem goto_trk0s (j : Job) (s : State) : (goto j s).trk0s = s.trk0s := rfl
@[simp] theorem goto_nows (j : Job) (s : State) : (goto j s).nows = s.nows := rfl
@[simp] theorem goto_draws (j : Job) (s : State) : (goto j s).draws = s.draws := rfl
@[simp] theorem goto_host (j : Job) (s : State) : (goto j s).host = s.host := rfl
@[simp] theorem goto_hostData (j : Job) (s : State) : (goto j s).hostData = s.hostData := rfl
@[simp] theorem goto_trace (j : Job) (s : State) : (goto j s).trace = s.trace := rfl
/-! ### endWith -/
@[simp] theorem endWith_par (i : Instr) (c : ResultCode) (s : State) : (endWith i c s).par = s.par := rfl
@[simp] theorem endWith_currentTrack (i : Instr) (c : ResultCode) (s : State) : (endWith i c s).currentTrack = s.currentTrack := rfl
@[simp] theorem endWith_initialized (i : Instr) (c : ResultCode) (s : State) : (endWith i c s).initialized = s.initialized := rfl
@[simp] theorem endWith_motorOn (i : Instr) (c : ResultCode) (s : State) : (endWith i c s).motorOn = s.motorOn := rfl
@[simp] theorem endWith_lastOpTime (i : Instr) (c : ResultCode) (s : State) : (endWith i c s).lastOpTime = s.lastOpTime := rfl
@[simp] theorem endWith_lines (i : Instr) (c : ResultCode) (s : State) : (endWith i c s).lines = s.lines := rfl
@[simp] theorem endWith_result (i : Instr) (c : ResultCode) (s : State) : (endWith i c s).result = s.result := rfl
@[simp] theorem endWith_busy (i : Instr) (c : ResultCode) (s : State) : (endWith i c s).busy = s.busy := rfl
@[simp] theorem endWith_rdata (i : Instr) (c : ResultCode) (s : State) : (endWith i c s).rdata = s.rdata := rfl
@[simp] theorem endWith_dec (i : Instr) (c : ResultCode) (s : State) : (endWith i c s).dec = s.dec := rfl
@[simp] theorem endWith_attempt (i : Instr) (c : ResultCode) (s : State) : (endWith i c s).attempt = s.attempt := rfl
@[simp] theorem endWith_stepCnt (i : Instr) (c : ResultCode) (s : State) : (endWith i c s).stepCnt = s.stepCnt := rfl
@[simp] theorem endWith_blockIdx (i : Instr) (c : ResultCode) (s : State) : (endWith i c s).blockIdx = s.blockIdx := rfl
@[simp] theorem endWith_mem (i : Instr) (c : ResultCode) (s : State) : (endWith i c s).mem = s.mem := rfl
@[simp] theorem endWith_job (i : Instr) (c : ResultCode) (s : State) : (endWith i c s).job = some (.ending i c) := rfl
@[simp] theorem endWith_stepwise (i : Instr) (c : ResultCode) (s : State) : (endWith i c s).stepwise = s.stepwise := rfl
@[simp] theorem endWith_pulses (i : Instr) (c : ResultCode) (s : State) : (endWith i c s).pulses = s.pulses := rfl
@[simp] theorem endWith_trk0s (i : Instr) (c : ResultCode) (s : State) : (endWith i c s).trk0s = s.trk0s := rfl
@[simp] theorem endWith_nows (i : Instr) (c : ResultCode) (s : State) : (endWith i c s).nows = s.nows := rfl
@[simp] theorem endWith_draws (i : Instr) (c : ResultCode) (s : State) : (endWith i c s).draws = s.draws := rfl
@[simp] theorem endWith_host (i : Instr) (c : ResultCode) (s : State) : (endWith i c s).host = s.host := rfl
@[simp] theorem endWith_hostData (i : Instr) (c : ResultCode) (s : State) : (endWith i c s).hostData = s.hostData := rfl
@[simp] theorem endWith_trace (i : Instr) (c : ResultCode) (s : State) : (endWith i c s).trace = s.trace := rfl
/-! ### finish -/
@[simp] theorem finish_par (c : ResultCode) (s : State) : (finish c s).par = s.par := rfl
@[simp] theorem finish_currentTrack (c : ResultCode) (s : State) : (finish c s).currentTrack = s.currentTrack := rfl
@[simp] theorem finish_initialized (c : ResultCode) (s : State) : (finish c s).initialized = s.initialized := rfl
@[simp] theorem finish_motorOn (c : ResultCode) (s : State) : (finish c s).motorOn = s.motorOn := rfl
@[simp] theorem finish_lastOpTime (c : ResultCode) (s : State) : (finish c s).lastOpTime = s.lastOpTime := rfl
@[simp] theorem finish_lines (c : ResultCode) (s : State) : (finish c s).lines = s.lines := rfl
@[simp] theorem finish_result (c : ResultCode) (s : State) : (finish c s).result = c := rfl
@[simp] theorem finish_busy (c : ResultCode) (s : State) : (finish c s).busy = false := rfl
@[simp] theorem finish_rdata (c : ResultCode) (s : State) : (finish c s).rdata = s.rdata := rfl
@[simp] theorem finish_dec (c : ResultCode) (s : State) : (finish c s).dec = s.dec := rfl
@[simp] theorem finish_attempt (c : ResultCode) (s : State) : (finish c s).attempt = s.attempt := rfl
@[simp] theorem finish_stepCnt (c : ResultCode) (s : State) : (finish c s).stepCnt = s.stepCnt := rfl
@[simp] theorem finish_blockIdx (c : ResultCode) (s : State) : (finish c s).blockIdx = s.blockIdx := rfl
@[simp] theorem finish_mem (c : ResultCode) (s : State) : (finish c s).mem = s.mem := rfl
@[simp] theorem finish_job (c : ResultCode) (s : State) : (finish c s).job = none := rfl
@[simp] theorem finish_stepwise (c : ResultCode) (s : State) : (finish c s).stepwise = s.stepwise := rfl
@[simp] theorem finish_pulses (c : ResultCode) (s : State) : (finish c s).pulses = s.pulses := rfl
@[simp] theorem finish_trk0s (c : ResultCode) (s : State) : (finish c s).trk0s = s.trk0s := rfl
@[simp] theorem finish_nows (c : ResultCode) (s : State) : (finish c s).nows = s.nows := rfl
@[simp] theorem finish_draws (c : ResultCode) (s : State) : (finish c s).draws = s.draws := rfl
@[simp] theorem finish_host (c : ResultCode) (s : State) : (finish c s).host = s.host := rfl
@[simp] theorem finish_hostData (c : ResultCode) (s : State) : (finish c s).hostData = s.hostData := rfl
@[simp] theorem finish_trace (c : ResultCode) (s : State) : (finish c s).trace = s.trace := rfl
/-! ### writeBuf -/
@[simp] theorem writeBuf_par (base : Nat) (bs : List Byte) (s : State) : (writeBuf base bs s).par = s.par := rfl
@[simp] theorem writeBuf_currentTrack (base : Nat) (bs : List Byte) (s : State) : (writeBuf base bs s).currentTrack = s.currentTrack := rfl
@[simp] theorem writeBuf_initialized (base : Nat) (bs : List Byte) (s : State) : (writeBuf base bs s).initialized = s.initialized := rfl
@[simp] theorem writeBuf_motorOn (base : Nat) (bs : List Byte) (s : State) : (writeBuf base bs s).motorOn = s.motorOn := rfl
@[simp] theorem writeBuf_lastOpTime (base : Nat) (bs : List Byte) (s : State) : (writeBuf base bs s).lastOpTime = s.lastOpTime := rfl
@[simp] theorem writeBuf_lines (base : Nat) (bs : List Byte) (s : State) : (writeBuf base bs s).lines = s.lines := rfl
@[simp] theorem writeBuf_result (base : Nat) (bs : List Byte) (s : State) : (writeBuf base bs s).result = s.result := rfl
@[simp] theorem writeBuf_busy (base : Nat) (bs : List Byte) (s : State) : (writeBuf base bs s).busy = s.busy := rfl
@[simp] theorem writeBuf_rdata (base : Nat) (bs : List Byte) (s : State) : (writeBuf base bs s).rdata = s.rdata := rfl
@[simp] theorem writeBuf_dec (base : Nat) (bs : List Byte) (s : State) : (writeBuf base bs s).dec = s.dec := rfl
@[simp] theorem writeBuf_attempt (base : Nat) (bs : List Byte) (s : State) : (writeBuf base bs s).attempt = s.attempt := rfl
@[simp] theorem writeBuf_stepCnt (base : Nat) (bs : List Byte) (s : State) : (writeBuf base bs s).stepCnt = s.stepCnt := rfl
@[simp] theorem writeBuf_blockIdx (base : Nat) (bs : List Byte) (s : State) : (writeBuf base bs s).blockIdx = s.blockIdx := rfl
@[simp] theorem writeBuf_mem (base : Nat) (bs : List Byte) (s : State) : (writeBuf base bs s).mem = s.mem.setAll base bs := rfl
@[simp] theorem writeBuf_job (base : Nat) (bs : List Byte) (s : State) : (writeBuf base bs s).job = s.job := rfl
@[simp] theorem writeBuf_stepwise (base : Nat) (bs : List Byte) (s : State) : (writeBuf base bs s).stepwise = s.stepwise := rfl
@[simp] theorem writeBuf_pulses (base : Nat) (bs : List Byte) (s : State) : (writeBuf base bs s).pulses = s.pulses := rfl
@[simp] theorem writeBuf_trk0s (base : Nat) (bs : List Byte) (s : State) : (writeBuf base bs s).trk0s = s.trk0s := rfl
@[simp] theorem writeBuf_nows (base : Nat) (bs : List Byte) (s : State) : (writeBuf base bs s).nows = s.nows := rfl
@[simp] theorem writeBuf_draws (base : Nat) (bs : List Byte) (s : State) : (writeBuf base bs s).draws = s.draws := rfl
@[simp] theorem writeBuf_host (base : Nat) (bs : List Byte) (s : State) : (writeBuf base bs s).host = s.host := rfl
@[simp] theorem writeBuf_hostData (base : Nat) (bs : List Byte) (s : State) : (writeBuf base bs s).hostData = s.hostData := rfl
@[simp] theorem writeBuf_trace (base : Nat) (bs : List Byte) (s : State) : (writeBuf base bs s).trace = s.trace := rfl
/-! ### drawBuf -/
@[simp] theorem drawBuf_par (base n : Nat) (s : State) : (drawBuf base n s).par = s.par := rfl
@[simp] theorem drawBuf_currentTrack (base n : Nat) (s : State) : (drawBuf base n s).currentTrack = s.currentTrack := rfl
@[simp] theorem drawBuf_initialized (base n : Nat) (s : State) : (drawBuf base n s).initialized = s.initialized := rfl
@[simp] theorem drawBuf_motorOn (base n : Nat) (s : State) : (drawBuf base n s).motorOn = s.motorOn := rfl
@[simp] theorem drawBuf_lastOpTime (base n : Nat) (s : State) : (drawBuf base n s).lastOpTime = s.lastOpTime := rfl
@[simp] theorem drawBuf_lines (base n : Nat) (s : State) : (drawBuf base n s).lines = s.lines := rfl
@[simp] theorem drawBuf_result (base n : Nat) (s : State) : (drawBuf base n s).result = s.result := rfl
@[simp] theorem drawBuf_busy (base n : Nat) (s : State) : (drawBuf base n s).busy = s.busy := rfl
@[simp] theorem drawBuf_rdata (base n : Nat) (s : State) : (drawBuf base n s).rdata = s.rdata := rfl
@[simp] theorem drawBuf_dec (base n : Nat) (s : State) : (drawBuf base n s).dec = s.dec := rfl
@[simp] theorem drawBuf_attempt (base n : Nat) (s : State) : (drawBuf base n s).attempt = s.attempt := rfl
@[simp] theorem drawBuf_stepCnt (base n : Nat) (s : State) : (drawBuf base n s).stepCnt = s.stepCnt := rfl
@[simp] theorem drawBuf_blockIdx (base n : Nat) (s : State) : (drawBuf base n s).blockIdx = s.blockIdx := rfl
@[simp] theorem drawBuf_mem (base n : Nat) (s : State) : (drawBuf base n s).mem = s.mem.setAll base (freeBytes s.draws n) := rfl
@[simp] theorem drawBuf_job (base n : Nat) (s : State) : (drawBuf base n s).job = s.job := rfl
@[simp] theorem drawBuf_stepwise (base n : Nat) (s : State) : (drawBuf base n s).stepwise = s.stepwise := rfl
@[simp] theorem drawBuf_pulses (base n : Nat) (s : State) : (drawBuf base n s).pulses = s.pulses := rfl
@[simp] theorem drawBuf_trk0s (base n : Nat) (s : State) : (drawBuf base n s).trk0s = s.trk0s := rfl
@[simp] theorem drawBuf_nows (base n : Nat) (s : State) : (drawBuf base n s).nows = s.nows := rfl
@[simp] theorem drawBuf_draws (base n : Nat) (s : State) : (drawBuf base n s).draws = s.draws + n := rfl
@[simp] theorem drawBuf_host (base n : Nat) (s : State) : (drawBuf base n s).host = s.host := rfl
@[simp] theorem drawBuf_hostData (base n : Nat) (s : State) : (drawBuf base n s).hostData = s.hostData := rfl
@[simp] theorem drawBuf_trace (base n : Nat) (s : State) : (drawBuf base n s).trace = s.trace := rfl
/-! ### countStep -/
@[simp] theorem countStep_par (s : State) : (countStep s).par = s.par := rfl
@[simp] theorem countStep_currentTrack (s : State) : (countStep s).currentTrack = s.currentTrack := rfl
@[simp] theorem countStep_initialized (s : State) : (countStep s).initialized = s.initialized := rfl
@[simp] theorem countStep_motorOn (s : State) : (countStep s).motorOn = s.motorOn := rfl
@[simp] theorem countStep_lastOpTime (s : State) : (countStep s).lastOpTime = s.lastOpTime := rfl
@[simp] theorem countStep_lines (s : State) : (countStep s).lines = s.lines := rfl
@[simp] theorem countStep_result (s : State) : (countStep s).result = s.result := rfl
@[simp] theorem countStep_busy (s : State) : (countStep s).busy = s.busy := rfl
@[simp] theorem countStep_rdata (s : State) : (countStep s).rdata = s.rdata := rfl
@[simp] theorem countStep_dec (s : State) : (countStep s).dec = s.dec := rfl
@[simp] theorem countStep_attempt (s : State) : (countStep s).attempt = s.attempt := rfl
@[simp] theorem countStep_stepCnt (s : State) : (countStep s).stepCnt = s.stepCnt + 1 := rfl
@[simp] theorem countStep_blockIdx (s : State) : (countStep s).blockIdx = s.blockIdx := rfl
@[simp] theorem countStep_mem (s : State) : (countStep s).mem = s.mem := rfl
@[simp] theorem countStep_job (s : State) : (countStep s).job = s.job := rfl
@[simp] theorem countStep_stepwise (s : State) : (countStep s).stepwise = s.stepwise := rfl
@[simp] theorem countStep_pulses (s : State) : (countStep s).pulses = s.pulses := rfl
@[simp] theorem countStep_trk0s (s : State) : (countStep s).trk0s = s.trk0s := rfl
@[simp] theorem countStep_nows (s : State) : (countStep s).nows = s.nows := rfl
@[simp] theorem countStep_draws (s : State) : (countStep s).draws = s.draws := rfl
@[simp] theorem countStep_host (s : State) : (countStep s).host = s.host := rfl
@[simp] theorem countStep_hostData (s : State) : (countStep s).hostData = s.hostData := rfl
@[simp] theorem countStep_trace (s : State) : (countStep s).trace = s.trace := rfl
/-! ### beginDecode -/
@[simp] theorem beginDecode_par (d : Decoding) (s : State) : (beginDecode d s).par = s.par := rfl
@[simp] theorem beginDecode_currentTrack (d : Decoding) (s : State) : (beginDecode d s).currentTrack = s.currentTrack := rfl
@[simp] theorem beginDecode_initialized (d : Decoding) (s : State) : (beginDecode d s).initialized = s.initialized := rfl
@[simp] theorem beginDecode_motorOn (d : Decoding) (s : State) : (beginDecode d s).motorOn = s.motorOn := rfl
@[simp] theorem beginDecode_lastOpTime (d : Decoding) (s : State) : (beginDecode d s).lastOpTime = s.lastOpTime := rfl
@[simp] theorem beginDecode_lines (d : Decoding) (s : State) : (beginDecode d s).lines = s.lines := rfl
@[simp] theorem beginDecode_result (d : Decoding) (s : State) : (beginDecode d s).result = s.result := rfl
@[simp] theorem beginDecode_busy (d : Decoding) (s : State) : (beginDecode d s).busy = s.busy := rfl
@[simp] theorem beginDecode_rdata (d : Decoding) (s : State) : (beginDecode d s).rdata = s.rdata := rfl
@[simp] theorem beginDecode_dec (d : Decoding) (s : State) : (beginDecode d s).dec = decoderStart s.dec := rfl
@[simp] theorem beginDecode_attempt (d : Decoding) (s : State) : (beginDecode d s).attempt = s.attempt := rfl
@[simp] theorem beginDecode_stepCnt (d : Decoding) (s : State) : (beginDecode d s).stepCnt = s.stepCnt := rfl
@[simp] theorem beginDecode_blockIdx (d : Decoding) (s : State) : (beginDecode d s).blockIdx = s.blockIdx := rfl
@[simp] theorem beginDecode_mem (d : Decoding) (s : State) : (beginDecode d s).mem = s.mem := rfl
@[simp] theorem beginDecode_job (d : Decoding) (s : State) : (beginDecode d s).job = some (.decoding d) := rfl
@[simp] theorem beginDecode_stepwise (d : Decoding) (s : State) : (beginDecode d s).stepwise = s.stepwise := rfl
@[simp] theorem beginDecode_pulses (d : Decoding) (s : State) : (beginDecode d s).pulses = s.pulses := rfl
@[simp] theorem beginDecode_trk0s (d : Decoding) (s : State) : (beginDecode d s).trk0s = s.trk0s := rfl
@[simp] theorem beginDecode_nows (d : Decoding) (s : State) : (beginDecode d s).nows = s.nows := rfl
@[simp] theorem beginDecode_draws (d : Decoding) (s : State) : (beginDecode d s).draws = s.draws := rfl
@[simp] theorem beginDecode_host (d : Decoding) (s : State) : (beginDecode d s).host = s.host := rfl
@[simp] theorem beginDecode_hostData (d : Decoding) (s : State) : (beginDecode d s).hostData = s.hostData := rfl
@[simp] theorem beginDecode_trace (d : Decoding) (s : State) : (beginDecode d s).trace = s.trace := rfl
/-! ### endDecode -/
@[simp] theorem endDecode_par (s : State) : (endDecode s).par = s.par := rfl
@[simp] theorem endDecode_currentTrack (s : State) : (endDecode s).currentTrack = s.currentTrack := rfl
@[simp] theorem endDecode_initialized (s : State) : (endDecode s).initialized = s.initialized := rfl
@[simp] theorem endDecode_motorOn (s : State) : (endDecode s).motorOn = s.motorOn := rfl
@[simp] theorem endDecode_lastOpTime (s : State) : (endDecode s).lastOpTime = s.lastOpTime := rfl
@[simp] theorem endDecode_lines (s : State) : (endDecode s).lines = s.lines := rfl
@[simp] theorem endDecode_result (s : State) : (endDecode s).result = s.result := rfl
@[simp] theorem endDecode_busy (s : State) : (endDecode s).busy = s.busy := rfl
@[simp] theorem endDecode_rdata (s : State) : (endDecode s).rdata = s.rdata := rfl
@[simp] theorem endDecode_dec (s : State) : (endDecode s).dec = { s.dec with phase := .done } := rfl
@[simp] theorem endDecode_attempt (s : State) : (endDecode s).attempt = s.attempt := rfl
@[simp] theorem endDecode_stepCnt (s : State) : (endDecode s).stepCnt = s.stepCnt := rfl
@[simp] theorem endDecode_blockIdx (s : State) : (endDecode s).blockIdx = s.blockIdx := rfl
@[simp] theorem endDecode_mem (s : State) : (endDecode s).mem = s.mem := rfl
@[simp] theorem endDecode_job (s : State) : (endDecode s).job = s.job := rfl
@[simp] theorem endDecode_stepwise (s : State) : (endDecode s).stepwise = s.stepwise := rfl
@[simp] theorem endDecode_pulses (s : State) : (endDecode s).pulses = s.pulses := rfl
@[simp] theorem endDecode_trk0s (s : State) : (endDecode s).trk0s = s.trk0s := rfl
@[simp] theorem endDecode_nows (s : State) : (endDecode s).nows = s.nows := rfl
@[simp] theorem endDecode_draws (s : State) : (endDecode s).draws = s.draws := rfl
@[simp] theorem endDecode_host (s : State) : (endDecode s).host = s.host := rfl
@[simp] theorem endDecode_hostData (s : State) : (endDecode s).hostData = s.hostData := rfl
@[simp] theorem endDecode_trace (s : State) : (endDecode s).trace = s.trace := rfl
/-! ### feedPulse -/
@[simp] theorem feedPulse_par (d : Decoding) (t : Nat) (s : State) : (feedPulse d t s).par = s.par := rfl
@[simp] theorem feedPulse_currentTrack (d : Decoding) (t : Nat) (s : State) : (feedPulse d t s).currentTrack = s.currentTrack := rfl
@[simp] theorem feedPulse_initialized (d : Decoding) (t : Nat) (s : State) : (feedPulse d t s).initialized = s.initialized := rfl
@[simp] theorem feedPulse_motorOn (d : Decoding) (t : Nat) (s : State) : (feedPulse d t s).motorOn = s.motorOn := rfl
@[simp] theorem feedPulse_lastOpTime (d : Decoding) (t : Nat) (s : State) : (feedPulse d t s).lastOpTime = s.lastOpTime := rfl
@[simp] theorem feedPulse_lines (d : Decoding) (t : Nat) (s : State) : (feedPulse d t s).lines = s.lines := rfl
@[simp] theorem feedPulse_result (d : Decoding) (t : Nat) (s : State) : (feedPulse d t s).result = s.result := rfl
@[simp] theorem feedPulse_busy (d : Decoding) (t : Nat) (s : State) : (feedPulse d t s).busy = s.busy := rfl
@[simp] theorem feedPulse_rdata (d : Decoding) (t : Nat) (s : State) : (feedPulse d t s).rdata = s.rdata := rfl
@[simp] theorem feedPulse_dec (d : Decoding) (t : Nat) (s : State) : (feedPulse d t s).dec = (feed s.par d.need s.dec (classify s.par t)).1 := rfl
@[simp] theorem feedPulse_attempt (d : Decoding) (t : Nat) (s : State) : (feedPulse d t s).attempt = s.attempt := rfl
@[simp] theorem feedPulse_stepCnt (d : Decoding) (t : Nat) (s : State) : (feedPulse d t s).stepCnt = s.stepCnt := rfl
@[simp] theorem feedPulse_blockIdx (d : Decoding) (t : Nat) (s : State) : (feedPulse d t s).blockIdx = s.blockIdx := rfl
@[simp] theorem feedPulse_mem (d : Decoding) (t : Nat) (s : State) : (feedPulse d t s).mem = s.mem.setAll (d.base + s.dec.byteCnt) (feed s.par d.need s.dec (classify s.par t)).2 := rfl
@[simp] theorem feedPulse_job (d : Decoding) (t : Nat) (s : State) : (feedPulse d t s).job = s.job := rfl
@[simp] theorem feedPulse_stepwise (d : Decoding) (t : Nat) (s : State) : (feedPulse d t s).stepwise = s.stepwise := rfl
@[simp] theorem feedPulse_pulses (d : Decoding) (t : Nat) (s : State) : (feedPulse d t s).pulses = s.pulses := rfl
@[simp] theorem feedPulse_trk0s (d : Decoding) (t : Nat) (s : State) : (feedPulse d t s).trk0s = s.trk0s := rfl
@[simp] theorem feedPulse_nows (d : Decoding) (t : Nat) (s : State) : (feedPulse d t s).nows = s.nows := rfl
@[simp] theorem feedPulse_draws (d : Decoding) (t : Nat) (s : State) : (feedPulse d t s).draws = s.draws := rfl
@[simp] theorem feedPulse_host (d : Decoding) (t : Nat) (s : State) : (feedPulse d t s).host = s.host := rfl
@[simp] theorem feedPulse_hostData (d : Decoding) (t : Nat) (s : State) : (feedPulse d t s).hostData = s.hostData := rfl
@[simp] theorem feedPulse_trace (d : Decoding) (t : Nat) (s : State) : (feedPulse d t s).trace = s.trace := rfl
/-! ### seekAim -/
@[simp] theorem seekAim_par (t : Byte) (s : State) : (seekAim t s).par = s.par := rfl
@[simp] theorem seekAim_currentTrack (t : Byte) (s : State) : (seekAim t s).currentTrack = s.currentTrack := rfl
@[simp] theorem seekAim_initialized (t : Byte) (s : State) : (seekAim t s).initialized = s.initialized := rfl
@[simp] theorem seekAim_motorOn (t : Byte) (s : State) : (seekAim t s).motorOn = s.motorOn := rfl
@[simp] theorem seekAim_lastOpTime (t : Byte) (s : State) : (seekAim t s).lastOpTime = s.lastOpTime := rfl
@[simp] theorem seekAim_lines (t : Byte) (s : State) : (seekAim t s).lines = { s.lines with dir := seekDir t s } := rfl
@[simp] theorem seekAim_result (t : Byte) (s : State) : (seekAim t s).result = s.result := rfl
@[simp] theorem seekAim_busy (t : Byte) (s : State) : (seekAim t s).busy = s.busy := rfl
@[simp] theorem seekAim_rdata (t : Byte) (s : State) : (seekAim t s).rdata = s.rdata := rfl
@[simp] theorem seekAim_dec (t : Byte) (s : State) : (seekAim t s).dec = s.dec := rfl
@[simp] theorem seekAim_attempt (t : Byte) (s : State) : (seekAim t s).attempt = s.attempt := rfl
@[simp] theorem seekAim_stepCnt (t : Byte) (s : State) : (seekAim t s).stepCnt = s.stepCnt := rfl
@[simp] theorem seekAim_blockIdx (t : Byte) (s : State) : (seekAim t s).blockIdx = s.blockIdx := rfl
@[simp] theorem seekAim_mem (t : Byte) (s : State) : (seekAim t s).mem = s.mem := rfl
@[simp] theorem seekAim_job (t : Byte) (s : State) : (seekAim t s).job = s.job := rfl
@[simp] theorem seekAim_stepwise (t : Byte) (s : State) : (seekAim t s).stepwise = s.stepwise := rfl
@[simp] theorem seekAim_pulses (t : Byte) (s : State) : (seekAim t s).pulses = s.pulses := rfl
@[simp] theorem seekAim_trk0s (t : Byte) (s : State) : (seekAim t s).trk0s = s.trk0s := rfl
@[simp] theorem seekAim_nows (t : Byte) (s : State) : (seekAim t s).nows = s.nows := rfl
@[simp] theorem seekAim_draws (t : Byte) (s : State) : (seekAim t s).draws = s.draws := rfl
@[simp] theorem seekAim_host (t : Byte) (s : State) : (seekAim t s).host = s.host := rfl
@[simp] theorem seekAim_hostData (t : Byte) (s : State) : (seekAim t s).hostData = s.hostData := rfl
@[simp] theorem seekAim_trace (t : Byte) (s : State) : (seekAim t s).trace = .line .dir (seekDir t s) :: s.trace := rfl
/-! ### seekArrive -/
@[simp] theorem seekArrive_par (t : Byte) (s : State) : (seekArrive t s).par = s.par := rfl
@[simp] theorem seekArrive_currentTrack (t : Byte) (s : State) : (seekArrive t s).currentTrack = t := rfl
@[simp] theorem seekArrive_initialized (t : Byte) (s : State) : (seekArrive t s).initialized = s.initialized := rfl
@[simp] theorem seekArrive_motorOn (t : Byte) (s : State) : (seekArrive t s).motorOn = s.motorOn := rfl
@[simp] theorem seekArrive_lastOpTime (t : Byte) (s : State) : (seekArrive t s).lastOpTime = s.lastOpTime := rfl
@[simp] theorem seekArrive_lines (t : Byte) (s : State) : (seekArrive t s).lines = s.lines := rfl
@[simp] theorem seekArrive_result (t : Byte) (s : State) : (seekArrive t s).result = s.result := rfl
@[simp] theorem seekArrive_busy (t : Byte) (s : State) : (seekArrive t s).busy = s.busy := rfl
@[simp] theorem seekArrive_rdata (t : Byte) (s : State) : (seekArrive t s).rdata = s.rdata := rfl
@[simp] theorem seekArrive_dec (t : Byte) (s : State) : (seekArrive t s).dec = s.dec := rfl
@[simp] theorem seekArrive_attempt (t : Byte) (s : State) : (seekArrive t s).attempt = s.attempt := rfl
@[simp] theorem seekArrive_stepCnt (t : Byte) (s : State) : (seekArrive t s).stepCnt = s.stepCnt := rfl
@[simp] theorem seekArrive_blockIdx (t : Byte) (s : State) : (seekArrive t s).blockIdx = s.blockIdx := rfl
@[simp] theorem seekArrive_mem (t : Byte) (s : State) : (seekArrive t s).mem = s.mem := rfl
@[simp] theorem seekArrive_job (t : Byte) (s : State) : (seekArrive t s).job = s.job := rfl
@[simp] theorem seekArrive_stepwise (t : Byte) (s : State) : (seekArrive t s).stepwise = s.stepwise := rfl
@[simp] theorem seekArrive_pulses (t : Byte) (s : State) : (seekArrive t s).pulses = s.pulses := rfl
@[simp] theorem seekArrive_trk0s (t : Byte) (s : State) : (seekArrive t s).trk0s = s.trk0s := rfl
@[simp] theorem seekArrive_nows (t : Byte) (s : State) : (seekArrive t s).nows = s.nows := rfl
@[simp] theorem seekArrive_draws (t : Byte) (s : State) : (seekArrive t s).draws = s.draws := rfl
@[simp] theorem seekArrive_host (t : Byte) (s : State) : (seekArrive t s).host = s.host := rfl
@[simp] theorem seekArrive_hostData (t : Byte) (s : State) : (seekArrive t s).hostData = s.hostData := rfl
@[simp] theorem seekArrive_trace (t : Byte) (s : State) : (seekArrive t s).trace = s.trace := rfl
/-! ### calibrateStart -/
@[simp] theorem calibrateStart_par (s : State) : (calibrateStart s).par = s.par := rfl
@[simp] theorem calibrateStart_currentTrack (s : State) : (calibrateStart s).currentTrack = s.currentTrack := rfl
@[simp] theorem calibrateStart_initialized (s : State) : (calibrateStart s).initialized = false := rfl
@[simp] theorem calibrateStart_motorOn (s : State) : (calibrateStart s).motorOn = s.motorOn := rfl
@[simp] theorem calibrateStart_lastOpTime (s : State) : (calibrateStart s).lastOpTime = s.lastOpTime := rfl
@[simp] theorem calibrateStart_lines (s : State) : (calibrateStart s).lines = { s.lines with driveSel := true, dir := false } := rfl
@[simp] theorem calibrateStart_result (s : State) : (calibrateStart s).result = s.result := rfl
@[simp] theorem calibrateStart_busy (s : State) : (calibrateStart s).busy = s.busy := rfl
@[simp] theorem calibrateStart_rdata (s : State) : (calibrateStart s).rdata = s.rdata := rfl
@[simp] theorem calibrateStart_dec (s : State) : (calibrateStart s).dec = s.dec := rfl
@[simp] theorem calibrateStart_attempt (s : State) : (calibrateStart s).attempt = s.attempt := rfl
@[simp] theorem calibrateStart_stepCnt (s : State) : (calibrateStart s).stepCnt = 0 := rfl
@[simp] theorem calibrateStart_blockIdx (s : State) : (calibrateStart s).blockIdx = s.blockIdx := rfl
@[simp] theorem calibrateStart_mem (s : State) : (calibrateStart s).mem = s.mem := rfl
@[simp] theorem calibrateStart_job (s : State) : (calibrateStart s).job = s.job := rfl
@[simp] theorem calibrateStart_stepwise (s : State) : (calibrateStart s).stepwise = s.stepwise := rfl
@[simp] theorem calibrateStart_pulses (s : State) : (calibrateStart s).pulses = s.pulses := rfl
@[simp] theorem calibrateStart_trk0s (s : State) : (calibrateStart s).trk0s = s.trk0s := rfl
@[simp] theorem calibrateStart_nows (s : State) : (calibrateStart s).nows = s.nows := rfl
@[simp] theorem calibrateStart_draws (s : State) : (calibrateStart s).draws = s.draws := rfl
@[simp] theorem calibrateStart_host (s : State) : (calibrateStart s).host = s.host := rfl
@[simp] theorem calibrateStart_hostData (s : State) : (calibrateStart s).hostData = s.hostData := rfl
@[simp] theorem calibrateStart_trace (s : State) : (calibrateStart s).trace = .line .dir false :: .line .driveSel true :: s.trace := rfl
/-! ### stepPulse -/
@[simp] theorem stepPulse_par (s : State) : (stepPulse s).par = s.par := rfl
@[simp] theorem stepPulse_currentTrack (s : State) : (stepPulse s).currentTrack = s.currentTrack := rfl
@[simp] theorem stepPulse_initialized (s : State) : (stepPulse s).initialized = s.initialized := rfl
@[simp] theorem stepPulse_motorOn (s : State) : (stepPulse s).motorOn = s.motorOn := rfl
@[simp] theorem stepPulse_lastOpTime (s : State) : (stepPulse s).lastOpTime = s.lastOpTime := rfl
@[simp] theorem stepPulse_lines (s : State) : (stepPulse s).lines = { s.lines with step := false } := rfl
@[simp] theorem stepPulse_result (s : State) : (stepPulse s).result = s.result := rfl
@[simp] theorem stepPulse_busy (s : State) : (stepPulse s).busy = s.busy := rfl
@[simp] theorem stepPulse_rdata (s : State) : (stepPulse s).rdata = s.rdata := rfl
@[simp] theorem stepPulse_dec (s : State) : (stepPulse s).dec = s.dec := rfl
@[simp] theorem stepPulse_attempt (s : State) : (stepPulse s).attempt = s.attempt := rfl
@[simp] theorem stepPulse_stepCnt (s : State) : (stepPulse s).stepCnt = s.stepCnt := rfl
@[simp] theorem stepPulse_blockIdx (s : State) : (stepPulse s).blockIdx = s.blockIdx := rfl
@[simp] theorem stepPulse_mem (s : State) : (stepPulse s).mem = s.mem := rfl
@[simp] theorem stepPulse_job (s : State) : (stepPulse s).job = s.job := rfl
@[simp] theorem stepPulse_stepwise (s : State) : (stepPulse s).stepwise = s.stepwise := rfl
@[simp] theorem stepPulse_pulses (s : State) : (stepPulse s).pulses = s.pulses := rfl
@[simp] theorem stepPulse_trk0s (s : State) : (stepPulse s).trk0s = s.trk0s := rfl
@[simp] theorem stepPulse_nows (s : State) : (stepPulse s).nows = s.nows := rfl
@[simp] theorem stepPulse_draws (s : State) : (stepPulse s).draws = s.draws := rfl
@[simp] theorem stepPulse_host (s : State) : (stepPulse s).host = s.host := rfl
@[simp] theorem stepPulse_hostData (s : State) : (stepPulse s).hostData = s.hostData := rfl
@[simp] theorem stepPulse_trace (s : State) : (stepPulse s).trace = .delay .stepInterval :: .line .step false :: .delay .stepPulseWidth :: .line .step true :: s.trace := rfl
/-! ### recordTime -/
@[simp] theorem recordTime_par (s : State) : (recordTime s).par = s.par := rfl
@[simp] theorem recordTime_currentTrack (s : State) : (recordTime s).currentTrack = s.currentTrack := rfl
@[simp] theorem recordTime_initialized (s : State) : (recordTime s).initialized = s.initialized := rfl
@[simp] theorem recordTime_motorOn (s : State) : (recordTime s).motorOn = s.motorOn := rfl
@[simp] theorem recordTime_lastOpTime (s : State) : (recordTime s).lastOpTime = nowAnswer s := rfl
@[simp] theorem recordTime_lines (s : State) : (recordTime s).lines = s.lines := rfl
@[simp] theorem recordTime_result (s : State) : (recordTime s).result = s.result := rfl
@[simp] theorem recordTime_busy (s : State) : (recordTime s).busy = s.busy := rfl
@[simp] theorem recordTime_rdata (s : State) : (recordTime s).rdata = s.rdata := rfl
@[simp] theorem recordTime_dec (s : State) : (recordTime s).dec = s.dec := rfl
@[simp] theorem recordTime_attempt (s : State) : (recordTime s).attempt = s.attempt := rfl
@[simp] theorem recordTime_stepCnt (s : State) : (recordTime s).stepCnt = s.stepCnt := rfl
@[simp] theorem recordTime_blockIdx (s : State) : (recordTime s).blockIdx = s.blockIdx := rfl
@[simp] theorem recordTime_mem (s : State) : (recordTime s).mem = s.mem := rfl
@[simp] theorem recordTime_job (s : State) : (recordTime s).job = s.job := rfl
@[simp] theorem recordTime_stepwise (s : State) : (recordTime s).stepwise = s.stepwise := rfl
@[simp] theorem recordTime_pulses (s : State) : (recordTime s).pulses = s.pulses := rfl
@[simp] theorem recordTime_trk0s (s : State) : (recordTime s).trk0s = s.trk0s := rfl
@[simp] theorem recordTime_nows (s : State) : (recordTime s).nows = s.nows.tail := rfl
@[simp] theorem recordTime_draws (s : State) : (recordTime s).draws = if s.nows.isEmpty then s.draws + 1 else s.draws := rfl
@[simp] theorem recordTime_host (s : State) : (recordTime s).host = s.host := rfl
@[simp] theorem recordTime_hostData (s : State) : (recordTime s).hostData = s.hostData := rfl
@[simp] theorem recordTime_trace (s : State) : (recordTime s).trace = .now (nowAnswer s) :: s.trace := rfl
/-! ### copySlot -/
@[simp] theorem copySlot_par (slot : Nat) (s : State) : (copySlot slot s).par = s.par := by simp only [copySlot, writeBuf_par]
@[simp] theorem copySlot_currentTrack (slot : Nat) (s : State) : (copySlot slot s).currentTrack = s.currentTrack := by simp only [copySlot, writeBuf_currentTrack]
@[simp] theorem copySlot_initialized (slot : Nat) (s : State) : (copySlot slot s).initialized = s.initialized := by simp only [copySlot, writeBuf_initialized]
@[simp] theorem copySlot_motorOn (slot : Nat) (s : State) : (copySlot slot s).motorOn = s.motorOn := by simp only [copySlot, writeBuf_motorOn]
@[simp] theorem copySlot_lastOpTime (slot : Nat) (s : State) : (copySlot slot s).lastOpTime = s.lastOpTime := by simp only [copySlot, writeBuf_lastOpTime]
@[simp] theorem copySlot_lines (slot : Nat) (s : State) : (copySlot slot s).lines = s.lines := by simp only [copySlot, writeBuf_lines]
@[simp] theorem copySlot_result (slot : Nat) (s : State) : (copySlot slot s).result = s.result := by simp only [copySlot, writeBuf_result]
@[simp] theorem copySlot_busy (slot : Nat) (s : State) : (copySlot slot s).busy = s.busy := by simp only [copySlot, writeBuf_busy]
@[simp] theorem copySlot_rdata (slot : Nat) (s : State) : (copySlot slot s).rdata = s.rdata := by simp only [copySlot, writeBuf_rdata]
@[simp] theorem copySlot_dec (slot : Nat) (s : State) : (copySlot slot s).dec = s.dec := by simp only [copySlot, writeBuf_dec]
@[simp] theorem copySlot_attempt (slot : Nat) (s : State) : (copySlot slot s).attempt = s.attempt := by simp only [copySlot, writeBuf_attempt]
@[simp] theorem copySlot_stepCnt (slot : Nat) (s : State) : (copySlot slot s).stepCnt = s.stepCnt := by simp only [copySlot, writeBuf_stepCnt]
@[simp] theorem copySlot_blockIdx (slot : Nat) (s : State) : (copySlot slot s).blockIdx = s.blockIdx := by simp only [copySlot, writeBuf_blockIdx]
@[simp] theorem copySlot_mem (slot : Nat) (s : State) : (copySlot slot s).mem = s.mem.setAll (slotBase slot) (bufBytes s (bodyBase + 1) sectorSize) := by simp only [copySlot, writeBuf_mem]
@[simp] theorem copySlot_job (slot : Nat) (s : State) : (copySlot slot s).job = s.job := by simp only [copySlot, writeBuf_job]
@[simp] theorem copySlot_stepwise (slot : Nat) (s : State) : (copySlot slot s).stepwise = s.stepwise := by simp only [copySlot, writeBuf_stepwise]
@[simp] theorem copySlot_pulses (slot : Nat) (s : State) : (copySlot slot s).pulses = s.pulses := by simp only [copySlot, writeBuf_pulses]
@[simp] theorem copySlot_trk0s (slot : Nat) (s : State) : (copySlot slot s).trk0s = s.trk0s := by simp only [copySlot, writeBuf_trk0s]
@[simp] theorem copySlot_nows (slot : Nat) (s : State) : (copySlot slot s).nows = s.nows := by simp only [copySlot, writeBuf_nows]
@[simp] theorem copySlot_draws (slot : Nat) (s : State) : (copySlot slot s).draws = s.draws := by simp only [copySlot, writeBuf_draws]
@[simp] theorem copySlot_host (slot : Nat) (s : State) : (copySlot slot s).host = s.host := by simp only [copySlot, writeBuf_host]
@[simp] theorem copySlot_hostData (slot : Nat) (s : State) : (copySlot slot s).hostData = s.hostData := by simp only [copySlot, writeBuf_hostData]
@[simp] theorem copySlot_trace (slot : Nat) (s : State) : (copySlot slot s).trace = s.trace := by simp only [copySlot, writeBuf_trace]
/-! ### sectorFail -/
@[simp] theorem sectorFail_par (r : SectorRead) (c : ResultCode) (s : State) : (sectorFail r c s).par = s.par := by simp only [sectorFail, endWith_par, drawBuf_par]
@[simp] theorem sectorFail_currentTrack (r : SectorRead) (c : ResultCode) (s : State) : (sectorFail r c s).currentTrack = s.currentTrack := by simp only [sectorFail, endWith_currentTrack, drawBuf_currentTrack]
@[simp] theorem sectorFail_initialized (r : SectorRead) (c : ResultCode) (s : State) : (sectorFail r c s).initialized = s.initialized := by simp only [sectorFail, endWith_initialized, drawBuf_initialized]
@[simp] theorem sectorFail_motorOn (r : SectorRead) (c : ResultCode) (s : State) : (sectorFail r c s).motorOn = s.motorOn := by simp only [sectorFail, endWith_motorOn, drawBuf_motorOn]
@[simp] theorem sectorFail_lastOpTime (r : SectorRead) (c : ResultCode) (s : State) : (sectorFail r c s).lastOpTime = s.lastOpTime := by simp only [sectorFail, endWith_lastOpTime, drawBuf_lastOpTime]
@[simp] theorem sectorFail_lines (r : SectorRead) (c : ResultCode) (s : State) : (sectorFail r c s).lines = s.lines := by simp only [sectorFail, endWith_lines, drawBuf_lines]
@[simp] theorem sectorFail_result (r : SectorRead) (c : ResultCode) (s : State) : (sectorFail r c s).result = s.result := by simp only [sectorFail, endWith_result, drawBuf_result]
@[simp] theorem sectorFail_busy (r : SectorRead) (c : ResultCode) (s : State) : (sectorFail r c s).busy = s.busy := by simp only [sectorFail, endWith_busy, drawBuf_busy]
@[simp] theorem sectorFail_rdata (r : SectorRead) (c : ResultCode) (s : State) : (sectorFail r c s).rdata = s.rdata := by simp only [sectorFail, endWith_rdata, drawBuf_rdata]
@[simp] theorem sectorFail_dec (r : SectorRead) (c : ResultCode) (s : State) : (sectorFail r c s).dec = s.dec := by simp only [sectorFail, endWith_dec, drawBuf_dec]
@[simp] theorem sectorFail_attempt (r : SectorRead) (c : ResultCode) (s : State) : (sectorFail r c s).attempt = s.attempt := by simp only [sectorFail, endWith_attempt, drawBuf_attempt]
@[simp] theorem sectorFail_stepCnt (r : SectorRead) (c : ResultCode) (s : State) : (sectorFail r c s).stepCnt = s.stepCnt := by simp only [sectorFail, endWith_stepCnt, drawBuf_stepCnt]
@[simp] theorem sectorFail_blockIdx (r : SectorRead) (c : ResultCode) (s : State) : (sectorFail r c s).blockIdx = s.blockIdx := by simp only [sectorFail, endWith_blockIdx, drawBuf_blockIdx]
@[simp] theorem sectorFail_mem (r : SectorRead) (c : ResultCode) (s : State) : (sectorFail r c s).mem = s.mem.setAll (slotBase r.slot) (freeBytes s.draws sectorSize) := by simp only [sectorFail, endWith_mem, drawBuf_mem]
@[simp] theorem sectorFail_job (r : SectorRead) (c : ResultCode) (s : State) : (sectorFail r c s).job = some (.ending r.command c) := by simp only [sectorFail, endWith_job]
@[simp] theorem sectorFail_stepwise (r : SectorRead) (c : ResultCode) (s : State) : (sectorFail r c s).stepwise = s.stepwise := by simp only [sectorFail, endWith_stepwise, drawBuf_stepwise]
@[simp] theorem sectorFail_pulses (r : SectorRead) (c : ResultCode) (s : State) : (sectorFail r c s).pulses = s.pulses := by simp only [sectorFail, endWith_pulses, drawBuf_pulses]
@[simp] theorem sectorFail_trk0s (r : SectorRead) (c : ResultCode) (s : State) : (sectorFail r c s).trk0s = s.trk0s := by simp only [sectorFail, endWith_trk0s, drawBuf_trk0s]
@[simp] theorem sectorFail_nows (r : SectorRead) (c : ResultCode) (s : State) : (sectorFail r c s).nows = s.nows := by simp only [sectorFail, endWith_nows, drawBuf_nows]
@[simp] theorem sectorFail_draws (r : SectorRead) (c : ResultCode) (s : State) : (sectorFail r c s).draws = s.draws + sectorSize := by simp only [sectorFail, endWith_draws, drawBuf_draws]
@[simp] theorem sectorFail_host (r : SectorRead) (c : ResultCode) (s : State) : (sectorFail r c s).host = s.host := by simp only [sectorFail, endWith_host, drawBuf_host]
@[simp] theorem sectorFail_hostData (r : SectorRead) (c : ResultCode) (s : State) : (sectorFail r c s).hostData = s.hostData := by simp only [sectorFail, endWith_hostData, drawBuf_hostData]
@[simp] theorem sectorFail_trace (r : SectorRead) (c : ResultCode) (s : State) : (sectorFail r c s).trace = s.trace := by simp only [sectorFail, endWith_trace, drawBuf_trace]
/-! ### readFree -/
@[simp] theorem readFree_par (s : State) : (readFree s).par = s.par := rfl
@[simp] theorem readFree_currentTrack (s : State) : (readFree s).currentTrack = s.currentTrack := rfl
@[simp] theorem readFree_initialized (s : State) : (readFree s).initialized = s.initialized := rfl
@[simp] theorem readFree_motorOn (s : State) : (readFree s).motorOn = s.motorOn := rfl
@[simp] theorem readFree_lastOpTime (s : State) : (readFree s).lastOpTime = s.lastOpTime := rfl
@[simp] theorem readFree_lines (s : State) : (readFree s).lines = s.lines := rfl
@[simp] theorem readFree_result (s : State) : (readFree s).result = s.result := rfl
@[simp] theorem readFree_busy (s : State) : (readFree s).busy = s.busy := rfl
@[simp] theorem readFree_rdata (s : State) : (readFree s).rdata = s.rdata := rfl
@[simp] theorem readFree_dec (s : State) : (readFree s).dec = s.dec := rfl
@[simp] theorem readFree_attempt (s : State) : (readFree s).attempt = s.attempt := rfl
@[simp] theorem readFree_stepCnt (s : State) : (readFree s).stepCnt = s.stepCnt := rfl
@[simp] theorem readFree_blockIdx (s : State) : (readFree s).blockIdx = s.blockIdx := rfl
@[simp] theorem readFree_mem (s : State) : (readFree s).mem = s.mem := rfl
@[simp] theorem readFree_job (s : State) : (readFree s).job = s.job := rfl
@[simp] theorem readFree_stepwise (s : State) : (readFree s).stepwise = s.stepwise := rfl
@[simp] theorem readFree_pulses (s : State) : (readFree s).pulses = s.pulses := rfl
@[simp] theorem readFree_trk0s (s : State) : (readFree s).trk0s = s.trk0s := rfl
@[simp] theorem readFree_nows (s : State) : (readFree s).nows = s.nows := rfl
@[simp] theorem readFree_draws (s : State) : (readFree s).draws = s.draws + 1 := rfl
@[simp] theorem readFree_host (s : State) : (readFree s).host = s.host := rfl
@[simp] theorem readFree_hostData (s : State) : (readFree s).hostData = Config.freeWord s.draws := rfl
@[simp] theorem readFree_trace (s : State) : (readFree s).trace = s.trace := rfl
/-! ### takePulse -/
@[simp] theorem takePulse_par (s : State) : (takePulse s).par = s.par := rfl
@[simp] theorem takePulse_currentTrack (s : State) : (takePulse s).currentTrack = s.currentTrack := rfl
@[simp] theorem takePulse_initialized (s : State) : (takePulse s).initialized = s.initialized := rfl
@[simp] theorem takePulse_motorOn (s : State) : (takePulse s).motorOn = s.motorOn := rfl
@[simp] theorem takePulse_lastOpTime (s : State) : (takePulse s).lastOpTime = s.lastOpTime := rfl
@[simp] theorem takePulse_lines (s : State) : (takePulse s).lines = s.lines := rfl
@[simp] theorem takePulse_result (s : State) : (takePulse s).result = s.result := rfl
@[simp] theorem takePulse_busy (s : State) : (takePulse s).busy = s.busy := rfl
@[simp] theorem takePulse_rdata (s : State) : (takePulse s).rdata = s.rdata := rfl
@[simp] theorem takePulse_dec (s : State) : (takePulse s).dec = s.dec := rfl
@[simp] theorem takePulse_attempt (s : State) : (takePulse s).attempt = s.attempt := rfl
@[simp] theorem takePulse_stepCnt (s : State) : (takePulse s).stepCnt = s.stepCnt := rfl
@[simp] theorem takePulse_blockIdx (s : State) : (takePulse s).blockIdx = s.blockIdx := rfl
@[simp] theorem takePulse_mem (s : State) : (takePulse s).mem = s.mem := rfl
@[simp] theorem takePulse_job (s : State) : (takePulse s).job = s.job := rfl
@[simp] theorem takePulse_stepwise (s : State) : (takePulse s).stepwise = s.stepwise := rfl
@[simp] theorem takePulse_pulses (s : State) : (takePulse s).pulses = s.pulses.tail := rfl
@[simp] theorem takePulse_trk0s (s : State) : (takePulse s).trk0s = s.trk0s := rfl
@[simp] theorem takePulse_nows (s : State) : (takePulse s).nows = s.nows := rfl
@[simp] theorem takePulse_draws (s : State) : (takePulse s).draws = if s.pulses.isEmpty then s.draws + 1 else s.draws := rfl
@[simp] theorem takePulse_host (s : State) : (takePulse s).host = s.host := rfl
@[simp] theorem takePulse_hostData (s : State) : (takePulse s).hostData = s.hostData := rfl
@[simp] theorem takePulse_trace (s : State) : (takePulse s).trace = .nextPulse (pulseAnswer s) :: s.trace := rfl
/-! ### takeTrk0 -/
@[simp] theorem takeTrk0_par (s : State) : (takeTrk0 s).par = s.par := rfl
@[simp] theorem takeTrk0_currentTrack (s : State) : (takeTrk0 s).currentTrack = s.currentTrack := rfl
@[simp] theorem takeTrk0_initialized (s : State) : (takeTrk0 s).initialized = s.initialized := rfl
@[simp] theorem takeTrk0_motorOn (s : State) : (takeTrk0 s).motorOn = s.motorOn := rfl
@[simp] theorem takeTrk0_lastOpTime (s : State) : (takeTrk0 s).lastOpTime = s.lastOpTime := rfl
@[simp] theorem takeTrk0_lines (s : State) : (takeTrk0 s).lines = s.lines := rfl
@[simp] theorem takeTrk0_result (s : State) : (takeTrk0 s).result = s.result := rfl
@[simp] theorem takeTrk0_busy (s : State) : (takeTrk0 s).busy = s.busy := rfl
@[simp] theorem takeTrk0_rdata (s : State) : (takeTrk0 s).rdata = s.rdata := rfl
@[simp] theorem takeTrk0_dec (s : State) : (takeTrk0 s).dec = s.dec := rfl
@[simp] theorem takeTrk0_attempt (s : State) : (takeTrk0 s).attempt = s.attempt := rfl
@[simp] theorem takeTrk0_stepCnt (s : State) : (takeTrk0 s).stepCnt = s.stepCnt := rfl
@[simp] theorem takeTrk0_blockIdx (s : State) : (takeTrk0 s).blockIdx = s.blockIdx := rfl
@[simp] theorem takeTrk0_mem (s : State) : (takeTrk0 s).mem = s.mem := rfl
@[simp] theorem takeTrk0_job (s : State) : (takeTrk0 s).job = s.job := rfl
@[simp] theorem takeTrk0_stepwise (s : State) : (takeTrk0 s).stepwise = s.stepwise := rfl
@[simp] theorem takeTrk0_pulses (s : State) : (takeTrk0 s).pulses = s.pulses := rfl
@[simp] theorem takeTrk0_trk0s (s : State) : (takeTrk0 s).trk0s = s.trk0s.tail := rfl
@[simp] theorem takeTrk0_nows (s : State) : (takeTrk0 s).nows = s.nows := rfl
@[simp] theorem takeTrk0_draws (s : State) : (takeTrk0 s).draws = if s.trk0s.isEmpty then s.draws + 1 else s.draws := rfl
@[simp] theorem takeTrk0_host (s : State) : (takeTrk0 s).host = s.host := rfl
@[simp] theorem takeTrk0_hostData (s : State) : (takeTrk0 s).hostData = s.hostData := rfl
@[simp] theorem takeTrk0_trace (s : State) : (takeTrk0 s).trace = .trk0 (trk0Answer s) :: s.trace := rfl
/-! ### takeNow -/
@[simp] theorem takeNow_par (s : State) : (takeNow s).par = s.par := rfl
@[simp] theorem takeNow_currentTrack (s : State) : (takeNow s).currentTrack = s.currentTrack := rfl
@[simp] theorem takeNow_initialized (s : State) : (takeNow s).initialized = s.initialized := rfl
@[simp] theorem takeNow_motorOn (s : State) : (takeNow s).motorOn = s.motorOn := rfl
@[simp] theorem takeNow_lastOpTime (s : State) : (takeNow s).lastOpTime = s.lastOpTime := rfl
@[simp] theorem takeNow_lines (s : State) : (takeNow s).lines = s.lines := rfl
@[simp] theorem takeNow_result (s : State) : (takeNow s).result = s.result := rfl
@[simp] theorem takeNow_busy (s : State) : (takeNow s).busy = s.busy := rfl
@[simp] theorem takeNow_rdata (s : State) : (takeNow s).rdata = s.rdata := rfl
@[simp] theorem takeNow_dec (s : State) : (takeNow s).dec = s.dec := rfl
@[simp] theorem takeNow_attempt (s : State) : (takeNow s).attempt = s.attempt := rfl
@[simp] theorem takeNow_stepCnt (s : State) : (takeNow s).stepCnt = s.stepCnt := rfl
@[simp] theorem takeNow_blockIdx (s : State) : (takeNow s).blockIdx = s.blockIdx := rfl
@[simp] theorem takeNow_mem (s : State) : (takeNow s).mem = s.mem := rfl
@[simp] theorem takeNow_job (s : State) : (takeNow s).job = s.job := rfl
@[simp] theorem takeNow_stepwise (s : State) : (takeNow s).stepwise = s.stepwise := rfl
@[simp] theorem takeNow_pulses (s : State) : (takeNow s).pulses = s.pulses := rfl
@[simp] theorem takeNow_trk0s (s : State) : (takeNow s).trk0s = s.trk0s := rfl
@[simp] theorem takeNow_nows (s : State) : (takeNow s).nows = s.nows.tail := rfl
@[simp] theorem takeNow_draws (s : State) : (takeNow s).draws = if s.nows.isEmpty then s.draws + 1 else s.draws := rfl
@[simp] theorem takeNow_host (s : State) : (takeNow s).host = s.host := rfl
@[simp] theorem takeNow_hostData (s : State) : (takeNow s).hostData = s.hostData := rfl
@[simp] theorem takeNow_trace (s : State) : (takeNow s).trace = .now (nowAnswer s) :: s.trace := rfl

end Sys2Proof.Machine
end

