-- ==== Sys2Proof/Laws/Memory.lean ====
section
/-! SUPPORT. The laws of the buffer space: read after write, the frame of a write, and that every
operation keeps the canonical form. -/

namespace Sys2Proof.Machine

namespace Memory

theorem get_set (m : Memory) (a : Nat) (v : Byte) (x : Nat) :
    get (set m a v) x = if x = a then some v else get m x := by
  induction m with
  | nil => simp only [set, get, eq_comm]
  | cons c m ih =>
    obtain ⟨b, w⟩ := c
    simp only [set]
    split
    · simp only [get, eq_comm]
    · split
      · subst a; simp only [get, eq_comm]; split <;> rfl
      · simp only [get, ih]; split <;> split <;> simp_all

theorem mem_set {m : Memory} {a : Nat} {v : Byte} {c : Host.Cell} (h : c ∈ set m a v) :
    c = (a, v) ∨ c ∈ m := by
  induction m with
  | nil => simpa [set] using h
  | cons d m ih =>
    obtain ⟨b, w⟩ := d
    simp only [set] at h
    split at h
    · simpa using h
    · split at h
      · rcases List.mem_cons.mp h with h | h
        · left; rw [h]; simp_all
        · right; exact List.mem_cons_of_mem _ h
      · rcases List.mem_cons.mp h with h | h
        · right; simp [h]
        · rcases ih h with h | h
          · exact .inl h
          · exact .inr (List.mem_cons_of_mem _ h)

theorem set_wf {m : Memory} (h : m.wf) (a : Nat) (v : Byte) : (set m a v).wf := by
  induction m with
  | nil => exact List.pairwise_singleton ..
  | cons d m ih =>
    obtain ⟨b, w⟩ := d
    obtain ⟨hb, hm⟩ := List.pairwise_cons.mp h
    simp only [set]
    split
    · rename_i hlt
      refine List.pairwise_cons.mpr ⟨fun c hc => ?_, h⟩
      rcases List.mem_cons.mp hc with rfl | hc
      · exact hlt
      · exact hlt.trans (hb c hc)
    · split
      · exact List.pairwise_cons.mpr ⟨hb, hm⟩
      · refine List.pairwise_cons.mpr ⟨fun c hc => ?_, ih hm⟩
        rcases mem_set hc with rfl | hc
        · dsimp only; omega
        · exact hb c hc

@[simp] theorem setAll_nil (m : Memory) (base : Nat) : setAll m base [] = m := rfl

theorem setAll_append (m : Memory) (base : Nat) (xs ys : List Byte) :
    setAll m base (xs ++ ys) = setAll (setAll m base xs) (base + xs.length) ys := by
  induction xs generalizing m base with
  | nil => rfl
  | cons b xs ih =>
    simp only [List.cons_append, setAll, ih, List.length_cons]
    congr 1; omega

/-- A read after a block write: the byte written, or what was there before. -/
theorem get_setAll (m : Memory) (base : Nat) (bs : List Byte) (x : Nat) :
    get (setAll m base bs) x =
      if base ≤ x ∧ x < base + bs.length then bs[x - base]? else get m x := by
  induction bs generalizing m base with
  | nil => simp [setAll]
  | cons b bs ih =>
    simp only [setAll, ih, get_set, List.length_cons]
    by_cases h0 : x = base
    · subst h0; simp
    · by_cases h1 : base + 1 ≤ x ∧ x < base + 1 + bs.length
      · rw [if_pos h1, if_pos ⟨by omega, by omega⟩]
        rw [show x - base = (x - (base + 1)) + 1 by omega, List.getElem?_cons_succ]
      · rw [if_neg h1, if_neg h0, if_neg (by omega)]

theorem setAll_wf {m : Memory} (h : m.wf) (base : Nat) (bs : List Byte) : (setAll m base bs).wf := by
  induction bs generalizing m base with
  | nil => exact h
  | cons b bs ih => exact ih (set_wf h base b) (base + 1)

theorem mem_setAll {m : Memory} {base : Nat} {bs : List Byte} {c : Host.Cell}
    (h : c ∈ setAll m base bs) : (base ≤ c.1 ∧ c.1 < base + bs.length) ∨ c ∈ m := by
  induction bs generalizing m base with
  | nil => exact .inr h
  | cons b bs ih =>
    rcases ih h with h | h
    · left; simp only [List.length_cons]; omega
    · rcases mem_set h with rfl | h
      · left; simp only [List.length_cons]; omega
      · exact .inr h

theorem get_eq_none {m : Memory} {x : Nat} (h : ∀ c ∈ m, c.1 ≠ x) : get m x = none := by
  induction m with
  | nil => rfl
  | cons c m ih =>
    obtain ⟨a, b⟩ := c
    simp only [get]
    rw [if_neg (h (a, b) List.mem_cons_self), ih fun c hc => h c (List.mem_cons_of_mem _ hc)]

theorem get_of_lt {m : Memory} {x : Nat} (h : ∀ c ∈ m, x < c.1) : get m x = none :=
  get_eq_none fun c hc he => absurd (h c hc) (by omega)

/-- Canonical memories with the same bytes are the same list. -/
theorem ext_of_wf {m m' : Memory} (h : m.wf) (h' : m'.wf) (he : ∀ x, get m x = get m' x) :
    m = m' := by
  induction m generalizing m' with
  | nil =>
    cases m' with
    | nil => rfl
    | cons c m' => have := he c.1; simp [get] at this
  | cons c m ih =>
    obtain ⟨a, b⟩ := c
    obtain ⟨ha, hm⟩ := List.pairwise_cons.mp h
    cases m' with
    | nil => have := he a; simp [get] at this
    | cons c' m' =>
      obtain ⟨a', b'⟩ := c'
      obtain ⟨ha', hm'⟩ := List.pairwise_cons.mp h'
      have e1 : a = a' := by
        rcases Nat.lt_trichotomy a a' with hlt | heq | hgt
        · have := he a
          simp only [get, if_true] at this
          rw [if_neg (by omega), get_of_lt fun c hc => hlt.trans (ha' c hc)] at this
          cases this
        · exact heq
        · have := he a'
          simp only [get, if_true] at this
          rw [if_neg (by omega), get_of_lt fun c hc => Nat.lt_trans hgt (ha c hc)] at this
          cases this
      subst e1
      have e2 : b = b' := by simpa [get] using he a
      subst e2
      rw [ih hm hm' fun x => ?_]
      by_cases hx : a = x
      · subst hx; rw [get_of_lt ha, get_of_lt ha']
      · simpa [get, hx] using he x

end Memory

/-! ### Bytes of the buffer space -/

/-- R71: the mapped addresses, in numbers. -/
theorem mapped_iff (p : Params) (a : Nat) : mapped p a = true ↔
    a < 512 * p.maxBlocks ∨ (0x8000 ≤ a ∧ a ≤ 0x8202) ∨ (0x8400 ≤ a ∧ a ≤ 0x8406) := by
  unfold mapped
  rw [Bool.or_eq_true, Bool.or_eq_true, decide_eq_true_iff, decide_eq_true_iff, decide_eq_true_iff]
  unfold slotBase outBase sectorSize bodyBase bodySize amBase amSize
  omega

/-- A byte after a block write. -/
theorem getD_setAll (m : Memory) (base : Nat) (bs : List Byte) (x : Nat) (d : Byte) :
    ((m.setAll base bs).get x).getD d =
      if base ≤ x ∧ x < base + bs.length then bs.getD (x - base) d else (m.get x).getD d := by
  rw [Memory.get_setAll]; split <;> simp

/-- `bufByte` looks at the parameters and the memory only. -/
theorem bufByte_congr {s t : State} (hp : t.par = s.par) (hm : t.mem = s.mem) (a : Nat) :
    bufByte t a = bufByte s a := by simp only [bufByte, hp, hm]

/-- A byte outside a block write. -/
theorem bufByte_outside {s t : State} {base : Nat} {bs : List Byte} (hp : t.par = s.par)
    (hm : t.mem = s.mem.setAll base bs) {a : Nat} (ha : a < base ∨ base + bs.length ≤ a) :
    bufByte t a = bufByte s a := by
  rw [bufByte, hm, getD_setAll, if_neg (by omega), hp, bufByte]

/-- A byte inside a block write. -/
theorem bufByte_inside {s t : State} {base : Nat} {bs : List Byte}
    (hm : t.mem = s.mem.setAll base bs) {k : Nat} (hk : k < bs.length) :
    bufByte t (base + k) = bs[k] := by
  rw [bufByte, hm, getD_setAll, if_pos (by omega)]
  simp [hk]

/-- The bytes of a block just written. -/
theorem bufBytes_written {s t : State} {base : Nat} {bs : List Byte}
    (hm : t.mem = s.mem.setAll base bs) {n : Nat} (hn : n ≤ bs.length) :
    bufBytes t base n = bs.take n := by
  apply List.ext_getElem
  · simp [bufBytes]; omega
  · intro k h1 h2
    simp only [bufBytes, List.length_map, List.length_range] at h1
    simp only [bufBytes, List.getElem_map, List.getElem_range, List.getElem_take]
    exact bufByte_inside hm (by omega)

@[simp] theorem freeBytes_length (i n : Nat) : (freeBytes i n).length = n := by simp [freeBytes]

@[simp] theorem bufBytes_length (s : State) (base n : Nat) : (bufBytes s base n).length = n := by
  simp [bufBytes]

end Sys2Proof.Machine
end

