-- ==== Sys2Proof/Laws/Ops.lean ====
section
/-! SUPPORT. What the shared operations of the Seek/Motor and Drive Controllers do, said once each. -/

namespace Sys2Proof.Machine

theorem stepPulse_eq (s : State) : stepPulse s = { s with
    lines := { s.lines with step := false }
    trace := .delay .stepInterval :: .line .step false :: .delay .stepPulseWidth ::
      .line .step true :: s.trace } := rfl

theorem stepEvents_succ (k : Nat) : stepEvents (k + 1) = stepEvents k ++
    [.delay .stepInterval, .line .step false, .delay .stepPulseWidth, .line .step true] := by
  simp [stepEvents, List.replicate_succ']

theorem stepPulses_eq (k : Nat) (s : State) : stepPulses k s = { s with
    lines := { s.lines with step := if k = 0 then s.lines.step else false }
    trace := stepEvents k ++ s.trace } := by
  induction k generalizing s with
  | zero => simp [stepPulses, stepEvents]
  | succ k ih => simp [stepPulses, ih, stepPulse_eq, stepEvents_succ]

theorem seekSteps_eq (t : Byte) (s : State) : seekSteps t s =
    (t.toNat - s.currentTrack.toNat) + (s.currentTrack.toNat - t.toNat) := by
  unfold seekSteps; split <;> omega

theorem seekSteps_eq_zero (t : Byte) (s : State) : seekSteps t s = 0 ↔ s.currentTrack = t := by
  rw [seekSteps_eq, ← BitVec.toNat_inj]; omega

theorem seekMove_eq (t : Byte) (s : State) : seekMove t s = { s with
    currentTrack := t
    lines := { s.lines with
      dir := seekDir t s, step := if s.currentTrack = t then s.lines.step else false }
    trace := stepEvents (seekSteps t s) ++ .line .dir (seekDir t s) :: s.trace } := by
  simp [seekMove, seekArrive, stepPulses_eq, seekSteps_eq_zero]

theorem setMotor_eq (on : Bool) (s : State) : setMotor on s =
    if s.motorOn = on then s else { s with
      motorOn := on
      lines := { s.lines with motor := on }
      trace :=
        if on then .delay .motorSpinup :: .line .motor true :: s.trace
        else .line .motor false :: s.trace } := by
  cases on <;> simp [setMotor, driveLine, emit, delay, Lines.drive]

theorem recordTime_eq (s : State) : recordTime s =
    { takeNow s with lastOpTime := nowAnswer s } := rfl

/-! ### What SetMotor, SeekMove and positioning the head leave alone -/

@[simp] theorem setMotor_par (on : Bool) (s : State) : (setMotor on s).par = s.par := by
  rw [setMotor_eq]; split <;> rfl
@[simp] theorem setMotor_initialized (on : Bool) (s : State) : (setMotor on s).initialized = s.initialized := by
  rw [setMotor_eq]; split <;> rfl
@[simp] theorem setMotor_lastOpTime (on : Bool) (s : State) : (setMotor on s).lastOpTime = s.lastOpTime := by
  rw [setMotor_eq]; split <;> rfl
@[simp] theorem setMotor_result (on : Bool) (s : State) : (setMotor on s).result = s.result := by
  rw [setMotor_eq]; split <;> rfl
@[simp] theorem setMotor_busy (on : Bool) (s : State) : (setMotor on s).busy = s.busy := by
  rw [setMotor_eq]; split <;> rfl
@[simp] theorem setMotor_rdata (on : Bool) (s : State) : (setMotor on s).rdata = s.rdata := by
  rw [setMotor_eq]; split <;> rfl
@[simp] theorem setMotor_dec (on : Bool) (s : State) : (setMotor on s).dec = s.dec := by
  rw [setMotor_eq]; split <;> rfl
@[simp] theorem setMotor_attempt (on : Bool) (s : State) : (setMotor on s).attempt = s.attempt := by
  rw [setMotor_eq]; split <;> rfl
@[simp] theorem setMotor_stepCnt (on : Bool) (s : State) : (setMotor on s).stepCnt = s.stepCnt := by
  rw [setMotor_eq]; split <;> rfl
@[simp] theorem setMotor_blockIdx (on : Bool) (s : State) : (setMotor on s).blockIdx = s.blockIdx := by
  rw [setMotor_eq]; split <;> rfl
@[simp] theorem setMotor_mem (on : Bool) (s : State) : (setMotor on s).mem = s.mem := by
  rw [setMotor_eq]; split <;> rfl
@[simp] theorem setMotor_job (on : Bool) (s : State) : (setMotor on s).job = s.job := by
  rw [setMotor_eq]; split <;> rfl
@[simp] theorem setMotor_pulses (on : Bool) (s : State) : (setMotor on s).pulses = s.pulses := by
  rw [setMotor_eq]; split <;> rfl
@[simp] theorem setMotor_trk0s (on : Bool) (s : State) : (setMotor on s).trk0s = s.trk0s := by
  rw [setMotor_eq]; split <;> rfl
@[simp] theorem setMotor_nows (on : Bool) (s : State) : (setMotor on s).nows = s.nows := by
  rw [setMotor_eq]; split <;> rfl
@[simp] theorem setMotor_draws (on : Bool) (s : State) : (setMotor on s).draws = s.draws := by
  rw [setMotor_eq]; split <;> rfl
@[simp] theorem setMotor_host (on : Bool) (s : State) : (setMotor on s).host = s.host := by
  rw [setMotor_eq]; split <;> rfl
@[simp] theorem setMotor_hostData (on : Bool) (s : State) : (setMotor on s).hostData = s.hostData := by
  rw [setMotor_eq]; split <;> rfl
@[simp] theorem setMotor_stepwise (on : Bool) (s : State) : (setMotor on s).stepwise = s.stepwise := by
  rw [setMotor_eq]; split <;> rfl
@[simp] theorem seekMove_par (t : Byte) (s : State) : (seekMove t s).par = s.par := by
  rw [seekMove_eq]
@[simp] theorem seekMove_initialized (t : Byte) (s : State) : (seekMove t s).initialized = s.initialized := by
  rw [seekMove_eq]
@[simp] theorem seekMove_lastOpTime (t : Byte) (s : State) : (seekMove t s).lastOpTime = s.lastOpTime := by
  rw [seekMove_eq]
@[simp] theorem seekMove_result (t : Byte) (s : State) : (seekMove t s).result = s.result := by
  rw [seekMove_eq]
@[simp] theorem seekMove_busy (t : Byte) (s : State) : (seekMove t s).busy = s.busy := by
  rw [seekMove_eq]
@[simp] theorem seekMove_rdata (t : Byte) (s : State) : (seekMove t s).rdata = s.rdata := by
  rw [seekMove_eq]
@[simp] theorem seekMove_dec (t : Byte) (s : State) : (seekMove t s).dec = s.dec := by
  rw [seekMove_eq]
@[simp] theorem seekMove_attempt (t : Byte) (s : State) : (seekMove t s).attempt = s.attempt := by
  rw [seekMove_eq]
@[simp] theorem seekMove_stepCnt (t : Byte) (s : State) : (seekMove t s).stepCnt = s.stepCnt := by
  rw [seekMove_eq]
@[simp] theorem seekMove_blockIdx (t : Byte) (s : State) : (seekMove t s).blockIdx = s.blockIdx := by
  rw [seekMove_eq]
@[simp] theorem seekMove_mem (t : Byte) (s : State) : (seekMove t s).mem = s.mem := by
  rw [seekMove_eq]
@[simp] theorem seekMove_job (t : Byte) (s : State) : (seekMove t s).job = s.job := by
  rw [seekMove_eq]
@[simp] theorem seekMove_pulses (t : Byte) (s : State) : (seekMove t s).pulses = s.pulses := by
  rw [seekMove_eq]
@[simp] theorem seekMove_trk0s (t : Byte) (s : State) : (seekMove t s).trk0s = s.trk0s := by
  rw [seekMove_eq]
@[simp] theorem seekMove_nows (t : Byte) (s : State) : (seekMove t s).nows = s.nows := by
  rw [seekMove_eq]
@[simp] theorem seekMove_draws (t : Byte) (s : State) : (seekMove t s).draws = s.draws := by
  rw [seekMove_eq]
@[simp] theorem seekMove_host (t : Byte) (s : State) : (seekMove t s).host = s.host := by
  rw [seekMove_eq]
@[simp] theorem seekMove_hostData (t : Byte) (s : State) : (seekMove t s).hostData = s.hostData := by
  rw [seekMove_eq]
@[simp] theorem seekMove_motorOn (t : Byte) (s : State) : (seekMove t s).motorOn = s.motorOn := by
  rw [seekMove_eq]
@[simp] theorem seekMove_stepwise (t : Byte) (s : State) : (seekMove t s).stepwise = s.stepwise := by
  rw [seekMove_eq]
@[simp] theorem positionHead_par (c h : Byte) (s : State) : (positionHead c h s).par = s.par := by
  simp [positionHead]
@[simp] theorem positionHead_initialized (c h : Byte) (s : State) : (positionHead c h s).initialized = s.initialized := by
  simp [positionHead]
@[simp] theorem positionHead_lastOpTime (c h : Byte) (s : State) : (positionHead c h s).lastOpTime = s.lastOpTime := by
  simp [positionHead]
@[simp] theorem positionHead_result (c h : Byte) (s : State) : (positionHead c h s).result = s.result := by
  simp [positionHead]
@[simp] theorem positionHead_busy (c h : Byte) (s : State) : (positionHead c h s).busy = s.busy := by
  simp [positionHead]
@[simp] theorem positionHead_rdata (c h : Byte) (s : State) : (positionHead c h s).rdata = s.rdata := by
  simp [positionHead]
@[simp] theorem positionHead_dec (c h : Byte) (s : State) : (positionHead c h s).dec = s.dec := by
  simp [positionHead]
@[simp] theorem positionHead_attempt (c h : Byte) (s : State) : (positionHead c h s).attempt = s.attempt := by
  simp [positionHead]
@[simp] theorem positionHead_stepCnt (c h : Byte) (s : State) : (positionHead c h s).stepCnt = s.stepCnt := by
  simp [positionHead]
@[simp] theorem positionHead_blockIdx (c h : Byte) (s : State) : (positionHead c h s).blockIdx = s.blockIdx := by
  simp [positionHead]
@[simp] theorem positionHead_mem (c h : Byte) (s : State) : (positionHead c h s).mem = s.mem := by
  simp [positionHead]
@[simp] theorem positionHead_job (c h : Byte) (s : State) : (positionHead c h s).job = s.job := by
  simp [positionHead]
@[simp] theorem positionHead_pulses (c h : Byte) (s : State) : (positionHead c h s).pulses = s.pulses := by
  simp [positionHead]
@[simp] theorem positionHead_trk0s (c h : Byte) (s : State) : (positionHead c h s).trk0s = s.trk0s := by
  simp [positionHead]
@[simp] theorem positionHead_nows (c h : Byte) (s : State) : (positionHead c h s).nows = s.nows := by
  simp [positionHead]
@[simp] theorem positionHead_draws (c h : Byte) (s : State) : (positionHead c h s).draws = s.draws := by
  simp [positionHead]
@[simp] theorem positionHead_host (c h : Byte) (s : State) : (positionHead c h s).host = s.host := by
  simp [positionHead]
@[simp] theorem positionHead_hostData (c h : Byte) (s : State) : (positionHead c h s).hostData = s.hostData := by
  simp [positionHead]
@[simp] theorem positionHead_stepwise (c h : Byte) (s : State) : (positionHead c h s).stepwise = s.stepwise := by
  simp [positionHead]

@[simp] theorem setMotor_motorOn (on : Bool) (s : State) : (setMotor on s).motorOn = on := by
  rw [setMotor_eq]; split
  · assumption
  · rfl

@[simp] theorem setMotor_currentTrack (on : Bool) (s : State) :
    (setMotor on s).currentTrack = s.currentTrack := by
  rw [setMotor_eq]; split <;> rfl

/-- SetMotor keeps the MOTOR line equal to MOTOR_ON (R34), and touches no other line. -/
theorem setMotor_lines (on : Bool) (s : State) :
    (s.lines.motor = s.motorOn → (setMotor on s).lines.motor = on) ∧
    (setMotor on s).lines.driveSel = s.lines.driveSel ∧ (setMotor on s).lines.dir = s.lines.dir ∧
    (setMotor on s).lines.step = s.lines.step ∧ (setMotor on s).lines.headSel = s.lines.headSel := by
  rw [setMotor_eq]; split
  · simp_all
  · simp

@[simp] theorem seekMove_currentTrack (t : Byte) (s : State) : (seekMove t s).currentTrack = t := rfl

theorem seekMove_lines (t : Byte) (s : State) : (seekMove t s).lines = { s.lines with
    dir := seekDir t s, step := if s.currentTrack = t then s.lines.step else false } := by
  rw [seekMove_eq]

@[simp] theorem positionHead_motorOn (c h : Byte) (s : State) : (positionHead c h s).motorOn = true := by
  simp [positionHead]

@[simp] theorem positionHead_currentTrack (c h : Byte) (s : State) :
    (positionHead c h s).currentTrack = c := by
  simp [positionHead]

/-- R263: the lines after the head is positioned. -/
theorem positionHead_lines (c h : Byte) (s : State) :
    (s.lines.motor = s.motorOn → (positionHead c h s).lines.motor = true) ∧
    (positionHead c h s).lines.driveSel = s.lines.driveSel ∧
    (positionHead c h s).lines.dir = decide (s.currentTrack.toNat < c.toNat) ∧
    (s.lines.step = false → (positionHead c h s).lines.step = false) ∧
    (positionHead c h s).lines.headSel = (h != 0) := by
  obtain ⟨h1, h2, _, h4, _⟩ := setMotor_lines true s
  simp only [positionHead, driveLine_lines, Lines.drive, seekMove_lines, seekDir,
    setMotor_currentTrack, h2, h4, and_true, true_and]
  exact ⟨h1, fun hs => by split <;> [exact hs; rfl]⟩


theorem calibrationEvents_succ (k : Nat) : calibrationEvents (k + 1) = calibrationEvents k ++
    [.delay .stepInterval, .line .step false, .delay .stepPulseWidth, .line .step true,
      .trk0 false] := by
  simp [calibrationEvents, List.replicate_succ']

/-- R222: a turn of the calibration loop that sees TRK0 true ends INIT in READY. -/
theorem calibrateTurn_found {s : State} (h : trk0Answer s = true) : calibrateTurn s =
    endWith .init .ok { takeTrk0 s with currentTrack := 0, initialized := true } := if_pos h

/-- R222, R223: a turn that sees TRK0 false at the bound ends INIT. -/
theorem calibrateTurn_bound {s : State} (h : trk0Answer s = false) (hn : s.par.tracks ≤ s.stepCnt) :
    calibrateTurn s = endWith .init .track0NotFound (takeTrk0 s) := by
  rw [calibrateTurn, if_neg (by simp [h]), if_pos hn]

/-- R222: a turn that sees TRK0 false below the bound steps once and stays in the loop. -/
theorem calibrateTurn_step {s : State} (h : trk0Answer s = false) (hn : s.stepCnt < s.par.tracks) :
    calibrateTurn s = countStep (stepPulse (takeTrk0 s)) := by
  rw [calibrateTurn, if_neg (by simp [h]), if_neg (by omega)]

theorem seekCheck_none {t : Byte} {s : State} :
    seekCheck t s = none ↔ s.initialized = true ∧ t.toNat < s.par.tracks := by
  unfold seekCheck
  split
  · simp_all
  · split <;> simp_all

/-- R224: SeekCheck's two errors, in their order. -/
theorem seekCheck_some {t : Byte} {s : State} {e : ResultCode} :
    seekCheck t s = some e ↔ s.initialized = false ∧ e = .notInitialized ∨
      s.initialized = true ∧ s.par.tracks ≤ t.toNat ∧ e = .trackOutOfRange := by
  unfold seekCheck
  split
  · rename_i h
    simpa [h] using eq_comm
  · rename_i h
    split
    · rename_i h'
      simpa [h, h'] using eq_comm
    · rename_i h'
      simp [h, h']

/-- R225: a move takes at most 255 steps. -/
theorem seekSteps_le (t : Byte) (s : State) : seekSteps t s ≤ 255 := by
  have := t.isLt; have := s.currentTrack.isLt
  rw [seekSteps_eq]; omega

theorem bodyVerdict_cases (s : State) :
    bodyVerdict s = .ok ∨ bodyVerdict s = .incorrectDataMark ∨ bodyVerdict s = .crc := by
  unfold bodyVerdict; split
  · simp
  · split <;> simp

theorem blockCheck_cases {addr : Half} {count : Byte} {s : State} {e : ResultCode}
    (h : blockCheck addr count s = some e) : e = .invalidAmount ∨ e = .trackOutOfRange := by
  unfold blockCheck at h
  split at h
  · simp_all
  · split at h <;> simp_all

theorem blockCheck_none {addr : Half} {count : Byte} {s : State} :
    blockCheck addr count s = none ↔ 1 ≤ count.toNat ∧ count.toNat ≤ s.par.maxBlocks ∧
      addr.toNat + count.toNat ≤ s.par.capacity := by
  unfold blockCheck
  split
  · simp; omega
  · split
    · simp; omega
    · simp; omega

end Sys2Proof.Machine
end

