-- ==== Sys2Proof/Laws/Act.lean ====
section
/-! SUPPORT. Everything a running command can do at one of its points, said once: what follows the end of a
Decode (`Tail`), what a turn of a Decode can be (`takeAnswer_cases`), and, register by register, which
points write it (`act_…`). -/

namespace Sys2Proof.Machine

/-- A Locate's Decode. -/
def Decoding.locates : Decoding → Bool
  | .locate _ _ _ => true
  | .readId _ => true
  | _ => false

/-- What follows the end of the Decode `d`, up to the command's next point. -/
inductive Tail (d : Decoding) (s : State) : State → Prop where
  /-- The command has its result. -/
  | ends (c : ResultCode) (hc : c ∈ resultCodes d.command) : Tail d s (endWith d.command c s)
  /-- LOCATE has seen another cylinder (R183). -/
  | endsMisplaced (hl : d.locates = true) :
      Tail d s (endWith d.command .seekError { s with currentTrack := recordCyl s })
  /-- ReadSector has failed; its slot takes free values (R263). -/
  | fails (r : SectorRead) (c : ResultCode) (hd : d = .readId r ∨ d = .readBody r)
      (hc : c ∈ resultCodes d.command) : Tail d s (sectorFail r c s)
  /-- ReadSector has seen another cylinder (R183, R263). -/
  | failsMisplaced (r : SectorRead) (hd : d = .readId r) :
      Tail d s (sectorFail r .seekError { s with currentTrack := recordCyl s })
  /-- The next attempt of a Locate (R184). -/
  | again (k : Nat) (hl : d.locates = true) (h1 : 1 ≤ k) (hk : k ≤ s.par.locateAttempts) :
      Tail d s (beginDecode d { s with attempt := k })
  /-- ReadSector's Locate has found its record (R263). -/
  | body (r : SectorRead) (hd : d = .readId r) : Tail d s (beginDecode (.readBody r) s)
  /-- ReadSector's body is accepted, and the command ends (R263, R264). -/
  | done (r : SectorRead) (hd : d = .readBody r) : Tail d s (endWith r.command .ok (copySlot r.slot s))
  /-- ReadSector's body is accepted, and RBLK's next block begins (R264). -/
  | next (r : SectorRead) (addr : Half) (count : Byte) (hd : d = .readBody r)
      (hr : r.caller = .rblk addr count) (hk : s.blockIdx + 1 < count.toNat) :
      Tail d s (startBlock addr count (s.blockIdx + 1) (copySlot r.slot s))

theorem SectorRead.command_cases (r : SectorRead) :
    r.caller = .rsec ∧ r.command = .rsec r.cyl r.head r.sec ∨
      ∃ addr count, r.caller = .rblk addr count ∧ r.command = .rblk addr count := by
  rcases r with ⟨c, h, sec, slot, _ | ⟨a, n⟩⟩
  · exact .inl ⟨rfl, rfl⟩
  · exact .inr ⟨a, n, rfl, rfl⟩

/-- R111: the codes of a ReadSector. -/
theorem SectorRead.codes (r : SectorRead) {c : ResultCode}
    (h : c ∈ [ResultCode.ok, .notInitialized, .trackOutOfRange, .seekError, .sectorNotFound, .noPulse,
      .incorrectDataMark, .crc]) : c ∈ resultCodes r.command := by
  rcases r.command_cases with ⟨_, e⟩ | ⟨_, _, _, e⟩ <;> rw [e] <;> cases c <;>
    simp [resultCodes] at h ⊢

theorem locateTry_tail {d : Decoding} (hl : d.locates = true) (k : Nat) (h1 : 1 ≤ k) (s : State) :
    Tail d s (locateTry k d s) := by
  unfold locateTry
  split
  · exact .again k hl h1 ‹_›
  · cases d with
    | readId r => exact .fails r _ (.inl rfl) (r.codes (by decide))
    | locate c h sec => exact .ends (d := .locate c h sec) _ (by simp [Decoding.command, resultCodes])
    | _ => simp [Decoding.locates] at hl

theorem locateFail_tail {d : Decoding} (hl : d.locates = true) (s : State) :
    Tail d s (locateFail d .seekError { s with currentTrack := recordCyl s }) := by
  cases d with
  | readId r => exact .failsMisplaced r rfl
  | locate c h sec => exact .endsMisplaced (d := .locate c h sec) rfl
  | _ => simp [Decoding.locates] at hl

/-- What follows a Decode that has ended with OK. -/
theorem decodeOk_tail (d : Decoding) (s : State) : Tail d s (decodeOk d s) := by
  have hj : ∀ (d : Decoding) (c h sec : Byte) (found : State → State), d.locates = true →
      Tail d s (found s) → Tail d s (locateJudge d c h sec found s) := by
    intro d c h sec found hl hf
    unfold locateJudge
    split
    · exact locateFail_tail hl s
    · split
      · exact hf
      · exact locateTry_tail hl _ (by omega) s
  cases d with
  | decode n => exact .ends (d := .decode n) _ (by simp [Decoding.command, resultCodes])
  | rbody =>
    refine .ends (d := .rbody) _ ?_
    rcases bodyVerdict_cases s with e | e | e <;> rw [e] <;> decide
  | locate c h sec =>
    exact hj _ c h sec _ rfl (.ends (d := .locate c h sec) _ (by simp [Decoding.command, resultCodes]))
  | readId r => exact hj _ _ _ _ _ rfl (.body r rfl)
  | readBody r =>
    simp only [decodeOk, sectorJudge]
    split
    · unfold sectorDone
      split
      · exact .done r rfl
      · split
        · exact .next r _ _ rfl ‹_› ‹_›
        · exact .done r rfl
    · refine .fails r _ (.inr rfl) (r.codes ?_)
      rcases bodyVerdict_cases s with e | e | e <;> rw [e] <;> decide

/-- What follows a Decode that has ended with NoPulse. -/
theorem decodeNoPulse_tail (d : Decoding) (s : State) :
    Tail d (drawBuf d.base d.need s) (decodeNoPulse d s) := by
  cases d with
  | decode n => exact .ends (d := .decode n) _ (by simp [Decoding.command, resultCodes])
  | rbody => exact .ends (d := .rbody) _ (by decide)
  | locate c h sec => exact locateTry_tail rfl _ (by omega) _
  | readId r => exact locateTry_tail rfl _ (by omega) _
  | readBody r => exact .fails r _ (.inr rfl) (r.codes (by decide))

/-- Everything one turn of a Decode's loop can do (R139). -/
theorem takeAnswer_cases (d : Decoding) (s : State) :
    (∃ x, pulseAnswer s = .pulse x ∧
      decodeComplete d.need (feed s.par d.need s.dec (classify s.par x)).1 = false ∧
      takeAnswer d s = feedPulse d x (takePulse s)) ∨
    (∃ x, pulseAnswer s = .pulse x ∧
      decodeComplete d.need (feed s.par d.need s.dec (classify s.par x)).1 = true ∧
      Tail d (endDecode (feedPulse d x (takePulse s))) (takeAnswer d s)) ∨
    (pulseAnswer s = .timeout ∧ Tail d (drawBuf d.base d.need (takePulse s)) (takeAnswer d s)) := by
  unfold takeAnswer
  cases h : pulseAnswer s with
  | timeout => exact .inr (.inr ⟨rfl, decodeNoPulse_tail d (takePulse s)⟩)
  | pulse x =>
    simp only [settleDecode]
    by_cases hc : decodeComplete d.need (feedPulse d x (takePulse s)).dec = true
    · exact .inr (.inl ⟨x, rfl, hc, by rw [if_pos hc]; exact decodeOk_tail d _⟩)
    · exact .inl ⟨x, rfl, by simpa using hc, if_neg hc⟩

/-! ### What a turn of a Decode leaves as it was -/

/-- The drive's registers, the lines, the other oracles and the host's side are the same. -/
structure SameUnits (s u : State) : Prop where
  par : u.par = s.par
  initialized : u.initialized = s.initialized
  motorOn : u.motorOn = s.motorOn
  lastOpTime : u.lastOpTime = s.lastOpTime
  lines : u.lines = s.lines
  rdata : u.rdata = s.rdata
  stepCnt : u.stepCnt = s.stepCnt
  stepwise : u.stepwise = s.stepwise
  trk0s : u.trk0s = s.trk0s
  nows : u.nows = s.nows
  host : u.host = s.host
  hostData : u.hostData = s.hostData

theorem SameUnits.refl (s : State) : SameUnits s s := by constructor <;> rfl

theorem SameUnits.trans {s t u : State} (h : SameUnits s t) (h' : SameUnits t u) : SameUnits s u where
  par := h'.par.trans h.par
  initialized := h'.initialized.trans h.initialized
  motorOn := h'.motorOn.trans h.motorOn
  lastOpTime := h'.lastOpTime.trans h.lastOpTime
  lines := h'.lines.trans h.lines
  rdata := h'.rdata.trans h.rdata
  stepCnt := h'.stepCnt.trans h.stepCnt
  stepwise := h'.stepwise.trans h.stepwise
  trk0s := h'.trk0s.trans h.trk0s
  nows := h'.nows.trans h.nows
  host := h'.host.trans h.host
  hostData := h'.hostData.trans h.hostData

/-- What follows a Decode's end keeps the units, BUSY, RESULT, the answers still to come and the trace. -/
theorem Tail.kept {d : Decoding} {s t : State} (h : Tail d s t) :
    SameUnits s t ∧ t.busy = s.busy ∧ t.result = s.result ∧ t.pulses = s.pulses ∧
      t.trace = s.trace := by
  cases h <;> refine ⟨⟨?_, ?_, ?_, ?_, ?_, ?_, ?_, ?_, ?_, ?_, ?_, ?_⟩, ?_, ?_, ?_, ?_⟩ <;>
    simp [startBlock]

/-- The points that a Decode's end can lead to. -/
theorem Tail.job {d : Decoding} {s t : State} (h : Tail d s t) : ∃ j, t.job = some j ∧
    j.command = d.command ∧ ((∃ c ∈ resultCodes d.command, j = .ending d.command c) ∨
      (∃ d', j = .decoding d') ∨ ∃ r, j = .readBegin r) := by
  cases h with
  | ends c hc => exact ⟨_, rfl, rfl, .inl ⟨c, hc, rfl⟩⟩
  | endsMisplaced hl =>
    refine ⟨_, rfl, rfl, .inl ⟨_, ?_, rfl⟩⟩
    cases d with
    | readId r => exact r.codes (by decide)
    | locate c h sec => simp [Decoding.command, resultCodes]
    | _ => simp [Decoding.locates] at hl
  | fails r c hd hc =>
    have e : d.command = r.command := by rcases hd with rfl | rfl <;> rfl
    exact ⟨_, sectorFail_job .., by rw [e]; rfl, .inl ⟨c, hc, by rw [e]⟩⟩
  | failsMisplaced r hd =>
    subst hd
    exact ⟨_, sectorFail_job .., rfl, .inl ⟨_, r.codes (by decide), rfl⟩⟩
  | again k hl h1 hk => exact ⟨_, rfl, rfl, .inr (.inl ⟨d, rfl⟩)⟩
  | body r hd => subst hd; exact ⟨_, rfl, rfl, .inr (.inl ⟨_, rfl⟩)⟩
  | done r hd => subst hd; exact ⟨_, rfl, rfl, .inl ⟨_, r.codes (by decide), rfl⟩⟩
  | next r addr count hd hr hk =>
    subst hd
    refine ⟨_, rfl, ?_, .inr (.inr ⟨_, rfl⟩)⟩
    simp [Job.command, SectorRead.command, Decoding.command, hr]

theorem takeAnswer_kept (d : Decoding) (s : State) : SameUnits s (takeAnswer d s) ∧
    (takeAnswer d s).busy = s.busy ∧ (takeAnswer d s).result = s.result ∧
    (takeAnswer d s).pulses = s.pulses.tail ∧
    (takeAnswer d s).trace = .nextPulse (pulseAnswer s) :: s.trace := by
  rcases takeAnswer_cases d s with ⟨x, _, _, e⟩ | ⟨x, _, _, e⟩ | ⟨_, e⟩
  · rw [e]; refine ⟨⟨?_, ?_, ?_, ?_, ?_, ?_, ?_, ?_, ?_, ?_, ?_, ?_⟩, ?_, ?_, ?_, ?_⟩ <;> simp
  · obtain ⟨h1, h2, h3, h4, h5⟩ := e.kept
    refine ⟨SameUnits.trans ?_ h1, by simpa using h2, by simpa using h3, by simpa using h4,
      by simpa using h5⟩
    constructor <;> simp
  · obtain ⟨h1, h2, h3, h4, h5⟩ := e.kept
    refine ⟨SameUnits.trans ?_ h1, by simpa using h2, by simpa using h3, by simpa using h4,
      by simpa using h5⟩
    constructor <;> simp

theorem takeAnswer_job {d : Decoding} {s : State} (hj : s.job = some (.decoding d)) :
    ∃ j, (takeAnswer d s).job = some j ∧ j.command = d.command ∧
      ((∃ c ∈ resultCodes d.command, j = .ending d.command c) ∨ (∃ d', j = .decoding d') ∨
        ∃ r, j = .readBegin r) := by
  rcases takeAnswer_cases d s with ⟨x, _, _, e⟩ | ⟨x, _, _, e⟩ | ⟨_, e⟩
  · rw [e]; exact ⟨_, by simpa using hj, rfl, .inr (.inl ⟨d, rfl⟩)⟩
  · exact e.job
  · exact e.job

/-- Where a turn of a Decode writes CURRENT_TRACK (R183). -/
theorem takeAnswer_currentTrack (d : Decoding) (s : State) :
    (takeAnswer d s).currentTrack = s.currentTrack ∨
      d.locates = true ∧ (takeAnswer d s).job = some (.ending d.command .seekError) := by
  have key : ∀ u t, u.currentTrack = s.currentTrack → Tail d u t → t.currentTrack = s.currentTrack ∨
      d.locates = true ∧ t.job = some (.ending d.command .seekError) := by
    intro u t hu h
    cases h with
    | endsMisplaced hl => exact .inr ⟨hl, rfl⟩
    | failsMisplaced r hd => subst hd; exact .inr ⟨rfl, sectorFail_job ..⟩
    | _ => left; simpa [startBlock] using hu
  rcases takeAnswer_cases d s with ⟨x, _, _, e⟩ | ⟨x, _, _, e⟩ | ⟨_, e⟩
  · rw [e]; left; simp
  · exact key _ _ (by simp) e
  · exact key _ _ (by simp) e

/-! ### What each point writes -/

theorem locateTry_kept (k : Nat) (d : Decoding) (s : State) : SameUnits s (locateTry k d s) ∧
    (locateTry k d s).busy = s.busy ∧ (locateTry k d s).result = s.result ∧
    (locateTry k d s).pulses = s.pulses ∧ (locateTry k d s).trace = s.trace ∧
    (locateTry k d s).currentTrack = s.currentTrack ∧ (locateTry k d s).blockIdx = s.blockIdx := by
  unfold locateTry
  split
  · exact ⟨⟨rfl, rfl, rfl, rfl, rfl, rfl, rfl, rfl, rfl, rfl, rfl, rfl⟩, rfl, rfl, rfl, rfl, rfl, rfl⟩
  · unfold locateFail
    split <;>
      refine ⟨⟨?_, ?_, ?_, ?_, ?_, ?_, ?_, ?_, ?_, ?_, ?_, ?_⟩, ?_, ?_, ?_, ?_, ?_, ?_⟩ <;> simp

theorem locateTry_job (k : Nat) (d : Decoding) (s : State) :
    (locateTry k d s).job = some (.decoding d) ∨
      (locateTry k d s).job = some (.ending d.command .sectorNotFound) := by
  unfold locateTry
  split
  · exact .inl rfl
  · unfold locateFail
    split
    · exact .inr (sectorFail_job ..)
    · exact .inr rfl

/-- A Locate's attempt does not depend on the point it is reached from. -/
theorem locateTry_goto (k : Nat) (d : Decoding) (j : Job) (s : State) :
    locateTry k d (goto j s) = locateTry k d s := by
  unfold locateTry locateFail
  split
  · rw [if_pos ‹_›]; rfl
  · rw [if_neg ‹_›]; cases d <;> rfl

theorem setMotor_goto (on : Bool) (j j' : Job) (s : State) :
    goto j (setMotor on (goto j' s)) = goto j (setMotor on s) := by
  rw [setMotor_eq, setMotor_eq]
  by_cases h : s.motorOn = on
  · rw [if_pos h, if_pos (show (goto j' s).motorOn = on from h)]; rfl
  · rw [if_neg h, if_neg (show ¬(goto j' s).motorOn = on from h)]; rfl

/-- What every point leaves as it was. -/
theorem act_host (j : Job) (s : State) : (act j s).par = s.par ∧ (act j s).host = s.host ∧
    (act j s).hostData = s.hostData ∧ (act j s).stepwise = s.stepwise := by
  cases j with
  | calibrating =>
    simp only [act, calibrateTurn]
    split
    · simp
    · split <;> simp
  | seekCheck t => simp only [act, seekStart]; split <;> simp
  | seekStep t k => cases k <;> exact ⟨rfl, rfl, rfl, rfl⟩
  | mtick => simp only [act, motorTick]; split <;> simp
  | motor on => simp [act]
  | xlate addr => simp only [act, translateAddr]; split <;> simp
  | rblk addr count => simp only [act, startBlocks]; split <;> simp [startBlock]
  | readCheck r => simp only [act, readStart]; split <;> simp
  | readStep r k =>
    cases k with
    | zero =>
      obtain ⟨h, _⟩ := locateTry_kept 1 (.readId r)
        (driveLine .headSel (r.head != 0) (seekArrive r.cyl s))
      exact ⟨h.par, h.host, h.hostData, h.stepwise⟩
    | succ k => exact ⟨rfl, rfl, rfl, rfl⟩
  | decoding d =>
    obtain ⟨h, _⟩ := takeAnswer_kept d s
    exact ⟨h.par, h.host, h.hostData, h.stepwise⟩
  | _ => exact ⟨rfl, rfl, rfl, rfl⟩

/-- Before its result a command goes on: BUSY and RESULT stay, and it reaches another of its points. -/
theorem act_goes_on {j : Job} {s : State} (hj : s.job = some j) (hn : ∀ i c, j ≠ .ending i c) :
    (act j s).busy = s.busy ∧ (act j s).result = s.result ∧
    ∃ j', (act j s).job = some j' ∧ j'.command = j.command := by
  cases j with
  | ending i c => exact absurd rfl (hn i c)
  | calibrating =>
    simp only [act, calibrateTurn]
    split
    · simp [Job.command]
    · split <;> simp [Job.command, hj]
  | seekCheck t => simp only [act, seekStart]; split <;> simp [Job.command]
  | seekStep t k => cases k <;> exact ⟨rfl, rfl, _, rfl, rfl⟩
  | mtick => simp only [act, motorTick]; split <;> simp [Job.command]
  | motor on => simp [act, Job.command]
  | xlate addr => simp only [act, translateAddr]; split <;> simp [Job.command]
  | rblk addr count => simp only [act, startBlocks]; split <;> simp [startBlock, Job.command, SectorRead.command]
  | readCheck r => simp only [act, readStart]; split <;> simp [Job.command]
  | readStep r k =>
    cases k with
    | zero =>
      obtain ⟨_, h1, h2, _⟩ := locateTry_kept 1 (.readId r)
        (driveLine .headSel (r.head != 0) (seekArrive r.cyl s))
      refine ⟨h1, h2, ?_⟩
      rcases locateTry_job 1 (.readId r) (driveLine .headSel (r.head != 0) (seekArrive r.cyl s)) with
        e | e <;> exact ⟨_, e, rfl⟩
    | succ k => exact ⟨rfl, rfl, _, rfl, rfl⟩
  | decoding d =>
    obtain ⟨_, h1, h2, _⟩ := takeAnswer_kept d s
    obtain ⟨j', e1, e2, _⟩ := takeAnswer_job hj
    exact ⟨h1, h2, j', e1, e2⟩
  | _ => exact ⟨rfl, rfl, _, rfl, rfl⟩

/-! ### Which points write which register -/

/-- R33: only INIT's points write INITIALIZED. -/
theorem act_initialized {j : Job} {s : State} (h1 : j ≠ .init) (h2 : j ≠ .calibrating) :
    (act j s).initialized = s.initialized := by
  cases j with
  | init => exact absurd rfl h1
  | calibrating => exact absurd rfl h2
  | seekCheck t => simp only [act, seekStart]; split <;> simp
  | seekStep t k => cases k <;> rfl
  | mtick => simp only [act, motorTick]; split <;> simp
  | motor on => simp [act]
  | xlate addr => simp only [act, translateAddr]; split <;> simp
  | rblk addr count => simp only [act, startBlocks]; split <;> simp [startBlock]
  | readCheck r => simp only [act, readStart]; split <;> simp
  | readStep r k =>
    cases k with
    | zero => exact (locateTry_kept ..).1.initialized
    | succ k => rfl
  | decoding d => exact (takeAnswer_kept d s).1.initialized
  | _ => rfl

/-- R42: only CLASSIFY and XLATE write RDATA. -/
theorem act_rdata {j : Job} {s : State} (h1 : ∀ d, j ≠ .classify d) (h2 : ∀ a, j ≠ .xlate a) :
    (act j s).rdata = s.rdata := by
  cases j with
  | classify d => exact absurd rfl (h1 d)
  | xlate addr => exact absurd rfl (h2 addr)
  | calibrating => simp only [act, calibrateTurn]; split <;> [simp; (split <;> simp)]
  | seekCheck t => simp only [act, seekStart]; split <;> simp
  | seekStep t k => cases k <;> rfl
  | mtick => simp only [act, motorTick]; split <;> simp
  | motor on => simp [act]
  | rblk addr count => simp only [act, startBlocks]; split <;> simp [startBlock]
  | readCheck r => simp only [act, readStart]; split <;> simp
  | readStep r k =>
    cases k with
    | zero => exact (locateTry_kept ..).1.rdata
    | succ k => rfl
  | decoding d => exact (takeAnswer_kept d s).1.rdata
  | _ => rfl

/-- R35: only SEEK and ReadSector record the time, each at its first point. -/
theorem act_lastOpTime {j : Job} {s : State} (h1 : ∀ t, j ≠ .seek t) (h2 : ∀ r, j ≠ .readBegin r) :
    (act j s).lastOpTime = s.lastOpTime := by
  cases j with
  | seek t => exact absurd rfl (h1 t)
  | readBegin r => exact absurd rfl (h2 r)
  | calibrating => simp only [act, calibrateTurn]; split <;> [simp; (split <;> simp)]
  | seekCheck t => simp only [act, seekStart]; split <;> simp
  | seekStep t k => cases k <;> rfl
  | mtick => simp only [act, motorTick]; split <;> simp
  | motor on => simp [act]
  | xlate addr => simp only [act, translateAddr]; split <;> simp
  | rblk addr count => simp only [act, startBlocks]; split <;> simp [startBlock]
  | readCheck r => simp only [act, readStart]; split <;> simp
  | readStep r k =>
    cases k with
    | zero => exact (locateTry_kept ..).1.lastOpTime
    | succ k => rfl
  | decoding d => exact (takeAnswer_kept d s).1.lastOpTime
  | _ => rfl

/-- R34: only MOTOR, MTICK and ReadSector's SetMotor write MOTOR_ON. -/
theorem act_motorOn {j : Job} {s : State} (h1 : ∀ on, j ≠ .motor on) (h2 : j ≠ .mtick)
    (h3 : ∀ r, j ≠ .readCheck r) : (act j s).motorOn = s.motorOn := by
  cases j with
  | motor on => exact absurd rfl (h1 on)
  | mtick => exact absurd rfl h2
  | readCheck r => exact absurd rfl (h3 r)
  | calibrating => simp only [act, calibrateTurn]; split <;> [simp; (split <;> simp)]
  | seekCheck t => simp only [act, seekStart]; split <;> simp
  | seekStep t k => cases k <;> rfl
  | xlate addr => simp only [act, translateAddr]; split <;> simp
  | rblk addr count => simp only [act, startBlocks]; split <;> simp [startBlock]
  | readStep r k =>
    cases k with
    | zero => exact (locateTry_kept ..).1.motorOn
    | succ k => rfl
  | decoding d => exact (takeAnswer_kept d s).1.motorOn
  | _ => rfl

/-- R34: the MOTOR line follows MOTOR_ON at every point. -/
theorem act_motorLine (j : Job) {s : State} (h : s.lines.motor = s.motorOn) :
    (act j s).lines.motor = (act j s).motorOn := by
  cases j with
  | calibrating =>
    simp only [act, calibrateTurn]; split <;> [simpa using h; (split <;> simpa using h)]
  | seekCheck t => simp only [act, seekStart]; split <;> simpa using h
  | seekStep t k => cases k <;> simpa [act, seekTurn] using h
  | mtick =>
    simp only [act, motorTick]
    split
    · simpa using (setMotor_lines false (takeNow s)).1 (by simpa using h)
    · simpa using h
  | motor on => simpa [act] using (setMotor_lines on s).1 h
  | xlate addr => simp only [act, translateAddr]; split <;> simpa using h
  | rblk addr count => simp only [act, startBlocks]; split <;> simpa [startBlock] using h
  | readCheck r =>
    simp only [act, readStart]
    split
    · simpa using h
    · simpa using (setMotor_lines true s).1 h
  | readStep r k =>
    cases k with
    | zero =>
      have e := (locateTry_kept 1 (.readId r)
        (driveLine .headSel (r.head != 0) (seekArrive r.cyl s))).1
      rw [act, readTurn, e.lines, e.motorOn]; simpa [Lines.drive] using h
    | succ k => simpa [act, readTurn] using h
  | decoding d =>
    have e := (takeAnswer_kept d s).1
    rw [act, e.lines, e.motorOn]; exact h
  | _ => simpa [act, classifyPulse, readAim] using h

/-- R32: where CURRENT_TRACK is written: INIT's success; SEEK's arrival, which ends it; ReadSector's arrival;
and a cylinder mismatch (R183), which ends the command. -/
theorem act_currentTrack (j : Job) (s : State) : (act j s).currentTrack = s.currentTrack ∨
    (j = .calibrating ∧ (act j s).currentTrack = 0 ∧ (act j s).job = some (.ending .init .ok)) ∨
    (∃ t, j = .seekStep t 0 ∧ (act j s).currentTrack = t ∧
      (act j s).job = some (.ending (.seek t) .ok)) ∨
    (∃ r, j = .readStep r 0 ∧ (act j s).currentTrack = r.cyl) ∨
    ∃ d, j = .decoding d ∧ d.locates = true ∧ (act j s).job = some (.ending d.command .seekError) := by
  cases j with
  | calibrating =>
    simp only [act, calibrateTurn]
    split
    · right; left; simp
    · left; split <;> simp
  | seekCheck t => left; simp only [act, seekStart]; split <;> simp
  | seekStep t k =>
    cases k with
    | zero => right; right; left; exact ⟨t, rfl, rfl, rfl⟩
    | succ k => left; rfl
  | mtick => left; simp only [act, motorTick]; split <;> simp
  | motor on => left; simp [act]
  | xlate addr => left; simp only [act, translateAddr]; split <;> simp
  | rblk addr count => left; simp only [act, startBlocks]; split <;> simp [startBlock]
  | readCheck r => left; simp only [act, readStart]; split <;> simp
  | readStep r k =>
    cases k with
    | zero =>
      right; right; right; left
      exact ⟨r, rfl, (locateTry_kept 1 (.readId r)
        (driveLine .headSel (r.head != 0) (seekArrive r.cyl s))).2.2.2.2.2.1⟩
    | succ k => left; rfl
  | decoding d =>
    rcases takeAnswer_currentTrack d s with h | ⟨h1, h2⟩
    · exact .inl h
    · exact .inr (.inr (.inr (.inr ⟨d, rfl, h1, h2⟩)))
  | _ => left; rfl

/-- R33: INIT's points leave READY, and enter it only with the result OK. -/
theorem act_initialized_init {j : Job} {s : State} (h : (act j s).initialized = true) :
    s.initialized = true ∨ j = .calibrating ∧ (act j s).job = some (.ending .init .ok) := by
  by_cases h1 : j = .init
  · subst h1; simp [act] at h
  · by_cases h2 : j = .calibrating
    · subst h2
      simp only [act, calibrateTurn] at h ⊢
      split at h
      · right; rw [if_pos ‹_›]; simp
      · left
        split at h <;> simpa using h
    · exact .inl ((act_initialized h1 h2).symm.trans h)

/-- R111: a command comes only to a result of its own. -/
theorem act_ends {j : Job} {s : State} {i : Instr} {c : ResultCode} (hj : s.job = some j)
    (hn : ∀ i c, j ≠ .ending i c) (h : (act j s).job = some (.ending i c)) :
    c ∈ resultCodes j.command := by
  cases j with
  | ending i c => exact absurd rfl (hn i c)
  | init => simp [act] at h
  | calibrating =>
    simp only [act, calibrateTurn] at h
    split at h
    · cases h; decide
    · split at h
      · cases h; decide
      · simp [hj] at h
  | seek t => simp [act] at h
  | seekCheck t =>
    simp only [act, seekStart] at h
    split at h
    · rename_i e he
      cases h
      rcases seekCheck_some.mp he with ⟨_, rfl⟩ | ⟨_, _, rfl⟩ <;> simp [Job.command, resultCodes]
    · simp at h
  | seekStep t k =>
    cases k with
    | zero => cases h; simp [Job.command, resultCodes]
    | succ k => simp [act, seekTurn] at h
  | mtick => cases h; decide
  | motor on => cases h; simp [Job.command, resultCodes]
  | classify d => cases h; simp [Job.command, resultCodes]
  | xlate addr =>
    simp only [act, translateAddr] at h
    split at h <;> cases h <;> simp [Job.command, resultCodes]
  | rblk addr count =>
    simp only [act, startBlocks] at h
    split at h
    · rename_i e he
      cases h
      rcases blockCheck_cases he with rfl | rfl <;> simp [Job.command, resultCodes]
    · simp [startBlock] at h
  | readBegin r => simp [act] at h
  | readCheck r =>
    simp only [act, readStart] at h
    split at h
    · rename_i e he
      rw [sectorFail_job] at h
      cases h
      refine r.codes ?_
      rcases seekCheck_some.mp he with ⟨_, rfl⟩ | ⟨_, _, rfl⟩ <;> decide
    · simp at h
  | readMove r => simp [act, readAim] at h
  | readStep r k =>
    cases k with
    | zero =>
      rcases locateTry_job 1 (.readId r) (driveLine .headSel (r.head != 0) (seekArrive r.cyl s)) with
        e | e <;> rw [act, readTurn, e] at h <;> cases h
      exact r.codes (by decide)
    | succ k => simp [act, readTurn] at h
  | decoding d =>
    obtain ⟨j', e1, _, ⟨c', hc, e⟩ | ⟨d', e⟩ | ⟨r, e⟩⟩ := takeAnswer_job hj <;>
      rw [act, e1, e] at h <;> cases h
    exact hc

@[simp] theorem act_ending (i : Instr) (c : ResultCode) (s : State) :
    act (.ending i c) s = finish c s := rfl

end Sys2Proof.Machine
end

