-- ==== Sys2Proof/Laws/Decoder.lean ====
section
/-! SUPPORT. What one pulse, and a run of pulses, does to Decode's working registers. -/

namespace Sys2Proof.Machine

/-! ### Bits -/

@[simp] theorem pushBits_nil (n : Nat) (d : Decoder) : pushBits n [] d = (d, []) := rfl

theorem pushBits_append (n : Nat) (xs ys : List Bool) (d : Decoder) :
    pushBits n (xs ++ ys) d =
      ((pushBits n ys (pushBits n xs d).1).1,
        (pushBits n xs d).2 ++ (pushBits n ys (pushBits n xs d).1).2) := by
  induction xs generalizing d with
  | nil => rfl
  | cons b xs ih => simp [pushBits, ih]

/-- Everything one `Push` can do: nothing, shift a bit in, or complete a byte (R137). -/
theorem pushBit_cases (n : Nat) (b : Bool) (d : Decoder) :
    (n ≤ d.byteCnt ∧ pushBit n b d = (d, [])) ∨
    (d.byteCnt < n ∧ d.bitCnt + 1 = 8 ∧ pushBit n b d =
      ({ d with byteCnt := d.byteCnt + 1, bitCnt := 0, bitAcc := 0 }, [shiftIn d.bitAcc b])) ∨
    (d.byteCnt < n ∧ d.bitCnt + 1 ≠ 8 ∧ pushBit n b d =
      ({ d with bitAcc := shiftIn d.bitAcc b, bitCnt := d.bitCnt + 1 }, [])) := by
  unfold pushBit
  split
  · split
    · exact .inr (.inl ⟨‹_›, ‹_›, rfl⟩)
    · exact .inr (.inr ⟨‹_›, ‹_›, rfl⟩)
  · exact .inl ⟨by omega, rfl⟩

/-- What pushing bits keeps, and how BYTE_CNT counts the bytes completed. -/
theorem pushBits_spec (n : Nat) (bs : List Bool) (d : Decoder) :
    (pushBits n bs d).1.phase = d.phase ∧ (pushBits n bs d).1.syncCnt = d.syncCnt ∧
    (pushBits n bs d).1.markIdx = d.markIdx ∧ (pushBits n bs d).1.bitState = d.bitState ∧
    (pushBits n bs d).1.byteCnt = d.byteCnt + (pushBits n bs d).2.length ∧
    (d.byteCnt ≤ n → (pushBits n bs d).1.byteCnt ≤ n) ∧
    (d.bitCnt < 8 → (pushBits n bs d).1.bitCnt < 8) := by
  induction bs generalizing d with
  | nil => simp
  | cons b bs ih =>
    have h := ih (pushBit n b d).1
    simp only [pushBits, List.length_append]
    rcases pushBit_cases n b d with ⟨_, e⟩ | ⟨_, _, e⟩ | ⟨_, _, e⟩ <;> rw [e] at h ⊢ <;>
      dsimp only [List.length_nil, List.length_singleton] at h ⊢ <;>
      refine ⟨h.1, h.2.1, h.2.2.1, h.2.2.2.1, by omega, by omega, by omega⟩

/-- After the last byte nothing is pushed. -/
theorem pushBits_full {n : Nat} {d : Decoder} (h : n ≤ d.byteCnt) (bs : List Bool) :
    pushBits n bs d = (d, []) := by
  induction bs with
  | nil => rfl
  | cons b bs ih =>
    have e : pushBit n b d = (d, []) := by rw [pushBit, if_neg (by omega)]
    simp [pushBits, e, ih]

/-- What one pulse in BITS keeps, and how BYTE_CNT counts the bytes completed (R136, R137). -/
theorem feedBits_spec (n : Nat) (c : PulseClass) (d : Decoder) :
    (feedBits n c d).1.phase = d.phase ∧ (feedBits n c d).1.syncCnt = d.syncCnt ∧
    (feedBits n c d).1.markIdx = d.markIdx ∧
    (feedBits n c d).1.bitState = nextBitState d.bitState c ∧
    (feedBits n c d).1.byteCnt = d.byteCnt + (feedBits n c d).2.length ∧
    (d.byteCnt ≤ n → (feedBits n c d).1.byteCnt ≤ n) ∧
    (d.bitCnt < 8 → (feedBits n c d).1.bitCnt < 8) :=
  pushBits_spec n (emittedBits d.bitState c) { d with bitState := nextBitState d.bitState c }

/-! ### One pulse -/

theorem feed_sync {d : Decoder} (h : d.phase = .sync) (p : Params) (n : Nat) (c : PulseClass) :
    feed p n d c = (feedSync p c d, []) := by simp [feed, h]
theorem feed_remainder {d : Decoder} (h : d.phase = .remainder) (p : Params) (n : Nat)
    (c : PulseClass) : feed p n d c = (feedRemainder c d, []) := by simp [feed, h]
theorem feed_mark {d : Decoder} (h : d.phase = .mark) (p : Params) (n : Nat) (c : PulseClass) :
    feed p n d c = (feedMark c d, []) := by simp [feed, h]
theorem feed_bits {d : Decoder} (h : d.phase = .bits) (p : Params) (n : Nat) (c : PulseClass) :
    feed p n d c = feedBits n c d := by simp [feed, h]
theorem feed_done {d : Decoder} (h : d.phase = .done) (p : Params) (n : Nat) (c : PulseClass) :
    feed p n d c = (d, []) := by simp [feed, h]

/-- Everything one pulse in SYNC can do (R133). -/
theorem feedSync_cases (p : Params) (c : PulseClass) (d : Decoder) :
    (c ≠ .short ∧ feedSync p c d = { d with syncCnt := 0 }) ∨
    (c = .short ∧ d.syncCnt + 1 ≠ p.syncLen ∧ feedSync p c d = { d with syncCnt := d.syncCnt + 1 }) ∨
    (c = .short ∧ d.syncCnt + 1 = p.syncLen ∧
      feedSync p c d = { d with syncCnt := d.syncCnt + 1, phase := .remainder }) := by
  unfold feedSync
  split
  · split
    · exact .inr (.inr ⟨‹_›, ‹_›, rfl⟩)
    · exact .inr (.inl ⟨‹_›, ‹_›, rfl⟩)
  · exact .inl ⟨‹_›, rfl⟩

/-- Everything one pulse in MARK can do (R135). -/
theorem feedMark_cases (c : PulseClass) (d : Decoder) :
    (markSeq[d.markIdx]? ≠ some c ∧ feedMark c d = { d with phase := .sync, syncCnt := 0 }) ∨
    (markSeq[d.markIdx]? = some c ∧ d.markIdx + 1 ≠ 14 ∧
      feedMark c d = { d with markIdx := d.markIdx + 1 }) ∨
    (markSeq[d.markIdx]? = some c ∧ d.markIdx + 1 = 14 ∧
      feedMark c d = enterBits { d with markIdx := d.markIdx + 1 }) := by
  unfold feedMark
  split
  · split
    · exact .inr (.inr ⟨‹_›, ‹_›, rfl⟩)
    · exact .inr (.inl ⟨‹_›, ‹_›, rfl⟩)
  · exact .inl ⟨‹_›, rfl⟩

/-- Where the next completed byte goes: BYTE_CNT in BITS; no byte has been completed before BITS. -/
def Decoder.offset (d : Decoder) : Nat := if d.phase = .bits then d.byteCnt else 0

/-- One pulse completes bytes only in BITS, and `offset` counts them. -/
theorem feed_offset (p : Params) (n : Nat) (d : Decoder) (c : PulseClass) :
    (feed p n d c).1.offset = d.offset + (feed p n d c).2.length ∧
      (d.phase ≠ .bits → (feed p n d c).2 = []) := by
  rcases h : d.phase with _ | _ | _ | _ | _
  · rw [feed_sync h]
    rcases feedSync_cases p c d with ⟨_, e⟩ | ⟨_, _, e⟩ | ⟨_, _, e⟩ <;> simp [e, Decoder.offset, h]
  · rw [feed_remainder h]
    cases c <;> simp [feedRemainder, resync, Decoder.offset, h]
  · rw [feed_mark h]
    rcases feedMark_cases c d with ⟨_, e⟩ | ⟨_, _, e⟩ | ⟨_, _, e⟩ <;>
      simp [e, Decoder.offset, h, enterBits]
  · rw [feed_bits h]
    have := feedBits_spec n c d
    refine ⟨?_, fun hx => absurd rfl hx⟩
    rw [Decoder.offset, Decoder.offset, if_pos (this.1.trans h), if_pos h, this.2.2.2.2.1]
  · rw [feed_done h]; simp [Decoder.offset, h]

/-- The ranges of R43 are kept by every pulse of an unfinished Decode. -/
theorem feed_ok {p : Params} {n : Nat} {d : Decoder} (hp : 1 ≤ p.syncLen) (hn : n ≤ bodySize)
    (hd : DecoderOk p d) (hb : d.phase = .bits → d.byteCnt ≤ n) (c : PulseClass) :
    DecoderOk p (feed p n d c).1 ∧
      ((feed p n d c).1.phase = .bits → (feed p n d c).1.byteCnt ≤ n) := by
  obtain ⟨h1, h2, h3, h4, h5, h6⟩ := hd
  rcases h : d.phase with _ | _ | _ | _ | _
  · rw [feed_sync h]
    have h2 := h2 h
    rcases feedSync_cases p c d with ⟨_, e⟩ | ⟨_, _, e⟩ | ⟨_, _, e⟩ <;> rw [e] <;>
      refine ⟨⟨?_, ?_, ?_, ?_, ?_, ?_⟩, ?_⟩ <;> simp_all <;> omega
  · rw [feed_remainder h]
    cases c <;> simp only [feedRemainder, resync] <;>
      (refine ⟨⟨?_, ?_, ?_, ?_, ?_, ?_⟩, ?_⟩ <;> simp_all; try omega)
  · rw [feed_mark h]
    have h4 := h4 h
    rcases feedMark_cases c d with ⟨_, e⟩ | ⟨_, _, e⟩ | ⟨_, _, e⟩ <;> rw [e] <;>
      refine ⟨⟨?_, ?_, ?_, ?_, ?_, ?_⟩, ?_⟩ <;> simp_all [enterBits] <;> omega
  · rw [feed_bits h]
    obtain ⟨e1, e2, e3, e4, e5, e6, e7⟩ := feedBits_spec n c d
    have hb := hb h
    refine ⟨⟨?_, ?_, ?_, ?_, ?_, ?_⟩, ?_⟩
    · rw [e2]; exact h1
    · rw [e1]; intro hx; simp [h] at hx
    · rw [e3]; exact h3
    · rw [e1]; intro hx; simp [h] at hx
    · exact e7 h5
    · exact (e6 hb).trans hn
    · exact fun _ => e6 hb
  · rw [feed_done h]
    exact ⟨⟨h1, h2, h3, h4, h5, h6⟩, by simp [h]⟩

/-- A pulse never ends Decode's loop by itself: DONE is written only at the loop's head (R139). -/
theorem feed_phase_ne_done {p : Params} {n : Nat} {d : Decoder} (h : d.phase ≠ .done)
    (c : PulseClass) : (feed p n d c).1.phase ≠ .done := by
  rcases hph : d.phase with _ | _ | _ | _ | _
  · rw [feed_sync hph]
    rcases feedSync_cases p c d with ⟨_, e⟩ | ⟨_, _, e⟩ | ⟨_, _, e⟩ <;> simp [e, hph]
  · rw [feed_remainder hph]; cases c <;> simp [feedRemainder, resync, hph]
  · rw [feed_mark hph]
    rcases feedMark_cases c d with ⟨_, e⟩ | ⟨_, _, e⟩ | ⟨_, _, e⟩ <;> simp [e, hph, enterBits]
  · rw [feed_bits hph, (feedBits_spec n c d).1]; exact h
  · exact absurd hph h

/-! ### Stale registers do not matter -/

/-- Two register sets that Decode treats alike: the same phase, and the same in what that phase reads. -/
structure Decoder.Sim (d e : Decoder) : Prop where
  phase : d.phase = e.phase
  sync : d.phase = .sync → d.syncCnt = e.syncCnt
  mark : d.phase = .mark → d.markIdx = e.markIdx
  bits : d.phase = .bits → d.bitState = e.bitState ∧ d.bitAcc = e.bitAcc ∧ d.bitCnt = e.bitCnt ∧
    d.byteCnt = e.byteCnt

theorem Sim_decoderStart (d e : Decoder) : (decoderStart d).Sim (decoderStart e) where
  phase := rfl
  sync := fun _ => rfl
  mark := fun h => by simp [decoderStart] at h
  bits := fun h => by simp [decoderStart] at h

theorem decoderStart_reset : decoderStart .reset = .reset := rfl

theorem pushBits_sim (n : Nat) (bs : List Bool) {d e : Decoder} (hp : d.phase = e.phase)
    (hs : d.bitState = e.bitState) (ha : d.bitAcc = e.bitAcc) (hc : d.bitCnt = e.bitCnt)
    (hb : d.byteCnt = e.byteCnt) :
    (pushBits n bs d).2 = (pushBits n bs e).2 ∧
    (pushBits n bs d).1.phase = (pushBits n bs e).1.phase ∧
    (pushBits n bs d).1.bitState = (pushBits n bs e).1.bitState ∧
    (pushBits n bs d).1.bitAcc = (pushBits n bs e).1.bitAcc ∧
    (pushBits n bs d).1.bitCnt = (pushBits n bs e).1.bitCnt ∧
    (pushBits n bs d).1.byteCnt = (pushBits n bs e).1.byteCnt := by
  induction bs generalizing d e with
  | nil => exact ⟨rfl, hp, hs, ha, hc, hb⟩
  | cons b bs ih =>
    have key : (pushBit n b d).2 = (pushBit n b e).2 ∧
        (pushBit n b d).1.phase = (pushBit n b e).1.phase ∧
        (pushBit n b d).1.bitState = (pushBit n b e).1.bitState ∧
        (pushBit n b d).1.bitAcc = (pushBit n b e).1.bitAcc ∧
        (pushBit n b d).1.bitCnt = (pushBit n b e).1.bitCnt ∧
        (pushBit n b d).1.byteCnt = (pushBit n b e).1.byteCnt := by
      unfold pushBit
      rw [hb, hc]
      split
      · split <;> simp [hp, hs, ha]
      · simp [hp, hs, ha, hc, hb]
    obtain ⟨k0, k1, k2, k3, k4, k5⟩ := key
    obtain ⟨i0, i1⟩ := ih k1 k2 k3 k4 k5
    simp only [pushBits, k0, i0]
    exact ⟨trivial, i1⟩

theorem feed_sim (p : Params) (n : Nat) {d e : Decoder} (h : d.Sim e) (c : PulseClass) :
    (feed p n d c).1.Sim (feed p n e c).1 ∧ (feed p n d c).2 = (feed p n e c).2 := by
  rcases hph : d.phase with _ | _ | _ | _ | _
  · have he : e.phase = .sync := h.phase ▸ hph
    have hc := h.sync hph
    rw [feed_sync hph, feed_sync he]
    simp only [feedSync, hc]
    refine ⟨?_, trivial⟩
    split
    · split <;> constructor <;> simp [hph, he]
    · constructor <;> simp [hph, he]
  · have he : e.phase = .remainder := h.phase ▸ hph
    rw [feed_remainder hph, feed_remainder he]
    refine ⟨?_, rfl⟩
    cases c <;> constructor <;> simp [feedRemainder, resync, hph, he]
  · have he : e.phase = .mark := h.phase ▸ hph
    have hm := h.mark hph
    rw [feed_mark hph, feed_mark he]
    simp only [feedMark, hm]
    refine ⟨?_, trivial⟩
    split
    · split <;> constructor <;> simp [enterBits, hph, he]
    · constructor <;> simp [resync]
  · have he : e.phase = .bits := h.phase ▸ hph
    obtain ⟨h1, h2, h3, h4⟩ := h.bits hph
    rw [feed_bits hph, feed_bits he]
    simp only [feedBits, h1]
    obtain ⟨i0, i1, i2, i3, i4, i5⟩ := pushBits_sim n (emittedBits e.bitState c)
      (d := { d with bitState := nextBitState e.bitState c })
      (e := { e with bitState := nextBitState e.bitState c }) (hph.trans he.symm) rfl h2 h3 h4
    refine ⟨⟨i1, ?_, ?_, fun _ => ⟨i2, i3, i4, i5⟩⟩, i0⟩
    all_goals
      rw [(pushBits_spec n _ _).1]
      intro hx
      exact absurd (hph.symm.trans hx) (by decide)
  · have he : e.phase = .done := h.phase ▸ hph
    rw [feed_done hph, feed_done he]
    exact ⟨h, rfl⟩

theorem decodeComplete_sim (n : Nat) {d e : Decoder} (h : d.Sim e) :
    decodeComplete n d = decodeComplete n e := by
  rw [Bool.eq_iff_iff]
  simp only [decodeComplete, Bool.and_eq_true, beq_iff_eq]
  constructor
  · rintro ⟨a, b⟩; exact ⟨h.phase ▸ a, (h.bits a).2.2.2 ▸ b⟩
  · rintro ⟨a, b⟩
    have a' : d.phase = .bits := h.phase ▸ a
    exact ⟨a', (h.bits a').2.2.2.trans b⟩

theorem completesAt_sim (p : Params) (n : Nat) {d e : Decoder} (h : d.Sim e)
    (cs : List PulseClass) : completesAt p n d cs = completesAt p n e cs := by
  induction cs generalizing d e with
  | nil => rfl
  | cons c cs ih =>
    have hf := (feed_sim p n h c).1
    cases cs with
    | nil => exact decodeComplete_sim n hf
    | cons c' cs => simp only [completesAt, decodeComplete_sim n hf, ih hf]

theorem neverCompletes_sim (p : Params) (n : Nat) {d e : Decoder} (h : d.Sim e)
    (cs : List PulseClass) : neverCompletes p n d cs = neverCompletes p n e cs := by
  induction cs generalizing d e with
  | nil => rfl
  | cons c cs ih =>
    have hf := (feed_sim p n h c).1
    simp only [neverCompletes, decodeComplete_sim n hf, ih hf]

theorem feedAll_sim (p : Params) (n : Nat) {d e : Decoder} (h : d.Sim e) (cs : List PulseClass) :
    (feedAll p n d cs).1.Sim (feedAll p n e cs).1 ∧ (feedAll p n d cs).2 = (feedAll p n e cs).2 := by
  induction cs generalizing d e with
  | nil => exact ⟨h, rfl⟩
  | cons c cs ih =>
    obtain ⟨hf, ho⟩ := feed_sim p n h c
    obtain ⟨i1, i2⟩ := ih hf
    simp only [feedAll, ho, i2]
    exact ⟨i1, trivial⟩

/-! ### Runs of pulses -/

theorem feedAll_append (p : Params) (n : Nat) (d : Decoder) (xs ys : List PulseClass) :
    feedAll p n d (xs ++ ys) =
      ((feedAll p n (feedAll p n d xs).1 ys).1,
        (feedAll p n d xs).2 ++ (feedAll p n (feedAll p n d xs).1 ys).2) := by
  induction xs generalizing d with
  | nil => rfl
  | cons c xs ih => simp [feedAll, ih]

theorem feedAll_offset (p : Params) (n : Nat) (d : Decoder) (cs : List PulseClass) :
    (feedAll p n d cs).1.offset = d.offset + (feedAll p n d cs).2.length := by
  induction cs generalizing d with
  | nil => rfl
  | cons c cs ih =>
    simp only [feedAll, ih, (feed_offset p n d c).1, List.length_append]; omega

/-- A run that completes is a run that does not, and one more pulse that does. -/
theorem completesAt_concat (p : Params) (n : Nat) (d : Decoder) (cs : List PulseClass)
    (c : PulseClass) : completesAt p n d (cs ++ [c]) =
      (neverCompletes p n d cs && decodeComplete n (feed p n (feedAll p n d cs).1 c).1) := by
  induction cs generalizing d with
  | nil => simp [completesAt, neverCompletes, feedAll]
  | cons c' cs ih =>
    have := ih (feed p n d c').1
    cases cs with
    | nil => simp only [List.singleton_append, completesAt, neverCompletes, feedAll, Bool.and_true]
    | cons c'' cs =>
      simp only [List.cons_append, completesAt, neverCompletes, feedAll] at this ⊢
      rw [this]
      simp only [Bool.and_assoc]

theorem neverCompletes_append (p : Params) (n : Nat) (d : Decoder) (xs ys : List PulseClass) :
    neverCompletes p n d (xs ++ ys) =
      (neverCompletes p n d xs && neverCompletes p n (feedAll p n d xs).1 ys) := by
  induction xs generalizing d with
  | nil => simp [neverCompletes, feedAll]
  | cons c xs ih => simp only [List.cons_append, neverCompletes, feedAll, ih, Bool.and_assoc]

/-- A completed run has BYTE_CNT = n in BITS, so it has produced exactly `n` bytes. -/
theorem completesAt_length {p : Params} {n : Nat} {d : Decoder} {cs : List PulseClass}
    (h0 : d.offset = 0) (h : completesAt p n d cs = true) :
    (feedAll p n d cs).2.length = n ∧ decodeComplete n (feedAll p n d cs).1 = true := by
  rcases List.eq_nil_or_concat' cs with rfl | ⟨ds, c, rfl⟩
  · simp [completesAt] at h
  · rw [completesAt_concat, Bool.and_eq_true] at h
    have hc : decodeComplete n (feedAll p n d (ds ++ [c])).1 = true := by
      rw [feedAll_append]; exact h.2
    refine ⟨?_, hc⟩
    have := feedAll_offset p n d (ds ++ [c])
    rw [h0] at this
    simp only [decodeComplete, Bool.and_eq_true, beq_iff_eq] at hc
    simp only [Decoder.offset, hc.1, if_true, hc.2] at this
    omega

/-- The bytes of a completed Decode. -/
theorem DecodesTo.length {p : Params} {n : Nat} {ds : List Nat} {bytes : List Byte}
    (h : DecodesTo p n ds bytes) : bytes.length = n := by
  rw [← h.2]; exact (completesAt_length rfl h.1).1

/-- In BITS, a run of pulses pushes the bits that the table emits pulse by pulse (R140). -/
theorem feedAll_bits (p : Params) (n : Nat) {d : Decoder} (h : d.phase = .bits)
    (cs : List PulseClass) :
    (feedAll p n d cs).2 = (pushBits n (emittedAll d.bitState cs) d).2 ∧
    (feedAll p n d cs).1.byteCnt = (pushBits n (emittedAll d.bitState cs) d).1.byteCnt ∧
    (feedAll p n d cs).1.phase = .bits := by
  induction cs generalizing d with
  | nil => exact ⟨rfl, rfl, h⟩
  | cons c cs ih =>
    have e : ∀ (st : BitState) (bs : List Bool) (d : Decoder),
        (pushBits n bs { d with bitState := st }).2 = (pushBits n bs d).2 ∧
        (pushBits n bs { d with bitState := st }).1 =
          { (pushBits n bs d).1 with bitState := st } := by
      intro st bs
      induction bs with
      | nil => intro d; exact ⟨rfl, rfl⟩
      | cons b bs ihb =>
        intro d
        have hb : pushBit n b { d with bitState := st } =
            ({ (pushBit n b d).1 with bitState := st }, (pushBit n b d).2) := by
          unfold pushBit; dsimp only; split
          · split <;> rfl
          · rfl
        simp only [pushBits, hb, (ihb (pushBit n b d).1).1, (ihb (pushBit n b d).1).2]
        exact ⟨trivial, trivial⟩
    have hf : (feed p n d c).1.phase = .bits := by
      rw [feed_bits h, (feedBits_spec n c d).1]; exact h
    have hs : (feed p n d c).1.bitState = nextBitState d.bitState c := by
      rw [feed_bits h, (feedBits_spec n c d).2.2.2.1]
    obtain ⟨i1, i2, i3⟩ := ih hf
    rw [hs] at i1 i2
    have ef : feed p n d c = ({ (pushBits n (emittedBits d.bitState c) d).1 with
        bitState := nextBitState d.bitState c }, (pushBits n (emittedBits d.bitState c) d).2) := by
      rw [feed_bits h, feedBits]
      exact Prod.ext (e _ _ _).2 (e _ _ _).1
    simp only [feedAll, emittedAll, pushBits_append]
    refine ⟨?_, ?_, i3⟩
    · rw [i1, ef]; exact congrArg _ (e _ _ _).1
    · rw [i2, ef]; exact (congrArg Decoder.byteCnt (e _ _ (pushBits n (emittedBits d.bitState c) d).1).2 :)

/-! ### Packing bits into bytes (R77, R137) -/

/-- Eight bits shifted in, the first of them bit 7, are the byte. -/
theorem msbBits_shiftIn (b : Byte) : (msbBits b).foldl shiftIn 0 = b := by
  revert b; decide +kernel

/-- Eight bits complete one byte, most significant bit first. -/
theorem pushBits_byte (n : Nat) (b : Byte) {d : Decoder} (hc : d.bitCnt = 0) (ha : d.bitAcc = 0)
    (hn : d.byteCnt < n) :
    pushBits n (msbBits b) d = ({ d with byteCnt := d.byteCnt + 1 }, [b]) := by
  have hb := msbBits_shiftIn b
  obtain ⟨ph, sc, mi, bs, ba, bc, byc⟩ := d
  dsimp only at hc ha hn; subst hc ha
  have e : msbBits b = [b.getMsbD 0, b.getMsbD 1, b.getMsbD 2, b.getMsbD 3, b.getMsbD 4,
      b.getMsbD 5, b.getMsbD 6, b.getMsbD 7] := rfl
  rw [e] at hb ⊢
  simp only [List.foldl] at hb
  simp [pushBits, pushBit, hn]; exact hb

/-- The bits of a byte sequence complete those bytes. -/
theorem pushBits_bytes (n : Nat) (bytes : List Byte) {d : Decoder} (hc : d.bitCnt = 0)
    (ha : d.bitAcc = 0) (hn : d.byteCnt + bytes.length ≤ n) :
    pushBits n (bytes.flatMap msbBits) d = ({ d with byteCnt := d.byteCnt + bytes.length }, bytes) := by
  induction bytes generalizing d with
  | nil => simp
  | cons b bs ih =>
    simp only [List.length_cons] at hn
    rw [List.flatMap_cons, pushBits_append, pushBits_byte n b hc ha (by omega)]
    simp only [ih (d := { d with byteCnt := d.byteCnt + 1 }) hc ha (by dsimp only; omega),
      List.length_cons]
    simp [Nat.add_assoc, Nat.add_comm]

/-- While fewer bits than wanted are pushed, every bit is counted. -/
theorem pushBits_count (n : Nat) (bs : List Bool) {d : Decoder} (hc : d.bitCnt < 8)
    (hn : 8 * d.byteCnt + d.bitCnt + bs.length < 8 * n) :
    8 * (pushBits n bs d).1.byteCnt + (pushBits n bs d).1.bitCnt =
        8 * d.byteCnt + d.bitCnt + bs.length ∧
      (pushBits n bs d).1.bitCnt < 8 := by
  induction bs generalizing d with
  | nil => simp [hc]
  | cons b bs ih =>
    simp only [List.length_cons] at hn ⊢
    simp only [pushBits]
    rcases pushBit_cases n b d with ⟨h, _⟩ | ⟨_, h8, e⟩ | ⟨_, h8, e⟩
    · omega
    · rw [e]
      have := ih (d := { d with byteCnt := d.byteCnt + 1, bitCnt := 0, bitAcc := 0 })
        (by simp) (by dsimp only; omega)
      dsimp only at this ⊢
      omega
    · rw [e]
      have := ih (d := { d with bitAcc := shiftIn d.bitAcc b, bitCnt := d.bitCnt + 1 })
        (by dsimp only; omega) (by dsimp only; omega)
      dsimp only at this ⊢
      omega

/-- In BITS, pulses that emit fewer bits than wanted leave the Decode under way. -/
theorem neverCompletes_bits (p : Params) (n : Nat) (cs : List PulseClass) {d : Decoder}
    (h : d.phase = .bits) (hc : d.bitCnt < 8) (hn : 8 * d.byteCnt + d.bitCnt + (emittedAll d.bitState cs).length < 8 * n) :
    neverCompletes p n d cs = true := by
  induction cs generalizing d with
  | nil => rfl
  | cons c cs ih =>
    simp only [emittedAll, List.length_append] at hn
    have hp := pushBits_count n (emittedBits d.bitState c)
      (d := { d with bitState := nextBitState d.bitState c }) hc (by dsimp only; omega)
    have hs := feedBits_spec n c d
    rw [neverCompletes, feed_bits h, Bool.and_eq_true]
    dsimp only at hp
    change 8 * (feedBits n c d).1.byteCnt + (feedBits n c d).1.bitCnt = _ ∧ (feedBits n c d).1.bitCnt < 8 at hp
    refine ⟨?_, ih (hs.1.trans h) hp.2 (by rw [hs.2.2.2.1]; omega)⟩
    simp only [decodeComplete, Bool.not_eq_true', Bool.and_eq_false_iff, beq_eq_false_iff_ne]
    right; omega

/-- A run that does not complete the Decode, and one that does. -/
theorem completesAt_append (p : Params) (n : Nat) (d : Decoder) (xs : List PulseClass)
    {ys : List PulseClass} (h : ys ≠ []) : completesAt p n d (xs ++ ys) =
      (neverCompletes p n d xs && completesAt p n (feedAll p n d xs).1 ys) := by
  obtain ⟨zs, c, rfl⟩ := (List.eq_nil_or_concat' ys).resolve_left h
  rw [← List.append_assoc, completesAt_concat, completesAt_concat, neverCompletes_append,
    feedAll_append, Bool.and_assoc]

/-- R137: from the entry to BITS, pulses that emit exactly the bits of `bytes` complete the Decode at the
last of them. -/
theorem decode_bits (p : Params) {d : Decoder} (h : d.phase = .bits) (hs : d.bitState = .odd)
    (ha : d.bitAcc = 0) (hc : d.bitCnt = 0) (hb : d.byteCnt = 0) {bytes : List Byte}
    {cs : List PulseClass} {c : PulseClass}
    (he : emittedAll .odd (cs ++ [c]) = bytes.flatMap msbBits)
    (hl : (emittedAll .odd cs).length < 8 * bytes.length) :
    completesAt p bytes.length d (cs ++ [c]) = true ∧
      (feedAll p bytes.length d (cs ++ [c])).2 = bytes := by
  obtain ⟨f1, f2, f3⟩ := feedAll_bits p bytes.length h (cs ++ [c])
  rw [hs, he, pushBits_bytes _ bytes hc ha (by omega)] at f1 f2
  refine ⟨?_, f1⟩
  rw [completesAt_concat, neverCompletes_bits p _ cs h (by omega) (by rw [hs]; omega), Bool.true_and]
  rw [feedAll_append] at f2 f3
  simp only [feedAll] at f2 f3
  simp only [decodeComplete, f3, f2, hb]
  simp

end Sys2Proof.Machine
end

