-- ==== Sys2Proof/Laws/Encoding.lean ====
section
/-! SUPPORT. The fields of a command word that is put together from its fields, and a word put together
again from its own fields (R90, R92). -/

namespace Sys2Proof.Machine

theorem fieldOpc_ABC (o a b c : Byte) : fieldOpc (wordABC o a b c) = o := by
  apply BitVec.eq_of_getLsbD_eq; intro i hi
  simp only [fieldOpc, wordABC, BitVec.getLsbD_extractLsb', BitVec.getLsbD_append]
  simp [hi]

theorem fieldA_ABC (o a b c : Byte) : fieldA (wordABC o a b c) = a := by
  apply BitVec.eq_of_getLsbD_eq; intro i hi
  simp only [fieldA, wordABC, BitVec.getLsbD_extractLsb', BitVec.getLsbD_append]
  simp [hi, show ¬ (8 + i < 8) by omega]

theorem fieldB_ABC (o a b c : Byte) : fieldB (wordABC o a b c) = b := by
  apply BitVec.eq_of_getLsbD_eq; intro i hi
  simp only [fieldB, wordABC, BitVec.getLsbD_extractLsb', BitVec.getLsbD_append]
  simp [hi, show ¬(16 + i < 8) by omega, show ¬(16 + i - 8 < 8) by omega,
    show 16 + i - 8 - 8 = i by omega]

theorem fieldC_ABC (o a b c : Byte) : fieldC (wordABC o a b c) = c := by
  apply BitVec.eq_of_getLsbD_eq; intro i hi
  simp only [fieldC, wordABC, BitVec.getLsbD_extractLsb', BitVec.getLsbD_append]
  simp [hi, show ¬(24 + i < 8) by omega, show ¬(24 + i - 8 < 8) by omega,
    show ¬(24 + i - 8 - 8 < 8) by omega, show 24 + i - 8 - 8 - 8 = i by omega]

theorem fieldOpc_AW (o a : Byte) (w : Half) : fieldOpc (wordAW o a w) = o := by
  apply BitVec.eq_of_getLsbD_eq; intro i hi
  simp only [fieldOpc, wordAW, BitVec.getLsbD_extractLsb', BitVec.getLsbD_append]
  simp [hi]

theorem fieldA_AW (o a : Byte) (w : Half) : fieldA (wordAW o a w) = a := by
  apply BitVec.eq_of_getLsbD_eq; intro i hi
  simp only [fieldA, wordAW, BitVec.getLsbD_extractLsb', BitVec.getLsbD_append]
  simp [hi, show ¬ (8 + i < 8) by omega]

theorem fieldW_AW (o a : Byte) (w : Half) : fieldW (wordAW o a w) = w := by
  apply BitVec.eq_of_getLsbD_eq; intro i hi
  simp only [fieldW, wordAW, BitVec.getLsbD_extractLsb', BitVec.getLsbD_append]
  simp [hi, show ¬(16 + i < 8) by omega, show ¬(16 + i - 8 < 8) by omega,
    show 16 + i - 8 - 8 = i by omega]

theorem fieldW_ABC (o a : Byte) : fieldW (wordABC o a 0 0) = 0 := by
  apply BitVec.eq_of_getLsbD_eq; intro i hi
  simp only [fieldW, wordABC, BitVec.getLsbD_extractLsb', BitVec.getLsbD_append]
  simp [show ¬(16 + i < 8) by omega, show ¬(16 + i - 8 < 8) by omega]

/-- A word is made of its four byte fields. -/
theorem wordABC_fields (w : Word) :
    wordABC (fieldOpc w) (fieldA w) (fieldB w) (fieldC w) = w := by
  apply BitVec.eq_of_getLsbD_eq; intro i hi
  simp only [wordABC, fieldOpc, fieldA, fieldB, fieldC, BitVec.getLsbD_extractLsb',
    BitVec.getLsbD_append]
  by_cases h1 : i < 8
  · simp [h1]
  · by_cases h2 : i - 8 < 8
    · simp [h1, h2, show 8 + (i - 8) = i by omega]
    · by_cases h3 : i - 8 - 8 < 8
      · simp [h1, h2, h3, show 16 + (i - 8 - 8) = i by omega]
      · simp [h1, h2, h3, show i - 8 - 8 - 8 < 8 by omega, show 24 + (i - 8 - 8 - 8) = i by omega]

/-- A word is made of its fields OPC, A and W. -/
theorem wordAW_fields (w : Word) : wordAW (fieldOpc w) (fieldA w) (fieldW w) = w := by
  apply BitVec.eq_of_getLsbD_eq; intro i hi
  simp only [wordAW, fieldOpc, fieldA, fieldW, BitVec.getLsbD_extractLsb', BitVec.getLsbD_append]
  by_cases h1 : i < 8
  · simp [h1]
  · by_cases h2 : i - 8 < 8
    · simp [h1, h2, show 8 + (i - 8) = i by omega]
    · simp [h1, h2, show i - 8 - 8 < 16 by omega, show 16 + (i - 8 - 8) = i by omega]

/-- W is zero exactly if B and C are. -/
theorem fieldW_eq_zero {w : Word} (h : fieldW w = 0) : fieldB w = 0 ∧ fieldC w = 0 := by
  have key : ∀ i, i < 16 → w.getLsbD (16 + i) = false := by
    intro i hi
    have := congrArg (BitVec.getLsbD · i) h
    simpa [fieldW, BitVec.getLsbD_extractLsb', hi] using this
  constructor <;> (apply BitVec.eq_of_getLsbD_eq; intro i hi)
  · simpa [fieldB, BitVec.getLsbD_extractLsb', hi] using key i (by omega)
  · have := key (i + 8) (by omega)
    simpa [fieldC, BitVec.getLsbD_extractLsb', hi, show 16 + (i + 8) = 24 + i by omega] using this

/-- A masked word, field by field. -/
theorem and_wordABC (w : Word) (o a b c : Byte) : w &&& wordABC o a b c =
    wordABC (fieldOpc w &&& o) (fieldA w &&& a) (fieldB w &&& b) (fieldC w &&& c) := by
  conv => lhs; rw [← wordABC_fields w]
  apply BitVec.eq_of_getLsbD_eq; intro i _
  simp only [wordABC, BitVec.getLsbD_and, BitVec.getLsbD_append]
  split
  · rfl
  · split
    · rfl
    · split <;> rfl

/-- Words are equal exactly if their fields are. -/
theorem wordABC_inj {o a b c o' a' b' c' : Byte} : wordABC o a b c = wordABC o' a' b' c' ↔
    o = o' ∧ a = a' ∧ b = b' ∧ c = c' := by
  constructor
  · intro h
    refine ⟨?_, ?_, ?_, ?_⟩
    · simpa only [fieldOpc_ABC] using congrArg fieldOpc h
    · simpa only [fieldA_ABC] using congrArg fieldA h
    · simpa only [fieldB_ABC] using congrArg fieldB h
    · simpa only [fieldC_ABC] using congrArg fieldC h
  · rintro ⟨rfl, rfl, rfl, rfl⟩; rfl

/-- A word fits a row of the opcode table exactly if its fields do. -/
theorem fits_row_iff (w : Word) (o a b c o' a' b' c' : Byte) :
    w &&& wordABC o a b c = wordABC o' a' b' c' ↔
      fieldOpc w &&& o = o' ∧ fieldA w &&& a = a' ∧ fieldB w &&& b = b' ∧ fieldC w &&& c = c' := by
  rw [and_wordABC, wordABC_inj]

/-- W is zero if B and C are. -/
theorem fieldW_of_zero {w : Word} (hb : fieldB w = 0) (hc : fieldC w = 0) : fieldW w = 0 := by
  conv => lhs; rw [← wordABC_fields w, hb, hc]
  exact fieldW_ABC _ _

/-- R79: the word read from the bytes of a word is that word. -/
theorem wordOfBytes_bytes (w : Word) :
    wordOfBytes (fieldOpc w) (fieldA w) (fieldB w) (fieldC w) = w := wordABC_fields w

end Sys2Proof.Machine
end

