-- ==== Sys2Proof/Laws/Run.lean ====
section
/-! SUPPORT. How a command runs from point to point: the run as one equation per point, an induction
principle for everything a run can do, whole moves of the head and whole calibrations, and what a run does
on given answers of the Pulse Source. -/

namespace Sys2Proof.Machine

/-! ### The run, point by point -/

/-- Each point brings a running command nearer to its end or to the end of the given answers. -/
theorem act_pointsLeft {s : State} {j : Job} (hj : s.job = some j)
    (hd : ∀ d, j = .decoding d → s.pulses ≠ []) : pointsLeft (act j s) < pointsLeft s := by
  have e0 : pointsLeft s = 300 * s.pulses.length + j.distance s := by rw [pointsLeft, hj]
  have key : ∀ (t : State) (j' : Job), t.job = some j' → t.pulses = s.pulses →
      j'.distance t < j.distance s → pointsLeft t < pointsLeft s := by
    intro t j' h1 h2 h3
    rw [e0, pointsLeft, h1, h2]; simp only; omega
  cases j with
  | init =>
    exact key _ .calibrating rfl rfl (by simp [Job.distance, act])
  | calibrating =>
    cases h : trk0Answer s with
    | true =>
      exact key _ (.ending .init .ok) (by simp [act, calibrateTurn_found h])
        (by simp [act, calibrateTurn_found h]) (by simp [Job.distance])
    | false =>
      by_cases hn : s.par.tracks ≤ s.stepCnt
      · exact key _ (.ending .init .track0NotFound) (by simp [act, calibrateTurn_bound h hn])
          (by simp [act, calibrateTurn_bound h hn]) (by simp [Job.distance])
      · exact key _ .calibrating (by simp [act, calibrateTurn_step h (by omega), hj])
          (by simp [act, calibrateTurn_step h (by omega)])
          (by simp [Job.distance, act, calibrateTurn_step h (by omega)]; omega)
  | seek t => exact key _ (.seekCheck t) rfl rfl (by simp [Job.distance])
  | seekCheck t =>
    cases h : seekCheck t s with
    | some e =>
      exact key _ (.ending (.seek t) e) (by simp [act, seekStart, h]) (by simp [act, seekStart, h])
        (by simp only [Job.distance]; omega)
    | none =>
      exact key _ (.seekStep t (seekSteps t s)) (by simp [act, seekStart, h])
        (by simp [act, seekStart, h])
        (by have := seekSteps_le t s; simp only [Job.distance]; omega)
  | seekStep t k =>
    cases k with
    | zero => exact key _ (.ending (.seek t) .ok) rfl rfl (by simp [Job.distance])
    | succ k => exact key _ (.seekStep t k) rfl rfl (by simp [Job.distance])
  | mtick =>
    exact key (act .mtick s) (.ending .mtick .ok) rfl
      (by simp only [act, motorTick]; split <;> simp) (by simp [Job.distance])
  | motor on =>
    exact key (act (.motor on) s) (.ending (.motor on) .ok) rfl (by simp [act]) (by simp [Job.distance])
  | classify d => exact key _ (.ending (.classify d) .ok) rfl rfl (by simp [Job.distance])
  | xlate addr =>
    simp only [act, translateAddr]
    split
    · exact key _ (.ending (.xlate addr) .trackOutOfRange) rfl rfl (by simp [Job.distance])
    · exact key _ (.ending (.xlate addr) .ok) rfl rfl (by simp [Job.distance])
  | rblk addr count =>
    simp only [act, startBlocks]
    split
    · rename_i e _
      exact key _ (.ending (.rblk addr count) e) rfl rfl (by simp [Job.distance])
    · exact key _ _ rfl rfl (by simp [Job.distance])
  | readBegin r => exact key _ (.readCheck r) rfl rfl (by simp [Job.distance])
  | readCheck r =>
    cases h : seekCheck r.cyl s with
    | some e =>
      exact key _ (.ending r.command e) (by simp [act, readStart, h])
        (by simp [act, readStart, h]) (by simp [Job.distance])
    | none =>
      exact key _ (.readMove r) (by simp [act, readStart, h])
        (by simp [act, readStart, h]) (by simp [Job.distance])
  | readMove r =>
    exact key _ (.readStep r (seekSteps r.cyl s)) rfl rfl
      (by have := seekSteps_le r.cyl s; simp only [Job.distance]; omega)
  | readStep r k =>
    cases k with
    | zero =>
      have hp := (locateTry_kept 1 (.readId r)
        (driveLine .headSel (r.head != 0) (seekArrive r.cyl s))).2.2.2.1
      rcases locateTry_job 1 (.readId r) (driveLine .headSel (r.head != 0) (seekArrive r.cyl s)) with
        e | e <;> exact key _ _ e hp (by simp [Job.distance])
    | succ k => exact key _ (.readStep r k) rfl rfl (by simp [Job.distance])
  | decoding d =>
    obtain ⟨a, as, hp⟩ := List.exists_cons_of_ne_nil (hd d rfl)
    obtain ⟨j', e1, _, e2⟩ := takeAnswer_job hj
    have hl : (takeAnswer d s).pulses = as := by rw [(takeAnswer_kept d s).2.2.2.1, hp]; rfl
    have hdist : ∀ t, j'.distance t ≤ 261 := by
      intro t
      rcases e2 with ⟨c, _, rfl⟩ | ⟨d', rfl⟩ | ⟨r, rfl⟩ <;> simp [Job.distance]
    have := hdist (takeAnswer d s)
    rw [e0, pointsLeft, act, e1, hl, hp]
    simp only [List.length_cons]; omega
  | ending i c =>
    rw [e0, pointsLeft]
    simp [act, Job.distance]

theorem waits_of_idle {s : State} (h : s.busy = false) : waits s = true := by simp [waits, h]

/-- A command that does not wait is at a point, and, inside Decode, has an answer to take. -/
theorem waits_eq_false {s : State} : waits s = false ↔ s.busy = true ∧
    ∃ j, s.job = some j ∧ ∀ d, j = .decoding d → s.pulses ≠ [] := by
  unfold waits
  rcases hj : s.job with _ | j
  · simp
  · cases j <;> simp

theorem waits_of_pointsLeft {s : State} (h : pointsLeft s = 0) : waits s = true := by
  cases hw : waits s with
  | true => rfl
  | false =>
    obtain ⟨_, j, hj, hd⟩ := waits_eq_false.mp hw
    have := act_pointsLeft hj hd
    omega

theorem advance_eq {s : State} {j : Job} (hj : s.job = some j) : advance s = act j s := by
  rw [advance, hj]

theorem advanceN_enough {k : Nat} {s : State} (hk : pointsLeft s ≤ k) : advanceN k s = run s := by
  have key : ∀ k k' (s : State), pointsLeft s ≤ k → pointsLeft s ≤ k' →
      advanceN k s = advanceN k' s := by
    intro k
    induction k with
    | zero =>
      intro k' s h _
      have hw := waits_of_pointsLeft (s := s) (by omega)
      cases k' with
      | zero => rfl
      | succ k' => rw [advanceN, advanceN, if_pos hw]
    | succ k ih =>
      intro k' s h h'
      cases hw : waits s with
      | true =>
        rw [advanceN, if_pos hw]
        cases k' with
        | zero => rfl
        | succ k' => rw [advanceN, if_pos hw]
      | false =>
        obtain ⟨_, j, hj, hd⟩ := waits_eq_false.mp hw
        have hlt := act_pointsLeft hj hd
        rw [← advance_eq hj] at hlt
        obtain ⟨k', rfl⟩ : ∃ m, k' = m + 1 := ⟨k' - 1, by omega⟩
        rw [advanceN, advanceN, if_neg (by simp [hw]), if_neg (by simp [hw])]
        exact ih k' (advance s) (by omega) (by omega)
  exact key k _ s hk (Nat.le_refl _)

/-- Nothing is left to run. -/
theorem run_of_waits {s : State} (h : waits s = true) : run s = s := by
  rw [← advanceN_enough (k := pointsLeft s + 1) (by omega), advanceN, if_pos h]

/-- A run goes on by one point. -/
theorem run_advance {s : State} (h : waits s = false) : run s = run (advance s) := by
  obtain ⟨_, j, hj, hd⟩ := waits_eq_false.mp h
  have hlt := act_pointsLeft hj hd
  rw [← advance_eq hj] at hlt
  rw [← advanceN_enough (k := pointsLeft s + 1) (by omega), advanceN, if_neg (by simp [h])]
  exact advanceN_enough (by omega)

theorem run_act {s : State} {j : Job} (hb : s.busy = true) (hj : s.job = some j)
    (hd : ∀ d, j = .decoding d → s.pulses ≠ []) : run s = run (act j s) := by
  rw [run_advance (waits_eq_false.mpr ⟨hb, j, hj, hd⟩), advance_eq hj]

/-- A run from a point outside Decode. -/
theorem run_goto {j : Job} (hd : ∀ d, j ≠ .decoding d) {s : State} (hb : s.busy = true) :
    run (goto j s) = run (act j (goto j s)) :=
  run_act hb rfl fun d e => absurd e (hd d)

theorem run_idle {s : State} (h : s.busy = false) : run s = s := run_of_waits (waits_of_idle h)

/-- A run from the result: RESULT is written and BUSY cleared. -/
theorem run_endWith (i : Instr) (c : ResultCode) {s : State} (hb : s.busy = true) :
    run (endWith i c s) = finish c s := by
  rw [endWith, run_goto (by simp) hb, run_idle (by simp)]; rfl

theorem run_sectorFail (r : SectorRead) (c : ResultCode) {s : State} (hb : s.busy = true) :
    run (sectorFail r c s) = finish c (drawBuf (slotBase r.slot) sectorSize s) := by
  rw [sectorFail, run_endWith _ _ (by simpa using hb)]

/-- R263: the end of a failed ReadSector, as one update. -/
theorem finish_slot (slot : Nat) (code : ResultCode) (s : State) :
    finish code (drawBuf (slotBase slot) sectorSize s) = { s with
      mem := s.mem.setAll (512 * slot) (freeBytes s.draws 512)
      draws := s.draws + 512
      result := code, busy := false, job := none } := by
  have h : slotBase slot = 512 * slot := by simp [slotBase, outBase, sectorSize]
  simp only [finish, drawBuf, h, sectorSize]

/-- A run ends with nothing left to run. -/
theorem run_waits (s : State) : waits (run s) = true := by
  have key : ∀ k (s : State), pointsLeft s ≤ k → waits (run s) = true := by
    intro k
    induction k with
    | zero =>
      intro s h
      have hw := waits_of_pointsLeft (s := s) (by omega)
      rw [run_of_waits hw, hw]
    | succ k ih =>
      intro s h
      cases hw : waits s with
      | true => rw [run_of_waits hw, hw]
      | false =>
        obtain ⟨_, j, hj, hd⟩ := waits_eq_false.mp hw
        have hlt := act_pointsLeft hj hd
        rw [run_advance hw, advance_eq hj]
        exact ih _ (by omega)
  exact key _ s (Nat.le_refl _)

/-- A property that every point of command `i` keeps, a run of `i` keeps. -/
theorem run_induct {i : Instr} {P : State → Prop}
    (hact : ∀ (u : State) (j : Job), u.busy = true → u.job = some j → j.command = i → P u →
      P (act j u)) {s : State} (hr : ∀ j, s.job = some j → j.command = i) (hs : P s) : P (run s) := by
  have key : ∀ k (s : State), pointsLeft s ≤ k → (∀ j, s.job = some j → j.command = i) → P s →
      P (run s) := by
    intro k
    induction k with
    | zero =>
      intro s h _ hs
      rw [run_of_waits (waits_of_pointsLeft (by omega))]; exact hs
    | succ k ih =>
      intro s h hr hs
      cases hw : waits s with
      | true => rw [run_of_waits hw]; exact hs
      | false =>
        obtain ⟨hb, j, hj, hd⟩ := waits_eq_false.mp hw
        have hlt := act_pointsLeft hj hd
        rw [run_advance hw, advance_eq hj]
        refine ih _ (by omega) ?_ (hact s j hb hj (hr j hj) hs)
        by_cases hn : ∀ i c, j ≠ .ending i c
        · obtain ⟨_, _, j', e1, e2⟩ := act_goes_on hj hn
          intro j'' e
          rw [e1] at e; cases e
          rw [e2]; exact hr j hj
        · simp only [not_forall, not_not] at hn
          obtain ⟨i', c, rfl⟩ := hn
          simp
  exact key _ s (Nat.le_refl _) hr hs

/-! ### How every command starts -/

/-- The point at which a command that has been accepted begins. -/
def start (i : Instr) (s : State) : State :=
  match i with
  | .init => goto .init s
  | .seek t => goto (.seek t) s
  | .rsec cyl head sec => goto (.readBegin { cyl, head, sec, slot := 0, caller := .rsec }) s
  | .rblk addr count => goto (.rblk addr count) s
  | .mtick => goto .mtick s
  | .motor on => goto (.motor on) s
  | .classify d => goto (.classify d) s
  | .xlate addr => goto (.xlate addr) s
  | .decode n => beginDecode (.decode n) s
  | .locate c h sec => locateTry 1 (.locate c h sec) s
  | .rbody => beginDecode .rbody s

/-- A well-formed command is accepted, and starts. -/
theorem exec_start {i : Instr} (h : i.wf = true) (s : State) :
    exec i s = .next (launch (start i (accept s))) := by
  cases i with
  | decode n =>
    simp only [exec, execDecode]
    rw [if_pos (show n.toNat ≤ bodySize from of_decide_eq_true h)]; rfl
  | _ => rfl

theorem exec_run {i : Instr} (h : i.wf = true) {s : State} (hs : s.stepwise = false) :
    exec i s = .next (run (start i (accept s))) := by
  have e : (start i (accept s)).stepwise = false := by
    cases i with
    | locate c hd sec => exact (locateTry_kept _ _ _).1.stepwise.trans hs
    | _ => exact hs
  rw [exec_start h, launch, if_neg (by simp [e])]

/-- Accepting a command writes nothing but BUSY and the working registers. -/
theorem start_eq (i : Instr) (s : State) : start i s =
    { s with job := (start i s).job, dec := (start i s).dec, attempt := (start i s).attempt } := by
  cases i with
  | locate c h sec =>
    simp only [start, locateTry]
    split <;> rfl
  | _ => rfl

theorem start_job (i : Instr) (s : State) : ∃ j, (start i s).job = some j ∧ j.command = i := by
  cases i with
  | locate c h sec =>
    rcases locateTry_job 1 (.locate c h sec) s with e | e <;> exact ⟨_, e, rfl⟩
  | _ => exact ⟨_, rfl, rfl⟩

theorem wf_or_long (i : Instr) : i.wf = true ∨ ∃ n : Half, i = .decode n ∧ ¬n.toNat ≤ bodySize := by
  cases i with
  | decode n =>
    by_cases h : n.toNat ≤ bodySize
    · exact .inl (decide_eq_true (show n.toNat ≤ maxDecodeLength from h))
    · exact .inr ⟨n, rfl, h⟩
  | _ => exact .inl rfl

/-- R95: a DECODE above 515 bytes, which no word decodes to. -/
theorem exec_long {n : Half} (h : ¬n.toNat ≤ bodySize) (s : State) :
    exec (.decode n) s = .next (rejectWord s) := by
  simp only [exec, execDecode]; rw [if_neg h]

/-! ### Whole moves of the head, whole calibrations -/

/-- R225, R262: a SEEK inside SeekMove runs to its arrival. -/
theorem run_seekStep (t : Byte) (k : Nat) {s : State} (hb : s.busy = true) :
    run (goto (.seekStep t k) s) = finish .ok (seekArrive t (stepPulses k s)) := by
  induction k generalizing s with
  | zero =>
    rw [run_goto (by simp) hb]
    exact run_endWith _ _ hb
  | succ k ih =>
    rw [run_goto (by simp) hb]
    exact ih (s := stepPulse s) hb

/-- R262: SEEK from its start to its end. -/
theorem run_seek (t : Byte) {s : State} (hb : s.busy = true) : run (goto (.seek t) s) =
    match seekCheck t (recordTime s) with
    | some e => finish e (recordTime s)
    | none => finish .ok (seekMove t (recordTime s)) := by
  have e1 : run (goto (.seek t) s) = run (goto (.seekCheck t) (recordTime s)) := run_goto (by simp) hb
  have hb' : (recordTime s).busy = true := hb
  rw [e1, run_goto (by simp) hb']
  cases h : seekCheck t (recordTime s) with
  | some e =>
    have h' : seekCheck t (goto (.seekCheck t) (recordTime s)) = some e := h
    simp only [act, seekStart, h']
    exact run_endWith _ _ hb
  | none =>
    have h' : seekCheck t (goto (.seekCheck t) (recordTime s)) = none := h
    simp only [act, seekStart, h']
    exact run_seekStep t _ (s := seekAim t (recordTime s)) hb

/-- R263: a ReadSector inside SeekMove runs to its arrival, HEAD_SEL and its first attempt. -/
theorem run_readStep (r : SectorRead) (k : Nat) {s : State} (hb : s.busy = true) :
    run (goto (.readStep r k) s) = run (locateTry 1 (.readId r)
      (driveLine .headSel (r.head != 0) (seekArrive r.cyl (stepPulses k s)))) := by
  induction k generalizing s with
  | zero =>
    rw [run_goto (by simp) hb]
    exact congrArg run (locateTry_goto 1 (.readId r) (.readStep r 0)
      (driveLine .headSel (r.head != 0) (seekArrive r.cyl s)))
  | succ k ih =>
    rw [run_goto (by simp) hb]
    exact ih (s := stepPulse s) hb

/-- R263: ReadSector from its start: it fails at SeekCheck before the motor is started, or the head is
positioned and the first attempt begins. -/
theorem run_readBegin (r : SectorRead) {s : State} (hb : s.busy = true) : run (goto (.readBegin r) s) =
    match seekCheck r.cyl (recordTime s) with
    | some e => finish e (drawBuf (slotBase r.slot) sectorSize (recordTime s))
    | none => run (locateTry 1 (.readId r) (positionHead r.cyl r.head (recordTime s))) := by
  have e1 : run (goto (.readBegin r) s) = run (goto (.readCheck r) (recordTime s)) :=
    run_goto (by simp) hb
  have hb' : (recordTime s).busy = true := hb
  rw [e1, run_goto (by simp) hb']
  cases h : seekCheck r.cyl (recordTime s) with
  | some e =>
    have h' : seekCheck r.cyl (goto (.readCheck r) (recordTime s)) = some e := h
    simp only [act, readStart, h']
    exact run_sectorFail _ _ (s := recordTime s) hb
  | none =>
    have h' : seekCheck r.cyl (goto (.readCheck r) (recordTime s)) = none := h
    simp only [act, readStart, h']
    rw [setMotor_goto, run_goto (by simp) (by simpa using hb)]
    exact run_readStep r _ (s := seekAim r.cyl (setMotor true (recordTime s))) (by simpa using hb)

/-- R222: INIT starts its loop. -/
theorem run_init {s : State} (hb : s.busy = true) :
    run (goto .init s) = run (goto .calibrating (calibrateStart s)) := run_goto (by simp) hb

/-- R222: the loop that sees TRK0 true ends INIT in READY. -/
theorem run_calibrating_found {s : State} (hb : s.busy = true) (hj : s.job = some .calibrating)
    (h : trk0Answer s = true) :
    run s = finish .ok { takeTrk0 s with currentTrack := 0, initialized := true } := by
  rw [run_act hb hj (by simp), act, calibrateTurn_found h]; exact run_endWith _ _ hb

/-- R223: the loop that sees TRK0 false at the bound ends INIT. -/
theorem run_calibrating_bound {s : State} (hb : s.busy = true) (hj : s.job = some .calibrating)
    (h : trk0Answer s = false) (hn : s.par.tracks ≤ s.stepCnt) :
    run s = finish .track0NotFound (takeTrk0 s) := by
  rw [run_act hb hj (by simp), act, calibrateTurn_bound h hn]; exact run_endWith _ _ hb

/-- R222: the loop that sees TRK0 false below the bound goes on. -/
theorem run_calibrating_step {s : State} (hb : s.busy = true) (hj : s.job = some .calibrating)
    (h : trk0Answer s = false) (hn : s.stepCnt < s.par.tracks) :
    run s = run (countStep (stepPulse (takeTrk0 s))) := by
  rw [run_act hb hj (by simp), act, calibrateTurn_step h hn]

/-! ### Runs on given answers -/

theorem run_decoding {d : Decoding} {s : State} (hb : s.busy = true) (hj : s.job = some (.decoding d))
    {a : PulseAnswer} {as : List PulseAnswer} (hp : s.pulses = a :: as) :
    run s = run (takeAnswer d s) := run_act hb hj fun _ _ => by simp [hp]

/-- The state after a waiting Decode `d` has taken the pulses `ds` and is still under way or complete:
its registers have advanced, its bytes are stored, and the answers are gone. -/
def afterPulses (d : Decoding) (ds : List Nat) (rest : List PulseAnswer) (s : State) : State :=
  { s with
    dec := (feedAll s.par d.need s.dec (ds.map (classify s.par))).1
    mem := s.mem.setAll (d.base + s.dec.offset)
      (feedAll s.par d.need s.dec (ds.map (classify s.par))).2
    pulses := rest
    trace := (answers ds).reverse.map .nextPulse ++ s.trace }

theorem afterPulses_nil (d : Decoding) (s : State) : afterPulses d [] s.pulses s = s := by
  simp [afterPulses, feedAll, answers]

/-- One pulse of a run. -/
theorem afterPulses_cons (d : Decoding) (x : Nat) (ds : List Nat) (rest : List PulseAnswer) {s : State}
    (h : s.pulses = .pulse x :: (answers ds ++ rest)) :
    afterPulses d ds rest (feedPulse d x (takePulse s)) = afterPulses d (x :: ds) rest s := by
  have ha : pulseAnswer s = .pulse x := by simp [pulseAnswer, h]
  have hoff := feed_offset s.par d.need s.dec (classify s.par x)
  have hmem : ∀ m : Memory, m.setAll (d.base + s.dec.byteCnt)
      (feed s.par d.need s.dec (classify s.par x)).2 = m.setAll (d.base + s.dec.offset)
      (feed s.par d.need s.dec (classify s.par x)).2 := by
    intro m
    by_cases hb : s.dec.phase = .bits
    · simp [Decoder.offset, hb]
    · rw [hoff.2 hb]; rfl
  simp only [afterPulses, feedPulse, takePulse, emit, ha, List.map_cons, feedAll, hmem, hoff.1,
    Memory.setAll_append, Nat.add_assoc, answers, List.reverse_cons, List.map_append, List.map_nil,
    List.append_assoc, List.singleton_append, List.isEmpty_eq_false_iff.mpr (h ▸ List.cons_ne_nil _ _ : s.pulses ≠ [])]
  simp

/-- A waiting command takes the pulses of an unfinished Decode one by one. -/
theorem run_underWay {d : Decoding} {s : State} (hb : s.busy = true)
    (hj : s.job = some (.decoding d)) (ds : List Nat) (rest : List PulseAnswer)
    (h : s.pulses = answers ds ++ rest)
    (hn : neverCompletes s.par d.need s.dec (ds.map (classify s.par)) = true) :
    run s = run (afterPulses d ds rest s) := by
  induction ds generalizing s with
  | nil =>
    have e : rest = s.pulses := h.symm
    subst e; rw [afterPulses_nil]
  | cons x ds ih =>
    simp only [List.map_cons, neverCompletes, Bool.and_eq_true, Bool.not_eq_true'] at hn
    have h' : s.pulses = .pulse x :: (answers ds ++ rest) := h
    have ha : pulseAnswer s = .pulse x := by simp [pulseAnswer, h']
    have hadv : takeAnswer d s = feedPulse d x (takePulse s) := by
      have : ¬decodeComplete d.need (feedPulse d x (takePulse s)).dec = true := by simp [hn.1]
      simp only [takeAnswer, ha, settleDecode]
      rw [if_neg this]
    rw [run_decoding hb hj h', hadv, ih (by simpa using hb) (by simpa using hj) (by simp [h'])
        (by simpa using hn.2), afterPulses_cons d x ds rest h']

@[simp] theorem afterPulses_busy (d : Decoding) (ds : List Nat) (rest : List PulseAnswer) (s : State) :
    (afterPulses d ds rest s).busy = s.busy := rfl
@[simp] theorem afterPulses_job (d : Decoding) (ds : List Nat) (rest : List PulseAnswer) (s : State) :
    (afterPulses d ds rest s).job = s.job := rfl
@[simp] theorem afterPulses_pulses (d : Decoding) (ds : List Nat) (rest : List PulseAnswer) (s : State) :
    (afterPulses d ds rest s).pulses = rest := rfl

/-- A waiting command whose Decode the pulses complete goes on with that Decode's OK. -/
theorem run_completes {d : Decoding} {s : State} (hb : s.busy = true)
    (hj : s.job = some (.decoding d)) {ds : List Nat} {rest : List PulseAnswer}
    (h : s.pulses = answers ds ++ rest)
    (hc : completesAt s.par d.need s.dec (ds.map (classify s.par)) = true) :
    run s = run (decodeOk d (endDecode (afterPulses d ds rest s))) := by
  rcases List.eq_nil_or_concat' ds with rfl | ⟨xs, x, rfl⟩
  · simp [completesAt] at hc
  · rw [List.map_append, List.map_singleton, completesAt_concat, Bool.and_eq_true] at hc
    have h' : s.pulses = answers xs ++ (.pulse x :: rest) := by simpa [answers] using h
    rw [run_underWay hb hj xs _ h' hc.1]
    set u := afterPulses d xs (.pulse x :: rest) s with hu
    have hup : u.pulses = .pulse x :: (answers [] ++ rest) := rfl
    have ha : pulseAnswer u = .pulse x := by simp [pulseAnswer, hup]
    have he : feedPulse d x (takePulse u) = afterPulses d (xs ++ [x]) rest s := by
      have h0 := afterPulses_cons d x [] rest hup
      have h1 : afterPulses d [] rest (feedPulse d x (takePulse u)) = feedPulse d x (takePulse u) := by
        have := afterPulses_nil d (feedPulse d x (takePulse u))
        simpa [hup, answers] using this
      rw [← h1, h0, hu]
      simp only [afterPulses, List.map_append, feedAll_append, List.map_cons, List.map_nil,
        Memory.setAll_append, feedAll_offset, Nat.add_assoc, answers, List.reverse_append,
        List.reverse_cons, List.reverse_nil, List.nil_append, List.append_assoc]
    have hadv : takeAnswer d u = decodeOk d (endDecode (feedPulse d x (takePulse u))) := by
      have hcc : decodeComplete d.need (feedPulse d x (takePulse u)).dec = true := hc.2
      simp only [takeAnswer, ha, settleDecode]
      rw [if_pos hcc]
    rw [run_decoding (s := u) hb hj hup, hadv, he]

/-- A waiting command whose Decode meets a Timeout goes on with that Decode's NoPulse. -/
theorem run_timeout {d : Decoding} {s : State} (hb : s.busy = true) (hj : s.job = some (.decoding d))
    {ds : List Nat} {rest : List PulseAnswer} (h : s.pulses = answers ds ++ .timeout :: rest)
    (hn : neverCompletes s.par d.need s.dec (ds.map (classify s.par)) = true) :
    run s = run (decodeNoPulse d (takePulse (afterPulses d ds (.timeout :: rest) s))) := by
  rw [run_underWay hb hj ds _ h hn,
    run_decoding (s := afterPulses d ds (.timeout :: rest) s) hb hj rfl]
  congr 1

/-- Answers that never complete the Decode leave the command waiting. -/
theorem run_stillWaits {d : Decoding} {s : State} (hb : s.busy = true)
    (hj : s.job = some (.decoding d)) {ds : List Nat} (h : s.pulses = answers ds)
    (hn : neverCompletes s.par d.need s.dec (ds.map (classify s.par)) = true) :
    run s = afterPulses d ds [] s := by
  rw [run_underWay hb hj ds [] (by simpa using h) hn]
  exact run_of_waits (by simp [waits, hj])

/-! ### More answers -/

/-- The script with more answers at its end, these accesses of the host pending, and `stepwise` set. -/
def giveMore (as : List PulseAnswer) (hm : List HostMove) (sw : Bool) (s : State) : State :=
  { s with pulses := s.pulses ++ as, host := hm, stepwise := sw }

/-! Every update but the query of the Pulse Source commutes with that. -/

section
variable (as : List PulseAnswer) (hm : List HostMove) (sw : Bool) (s : State)

theorem goto_giveMore (j : Job) : goto j (giveMore as hm sw s) = giveMore as hm sw (goto j s) := rfl
theorem endWith_giveMore (i : Instr) (c : ResultCode) :
    endWith i c (giveMore as hm sw s) = giveMore as hm sw (endWith i c s) := rfl
theorem drawBuf_giveMore (base n : Nat) :
    drawBuf base n (giveMore as hm sw s) = giveMore as hm sw (drawBuf base n s) := rfl
theorem writeBuf_giveMore (base : Nat) (bs : List Byte) :
    writeBuf base bs (giveMore as hm sw s) = giveMore as hm sw (writeBuf base bs s) := rfl
theorem beginDecode_giveMore (d : Decoding) :
    beginDecode d (giveMore as hm sw s) = giveMore as hm sw (beginDecode d s) := rfl
theorem endDecode_giveMore : endDecode (giveMore as hm sw s) = giveMore as hm sw (endDecode s) := rfl
theorem feedPulse_giveMore (d : Decoding) (x : Nat) :
    feedPulse d x (giveMore as hm sw s) = giveMore as hm sw (feedPulse d x s) := rfl
theorem startBlock_giveMore (addr : Half) (count : Byte) (i : Nat) :
    startBlock addr count i (giveMore as hm sw s) = giveMore as hm sw (startBlock addr count i s) := rfl
theorem takeNow_giveMore : takeNow (giveMore as hm sw s) = giveMore as hm sw (takeNow s) := rfl

theorem setMotor_giveMore (on : Bool) :
    setMotor on (giveMore as hm sw s) = giveMore as hm sw (setMotor on s) := by
  rw [setMotor_eq, setMotor_eq]
  by_cases h : s.motorOn = on
  · rw [if_pos h, if_pos (show (giveMore as hm sw s).motorOn = on from h)]
  · rw [if_neg h, if_neg (show ¬(giveMore as hm sw s).motorOn = on from h)]; rfl

theorem sectorFail_giveMore (r : SectorRead) (c : ResultCode) :
    sectorFail r c (giveMore as hm sw s) = giveMore as hm sw (sectorFail r c s) := by
  rw [sectorFail, drawBuf_giveMore, endWith_giveMore, sectorFail]

theorem bufBytes_giveMore (base n : Nat) : bufBytes (giveMore as hm sw s) base n = bufBytes s base n :=
  List.map_congr_left fun _ _ => rfl

theorem copySlot_giveMore (slot : Nat) :
    copySlot slot (giveMore as hm sw s) = giveMore as hm sw (copySlot slot s) := by
  rw [copySlot, bufBytes_giveMore, writeBuf_giveMore, copySlot]

theorem bodyVerdict_giveMore : bodyVerdict (giveMore as hm sw s) = bodyVerdict s := by
  unfold bodyVerdict bodyCrcOk
  rw [bufBytes_giveMore]; rfl

theorem locateFail_giveMore (d : Decoding) (c : ResultCode) :
    locateFail d c (giveMore as hm sw s) = giveMore as hm sw (locateFail d c s) := by
  cases d with
  | readId r => exact sectorFail_giveMore as hm sw s r c
  | _ => rfl

theorem locateTry_giveMore (k : Nat) (d : Decoding) :
    locateTry k d (giveMore as hm sw s) = giveMore as hm sw (locateTry k d s) := by
  unfold locateTry
  by_cases h : k ≤ s.par.locateAttempts
  · rw [if_pos h, if_pos (show k ≤ (giveMore as hm sw s).par.locateAttempts from h)]; rfl
  · rw [if_neg h, if_neg (show ¬k ≤ (giveMore as hm sw s).par.locateAttempts from h), locateFail_giveMore]

theorem locateJudge_giveMore (d : Decoding) (c h sec : Byte)
    {found : State → State} (hf : found (giveMore as hm sw s) = giveMore as hm sw (found s)) :
    locateJudge d c h sec found (giveMore as hm sw s) = giveMore as hm sw (locateJudge d c h sec found s) := by
  have e : recordMatches c h sec (giveMore as hm sw s) = recordMatches c h sec s := by
    unfold recordMatches recordCrcOk
    rw [bufBytes_giveMore]; rfl
  unfold locateJudge
  by_cases h1 : recordMisplaced c s = true
  · rw [if_pos h1, if_pos (show recordMisplaced c (giveMore as hm sw s) = true from h1),
      ← locateFail_giveMore]; rfl
  · rw [if_neg h1, if_neg (show ¬recordMisplaced c (giveMore as hm sw s) = true from h1), e]
    by_cases h2 : recordMatches c h sec s = true
    · rw [if_pos h2, if_pos h2, hf]
    · rw [if_neg h2, if_neg h2]
      exact locateTry_giveMore as hm sw s (s.attempt + 1) d

theorem sectorDone_giveMore (r : SectorRead) :
    sectorDone r (giveMore as hm sw s) = giveMore as hm sw (sectorDone r s) := by
  unfold sectorDone
  split
  · rw [copySlot_giveMore, endWith_giveMore]
  · rename_i addr count _
    rw [copySlot_giveMore]
    by_cases h : s.blockIdx + 1 < count.toNat
    · rw [if_pos h, if_pos (show (giveMore as hm sw s).blockIdx + 1 < count.toNat from h)]
      exact startBlock_giveMore ..
    · rw [if_neg h, if_neg (show ¬(giveMore as hm sw s).blockIdx + 1 < count.toNat from h), endWith_giveMore]

theorem decodeOk_giveMore (d : Decoding) :
    decodeOk d (giveMore as hm sw s) = giveMore as hm sw (decodeOk d s) := by
  cases d with
  | decode n => rfl
  | rbody => simp only [decodeOk, bodyVerdict_giveMore, endWith_giveMore]
  | locate c h sec => exact locateJudge_giveMore as hm sw s _ _ _ _ rfl
  | readId r => exact locateJudge_giveMore as hm sw s _ _ _ _ rfl
  | readBody r =>
    simp only [decodeOk, sectorJudge, bodyVerdict_giveMore]
    split
    · exact sectorDone_giveMore as hm sw s r
    · exact sectorFail_giveMore as hm sw s r _

theorem decodeNoPulse_giveMore (d : Decoding) :
    decodeNoPulse d (giveMore as hm sw s) = giveMore as hm sw (decodeNoPulse d s) := by
  cases d with
  | locate c h sec =>
    simp only [decodeNoPulse, drawBuf_giveMore]
    exact locateTry_giveMore as hm sw _ _ _
  | readId r =>
    simp only [decodeNoPulse, drawBuf_giveMore]
    exact locateTry_giveMore as hm sw _ _ _
  | readBody r => simp only [decodeNoPulse, drawBuf_giveMore, sectorFail_giveMore]
  | _ => simp only [decodeNoPulse, drawBuf_giveMore, endWith_giveMore]

end

theorem takePulse_giveMore (as : List PulseAnswer) (hm : List HostMove) (sw : Bool) {s : State}
    (h : as = [] ∨ s.pulses ≠ []) : pulseAnswer (giveMore as hm sw s) = pulseAnswer s ∧
      takePulse (giveMore as hm sw s) = giveMore as hm sw (takePulse s) := by
  rcases h with rfl | h
  · constructor <;> simp [giveMore, pulseAnswer, takePulse, emit]
  · obtain ⟨a, l, hp⟩ := List.exists_cons_of_ne_nil h
    constructor <;> simp [giveMore, pulseAnswer, takePulse, emit, hp]

/-- Answers that come later change nothing before they are asked for, and the host's pending accesses change
nothing that a command does. -/
theorem act_giveMore (as : List PulseAnswer) (hm : List HostMove) (sw : Bool) {j : Job} {s : State}
    (hd : ∀ d, j = .decoding d → as = [] ∨ s.pulses ≠ []) :
    act j (giveMore as hm sw s) = giveMore as hm sw (act j s) := by
  cases j with
  | calibrating =>
    cases h1 : trk0Answer s with
    | true =>
      rw [act, act, calibrateTurn_found h1, calibrateTurn_found (s := giveMore as hm sw s) h1]; rfl
    | false =>
      by_cases h2 : s.par.tracks ≤ s.stepCnt
      · rw [act, act, calibrateTurn_bound h1 h2, calibrateTurn_bound (s := giveMore as hm sw s) h1 h2]; rfl
      · rw [act, act, calibrateTurn_step h1 (by omega),
          calibrateTurn_step (s := giveMore as hm sw s) h1 (show s.stepCnt < s.par.tracks by omega)]; rfl
  | seekCheck t =>
    have e : seekCheck t (giveMore as hm sw s) = seekCheck t s := rfl
    simp only [act, seekStart, e]
    split <;> rfl
  | seekStep t k => cases k <;> rfl
  | mtick =>
    have e : idleExpired (nowAnswer (giveMore as hm sw s)) (giveMore as hm sw s) = idleExpired (nowAnswer s) s := rfl
    simp only [act, motorTick, e, takeNow_giveMore, setMotor_giveMore]
    split <;> rfl
  | motor on => simp only [act, setMotor_giveMore, endWith_giveMore]
  | xlate addr =>
    have e : (giveMore as hm sw s).par = s.par := rfl
    simp only [act, translateAddr, e]
    split <;> rfl
  | rblk addr count =>
    have e : blockCheck addr count (giveMore as hm sw s) = blockCheck addr count s := rfl
    simp only [act, startBlocks, e]
    split <;> rfl
  | readCheck r =>
    have e : seekCheck r.cyl (giveMore as hm sw s) = seekCheck r.cyl s := rfl
    simp only [act, readStart, e, setMotor_giveMore, sectorFail_giveMore, goto_giveMore]
    split <;> rfl
  | readStep r k =>
    cases k with
    | zero =>
      exact locateTry_giveMore as hm sw (driveLine .headSel (r.head != 0) (seekArrive r.cyl s)) 1 (.readId r)
    | succ k => rfl
  | decoding d =>
    obtain ⟨e1, e2⟩ := takePulse_giveMore as hm sw (hd d rfl)
    simp only [act, takeAnswer, e1, e2]
    split
    · exact decodeNoPulse_giveMore as hm sw _ d
    · rename_i x _
      rw [feedPulse_giveMore, settleDecode, settleDecode]
      by_cases h : decodeComplete d.need (feedPulse d x (takePulse s)).dec = true
      · rw [if_pos h, if_pos (show decodeComplete d.need
          (giveMore as hm sw (feedPulse d x (takePulse s))).dec = true from h), endDecode_giveMore]
        exact decodeOk_giveMore as hm sw _ d
      · rw [if_neg h, if_neg (show ¬decodeComplete d.need
          (giveMore as hm sw (feedPulse d x (takePulse s))).dec = true from h)]
  | _ => rfl

/-- A run on more answers goes as the run on fewer, then on from there. -/
theorem run_giveMore (as : List PulseAnswer) (hm : List HostMove) (sw : Bool) (s : State) :
    run (giveMore as hm sw s) = run (giveMore as hm sw (run s)) := by
  have key : ∀ k (s : State), pointsLeft s ≤ k →
      run (giveMore as hm sw s) = run (giveMore as hm sw (run s)) := by
    intro k
    induction k with
    | zero =>
      intro s h
      rw [run_of_waits (s := s) (waits_of_pointsLeft (by omega))]
    | succ k ih =>
      intro s h
      cases hw : waits s with
      | true => rw [run_of_waits hw]
      | false =>
        obtain ⟨hb, j, hj, hd⟩ := waits_eq_false.mp hw
        have hlt := act_pointsLeft hj hd
        have hmore : ∀ d, j = .decoding d → (giveMore as hm sw s).pulses ≠ [] := fun d e => by
          simp [giveMore, hd d e]
        rw [run_act (s := giveMore as hm sw s) hb hj hmore,
          act_giveMore as hm sw fun d e => .inr (hd d e), run_act hb hj hd]
        exact ih _ (by omega)
  exact key _ s (Nat.le_refl _)

end Sys2Proof.Machine
end

