-- ==== Sys2Proof/Laws/Locate.lean ====
section
/-! SUPPORT. What a Locate, a ReadBody and a ReadSector do on given answers of the Pulse Source. -/

namespace Sys2Proof.Machine

/-! ### One Decode on given answers -/

/-- The bytes a Decode has produced never outnumber the bytes wanted. -/
theorem feed_offset_le {p : Params} {n : Nat} {d : Decoder} (h : d.offset ≤ n) (c : PulseClass) :
    (feed p n d c).1.offset ≤ n := by
  by_cases hb : d.phase = .bits
  · have hs := feedBits_spec n c d
    simp only [Decoder.offset, hb, if_true] at h
    rw [feed_bits hb, Decoder.offset, if_pos (hs.1.trans hb)]
    exact hs.2.2.2.2.2.1 h
  · rw [(feed_offset p n d c).1, (feed_offset p n d c).2 hb]; simpa using h

theorem feedAll_offset_le {p : Params} {n : Nat} {d : Decoder} (h : d.offset ≤ n)
    (cs : List PulseClass) : (feedAll p n d cs).1.offset ≤ n := by
  induction cs generalizing d with
  | nil => exact h
  | cons c cs ih => exact ih (feed_offset_le h c)

/-- What a Decode can have produced before it is complete. -/
theorem feedAll_length_le (p : Params) (n : Nat) (d : Decoder) (cs : List PulseClass) :
    (feedAll p n (decoderStart d) cs).2.length ≤ n := by
  have h0 : (decoderStart d).offset = 0 := by simp [Decoder.offset, decoderStart]
  have := feedAll_offset p n (decoderStart d) cs
  have := feedAll_offset_le (p := p) (n := n) (d := decoderStart d) (by omega) cs
  omega

/-- The drive state, the lines, the other oracles and the host's side are the same. -/
structure SameDrive (s u : State) : Prop extends SameUnits s u where
  currentTrack : u.currentTrack = s.currentTrack
  blockIdx : u.blockIdx = s.blockIdx

theorem SameDrive.rfl {s : State} : SameDrive s s := ⟨.refl s, Eq.refl _, Eq.refl _⟩

theorem SameDrive.trans {s t u : State} (h : SameDrive s t) (h' : SameDrive t u) : SameDrive s u where
  toSameUnits := h.toSameUnits.trans h'.toSameUnits
  currentTrack := h'.currentTrack.trans h.currentTrack
  blockIdx := h'.blockIdx.trans h.blockIdx

/-- ATTEMPT is no part of that. -/
theorem SameDrive.setAttempt {s u : State} {k : Nat} (h : SameDrive { s with attempt := k } u) :
    SameDrive s u :=
  ⟨⟨h.par, h.initialized, h.motorOn, h.lastOpTime, h.lines, h.rdata, h.stepCnt, h.stepwise, h.trk0s,
    h.nows, h.host, h.hostData⟩, h.currentTrack, h.blockIdx⟩

/-- Nor are the buffers and the count of the free values. -/
theorem SameDrive.drawBuf {s u : State} (h : SameDrive s u) (base n : Nat) :
    SameDrive s (drawBuf base n u) :=
  ⟨⟨h.par, h.initialized, h.motorOn, h.lastOpTime, h.lines, h.rdata, h.stepCnt, h.stepwise, h.trk0s,
    h.nows, h.host, h.hostData⟩, h.currentTrack, h.blockIdx⟩

/-- `s` and `u` hold the same bytes outside `n` bytes from `base` on. -/
def SameOutside (base n : Nat) (s u : State) : Prop :=
  ∀ a, a < base ∨ base + n ≤ a → bufByte u a = bufByte s a

theorem SameOutside.setAll {s u : State} {base n : Nat} {bs : List Byte} (hp : u.par = s.par)
    (hm : u.mem = s.mem.setAll base bs) (hl : bs.length ≤ n) : SameOutside base n s u :=
  fun _ ha => bufByte_outside hp hm (by omega)

/-- A fresh Decode whose answers complete it. -/
theorem decode_completes (j : Decoding) {s : State} (hb : s.busy = true) {ds : List Nat}
    {bytes : List Byte} {rest : List PulseAnswer} (hp : s.pulses = answers ds ++ rest)
    (hd : DecodesTo s.par j.need ds bytes) :
    ∃ u : State, run (beginDecode j s) = run (decodeOk j u) ∧ SameDrive s u ∧
      u.busy = true ∧ u.result = s.result ∧ u.attempt = s.attempt ∧ u.draws = s.draws ∧
      u.dec.phase = .done ∧ u.mem = s.mem.setAll j.base bytes ∧ u.pulses = rest ∧
      u.trace = (answers ds).reverse.map .nextPulse ++ s.trace := by
  have hsim := Sim_decoderStart s.dec .reset
  rw [decoderStart_reset] at hsim
  have hc := completesAt_sim s.par j.need hsim (ds.map (classify s.par))
  have hf := (feedAll_sim s.par j.need hsim (ds.map (classify s.par))).2.trans hd.2
  rw [run_completes (d := j) (s := beginDecode j s) hb rfl (by simpa using hp)
    (hc.trans hd.1)]
  exact ⟨_, rfl, ⟨⟨rfl, rfl, rfl, rfl, rfl, rfl, rfl, rfl, rfl, rfl, rfl, rfl⟩, rfl, rfl⟩, hb, rfl, rfl,
    rfl, rfl, by rw [← hf]; rfl, rfl, rfl⟩

/-- A fresh Decode that meets a Timeout. -/
theorem decode_timesOut (j : Decoding) {s : State} (hb : s.busy = true) {ds : List Nat}
    {rest : List PulseAnswer} (hp : s.pulses = answers ds ++ .timeout :: rest)
    (hd : KeepsDecoding s.par j.need ds) :
    ∃ u : State, run (beginDecode j s) = run (decodeNoPulse j u) ∧ SameDrive s u ∧
      u.busy = true ∧ u.result = s.result ∧ u.attempt = s.attempt ∧ u.draws = s.draws ∧
      SameOutside j.base j.need s u ∧ u.pulses = rest ∧
      u.trace = (answers ds ++ [PulseAnswer.timeout]).reverse.map .nextPulse ++ s.trace := by
  have hsim := Sim_decoderStart s.dec .reset
  rw [decoderStart_reset] at hsim
  have hn := neverCompletes_sim s.par j.need hsim (ds.map (classify s.par))
  rw [run_timeout (d := j) (s := beginDecode j s) hb rfl (by simpa using hp) (hn.trans hd)]
  refine ⟨_, rfl, ⟨⟨rfl, rfl, rfl, rfl, rfl, rfl, rfl, rfl, rfl, rfl, rfl, rfl⟩, rfl, rfl⟩, hb, rfl, rfl,
    rfl, ?_, rfl, ?_⟩
  · exact SameOutside.setAll (bs := (feedAll s.par j.need (decoderStart s.dec)
      (ds.map (classify s.par))).2) rfl rfl (feedAll_length_le _ _ _ _)
  · rw [List.reverse_append]; rfl

/-! ### The attempts of a Locate -/

/-- The two commands that run a Locate: what they do when its Decode ends. -/
structure Locating (j : Decoding) (c h sec : Byte) (found : State → State) : Prop where
  need : j.need = amSize
  base : j.base = amBase
  ok : ∀ s, decodeOk j s = locateJudge j c h sec found s
  noPulse : ∀ s, decodeNoPulse j s = locateTry (s.attempt + 1) j (drawBuf j.base j.need s)

theorem locating_locate (c h sec : Byte) :
    Locating (.locate c h sec) c h sec (endWith (.locate c h sec) .ok) :=
  ⟨rfl, rfl, fun _ => rfl, fun _ => rfl⟩

theorem locating_readId (r : SectorRead) :
    Locating (.readId r) r.cyl r.head r.sec (beginDecode (.readBody r)) :=
  ⟨rfl, rfl, fun _ => rfl, fun _ => rfl⟩

/-- The record in AM_BUF. -/
theorem record_bytes {s u : State} {bytes : List Byte} (hm : u.mem = s.mem.setAll amBase bytes)
    (hl : bytes.length = amSize) (k : Nat) (hk : k < 7) :
    bufByte u (amBase + k) = bytes.getD k 0 := by
  have hk' : k < bytes.length := by rw [hl]; exact hk
  rw [bufByte_inside hm hk']
  simp [List.getD_eq_getElem?_getD, hk']

/-- R184: one failed attempt leads to the next one, and leaves the drive alone. -/
theorem Locating.attempt_fails {j : Decoding} {c h sec : Byte} {found : State → State}
    (hj : Locating j c h sec found) {s : State} (hb : s.busy = true) {as rest : List PulseAnswer}
    (hp : s.pulses = as ++ rest) (hf : FailedAttempt s.par c h sec as) {k : Nat}
    (hk : k ≤ s.par.locateAttempts) :
    ∃ u : State, run (locateTry k j s) = run (locateTry (k + 1) j u) ∧ SameDrive s u ∧
      u.busy = true ∧ u.result = s.result ∧ SameOutside amBase amSize s u ∧ u.pulses = rest ∧
      u.trace = as.reverse.map .nextPulse ++ s.trace := by
  rw [locateTry, if_pos hk]
  rcases hf with ⟨ds, bytes, rfl, hd, hr⟩ | ⟨ds, rfl, hd⟩
  · obtain ⟨u, e, hs, h1, h2, h3, h4, h5, h6, h7, h8⟩ :=
      decode_completes j (s := { s with attempt := k }) hb hp (by rw [hj.need]; exact hd)
    rw [hj.base] at h6
    have hl := hd.length
    have hrec := record_bytes h6 hl
    have h3 : u.attempt = k := h3
    obtain ⟨m, cy, hd', se, res, hi, lo, rfl, hcase⟩ := hr
    have b0 : bufByte u amBase = m := hrec 0 (by omega)
    have b1 : bufByte u (amBase + 1) = cy := hrec 1 (by omega)
    have b2 : bufByte u (amBase + 2) = hd' := hrec 2 (by omega)
    have b3 : bufByte u (amBase + 3) = se := hrec 3 (by omega)
    have b5 : bufByte u (amBase + 5) = hi := hrec 5 (by omega)
    have b6 : bufByte u (amBase + 6) = lo := hrec 6 (by omega)
    have bb : bufBytes u amBase 5 = [m, cy, hd', se, res] := by
      rw [bufBytes_written h6 (by rw [hl]; decide)]; rfl
    have hpar : u.par = s.par := hs.par
    have hmis : recordMisplaced c u = false := by
      simp only [recordMisplaced, recordMark, recordCyl, b0, b1]
      rcases hcase with hm | ⟨rfl, _⟩
      · rw [beq_eq_false_iff_ne.mpr hm, Bool.false_and]
      · simp
    have hmat : recordMatches c h sec u = false := by
      simp only [recordMatches, recordMark, recordCyl, recordHead, recordSec, recordCrcOk, b0, b1,
        b2, b3, b5, b6, bb, hpar]
      rcases hcase with hm | ⟨rfl, hm | hm | hm⟩ <;> simp only [beq_eq_false_iff_ne.mpr hm] <;> simp
    refine ⟨u, ?_, hs.setAttempt,
      h1, h2, SameOutside.setAll hs.par h6 (le_of_eq hl), h7, h8⟩
    rw [e, hj.ok, locateJudge, hmis, hmat, h3]; rfl
  · obtain ⟨u, e, hs, h1, h2, h3, h4, h5, h7, h8⟩ :=
      decode_timesOut j (s := { s with attempt := k }) hb (by simpa using hp)
        (by rw [hj.need]; exact hd)
    have h3 : u.attempt = k := h3
    rw [hj.need, hj.base] at h5
    refine ⟨drawBuf j.base j.need u, ?_, hs.setAttempt.drawBuf _ _, h1, h2, ?_, h7, h8⟩
    · rw [e, hj.noPulse, h3]
    · intro a ha
      have hm : (drawBuf j.base j.need u).mem = u.mem.setAll amBase (freeBytes u.draws amSize) := by
        rw [hj.base, hj.need]; rfl
      have hout := bufByte_outside (s := u) (t := drawBuf j.base j.need u) rfl hm (a := a)
        (by rw [freeBytes_length]; exact ha)
      exact hout.trans (h5 a ha)

/-- R184, R187: a sequence of failed attempts. -/
theorem Locating.attempts_fail {j : Decoding} {c h sec : Byte} {found : State → State}
    (hj : Locating j c h sec found) (fails : List (List PulseAnswer)) {s : State}
    (hb : s.busy = true) {rest : List PulseAnswer} (hp : s.pulses = fails.flatten ++ rest)
    (hf : ∀ as ∈ fails, FailedAttempt s.par c h sec as) {k : Nat}
    (hk : k + fails.length ≤ s.par.locateAttempts + 1) :
    ∃ u : State, run (locateTry k j s) = run (locateTry (k + fails.length) j u) ∧
      SameDrive s u ∧ u.busy = true ∧ u.result = s.result ∧ SameOutside amBase amSize s u ∧
      u.pulses = rest ∧ u.trace = fails.flatten.reverse.map .nextPulse ++ s.trace := by
  induction fails generalizing s k with
  | nil => exact ⟨s, rfl, .rfl, hb, rfl, fun _ _ => rfl, hp, rfl⟩
  | cons as fails ih =>
    simp only [List.length_cons] at hk
    rw [List.flatten_cons, List.append_assoc] at hp
    obtain ⟨u, e, hs, h1, h2, h3, h4, h5⟩ := hj.attempt_fails hb hp (hf as List.mem_cons_self)
      (k := k) (by omega)
    obtain ⟨v, e', hs', h1', h2', h3', h4', h5'⟩ := ih h1 h4
      (fun x hx => by rw [hs.par]; exact hf x (List.mem_cons_of_mem _ hx)) (k := k + 1)
      (by rw [hs.par]; omega)
    refine ⟨v, ?_, hs.trans hs', h1', h2'.trans h2, fun a ha => (h3' a ha).trans (h3 a ha), h4', ?_⟩
    · rw [e, e', List.length_cons]; congr 2; omega
    · rw [h5', h5]; simp

/-- R181: a matching record after the failed attempts. -/
theorem Locating.finds {j : Decoding} {c h sec : Byte} {found : State → State}
    (hj : Locating j c h sec found) {fails : List (List PulseAnswer)} {s : State}
    (hb : s.busy = true) {ids : List Nat} {record : List Byte} {rest : List PulseAnswer}
    (hp : s.pulses = fails.flatten ++ (answers ids ++ rest))
    (hf : ∀ as ∈ fails, FailedAttempt s.par c h sec as)
    (hk : fails.length < s.par.locateAttempts) (hd : DecodesTo s.par amSize ids record)
    (hr : MatchingRecord s.par c h sec record) :
    ∃ u : State, run (locateTry 1 j s) = run (found u) ∧ SameDrive s u ∧
      u.busy = true ∧ u.result = s.result ∧ u.attempt = fails.length + 1 ∧
      SameOutside amBase amSize s u ∧ (∀ k, k < 7 → bufByte u (amBase + k) = record.getD k 0) ∧
      u.pulses = rest ∧
      u.trace = (fails.flatten ++ answers ids).reverse.map .nextPulse ++ s.trace := by
  obtain ⟨u, e, hs, h1, h2, h3, h4, h5⟩ := hj.attempts_fail fails hb hp hf (k := 1) (by omega)
  have hk' : 1 + fails.length ≤ u.par.locateAttempts := by rw [hs.par]; omega
  rw [locateTry.eq_1 (1 + fails.length), if_pos hk'] at e
  obtain ⟨v, e', hs', h1', h2', h3', h4', h5', h6', h7', h8'⟩ :=
    decode_completes j (s := { u with attempt := 1 + fails.length }) h1 h4
      (by rw [hj.need]; show DecodesTo u.par _ _ _; rw [hs.par]; exact hd)
  rw [hj.base] at h6'
  have hl := hd.length
  have hrec := record_bytes h6' hl
  have hsv : SameDrive s v := hs.trans hs'.setAttempt
  have h3' : v.attempt = 1 + fails.length := h3'
  obtain ⟨res, hi, lo, rfl, hcrc⟩ := hr
  have b0 : bufByte v amBase = 0xFE := hrec 0 (by omega)
  have b1 : bufByte v (amBase + 1) = c := hrec 1 (by omega)
  have b2 : bufByte v (amBase + 2) = h := hrec 2 (by omega)
  have b3 : bufByte v (amBase + 3) = sec := hrec 3 (by omega)
  have b5 : bufByte v (amBase + 5) = hi := hrec 5 (by omega)
  have b6 : bufByte v (amBase + 6) = lo := hrec 6 (by omega)
  have bb : bufBytes v amBase 5 = [0xFE, c, h, sec, res] := by
    rw [bufBytes_written h6' (by rw [hl]; decide)]; rfl
  have hmis : recordMisplaced c v = false := by
    simp [recordMisplaced, recordMark, recordCyl, b0, b1]
  have hmat : recordMatches c h sec v = true := by
    simp only [recordMatches, recordMark, recordCyl, recordHead, recordSec, recordCrcOk, b0, b1, b2, b3,
      b5, b6, bb, hsv.par, hcrc, beq_self_eq_true, Bool.and_self]
  refine ⟨v, ?_, hsv, h1', h2'.trans h2, by omega, ?_, hrec, h7', ?_⟩
  · rw [e, e', hj.ok, locateJudge, hmis, hmat]; rfl
  · exact fun a ha => (bufByte_outside (s := u) hs'.par h6' (by rw [hl]; exact ha)).trans (h3 a ha)
  · rw [h8']; dsimp only; rw [h5]; simp

/-- R183: a record on another cylinder after the failed attempts. -/
theorem Locating.misplaced {j : Decoding} {c h sec : Byte} {found : State → State}
    (hj : Locating j c h sec found) {fails : List (List PulseAnswer)} {s : State}
    (hb : s.busy = true) {ids : List Nat} {seen : Byte} {more : List Byte} {rest : List PulseAnswer}
    (hp : s.pulses = fails.flatten ++ (answers ids ++ rest))
    (hf : ∀ as ∈ fails, FailedAttempt s.par c h sec as)
    (hk : fails.length < s.par.locateAttempts) (hd : DecodesTo s.par amSize ids (0xFE :: seen :: more))
    (hne : seen ≠ c) :
    ∃ u : State, run (locateTry 1 j s) =
        run (locateFail j .seekError { u with currentTrack := seen }) ∧ SameDrive s u ∧
      u.busy = true ∧ u.result = s.result ∧ u.attempt = fails.length + 1 ∧
      SameOutside amBase amSize s u ∧ u.pulses = rest ∧
      u.trace = (fails.flatten ++ answers ids).reverse.map .nextPulse ++ s.trace := by
  obtain ⟨u, e, hs, h1, h2, h3, h4, h5⟩ := hj.attempts_fail fails hb hp hf (k := 1) (by omega)
  have hk' : 1 + fails.length ≤ u.par.locateAttempts := by rw [hs.par]; omega
  rw [locateTry.eq_1 (1 + fails.length), if_pos hk'] at e
  obtain ⟨v, e', hs', h1', h2', h3', h4', h5', h6', h7', h8'⟩ :=
    decode_completes j (s := { u with attempt := 1 + fails.length }) h1 h4
      (by rw [hj.need]; show DecodesTo u.par _ _ _; rw [hs.par]; exact hd)
  rw [hj.base] at h6'
  have hl := hd.length
  have hrec := record_bytes h6' hl
  have hsv : SameDrive s v := hs.trans hs'.setAttempt
  have h3' : v.attempt = 1 + fails.length := h3'
  have b0 : bufByte v amBase = 0xFE := hrec 0 (by omega)
  have b1 : bufByte v (amBase + 1) = seen := hrec 1 (by omega)
  have hmis : recordMisplaced c v = true := by
    simp only [recordMisplaced, recordMark, recordCyl, b0, b1, bne_iff_ne.mpr hne]
    rfl
  refine ⟨v, ?_, hsv, h1', h2'.trans h2, by omega, ?_, h7', ?_⟩
  · rw [e, e', hj.ok, locateJudge, hmis, recordCyl, b1]; rfl
  · exact fun a ha => (bufByte_outside (s := u) hs'.par h6' (by rw [hl]; exact ha)).trans (h3 a ha)
  · rw [h8']; dsimp only; rw [h5]; simp

/-- R185: every attempt fails. -/
theorem Locating.exhausted {j : Decoding} {c h sec : Byte} {found : State → State}
    (hj : Locating j c h sec found) {fails : List (List PulseAnswer)} {s : State}
    (hb : s.busy = true) {rest : List PulseAnswer} (hp : s.pulses = fails.flatten ++ rest)
    (hf : ∀ as ∈ fails, FailedAttempt s.par c h sec as)
    (hk : fails.length = s.par.locateAttempts) :
    ∃ u : State, run (locateTry 1 j s) = run (locateFail j .sectorNotFound u) ∧ SameDrive s u ∧
      u.busy = true ∧ SameOutside amBase amSize s u ∧ u.pulses = rest := by
  obtain ⟨u, e, hs, h1, h2, h3, h4, h5⟩ := hj.attempts_fail fails hb hp hf (k := 1) (by omega)
  refine ⟨u, ?_, hs, h1, h3, h4⟩
  rw [e, locateTry, if_neg (by rw [hs.par]; omega)]

/-! ### ReadSector -/

/-- R201: the verdict on a decoded body. -/
theorem bodyVerdict_eq {s u : State} {body : List Byte} (hm : u.mem = s.mem.setAll bodyBase body)
    (hl : body.length = 515) : bodyVerdict u = bodyResult u.par body := by
  have hb : ∀ k, k < 515 → bufByte u (bodyBase + k) = body.getD k 0 := fun k hk => by
    rw [bufByte_inside hm (by omega)]; simp [List.getD_eq_getElem?_getD, hl, hk]
  have h0 := hb 0 (by omega)
  rw [Nat.add_zero] at h0
  have hg : body[0]? = some (body.getD 0 0) := by
    simp [List.getD_eq_getElem?_getD, hl]
  unfold bodyVerdict bodyResult bodyCrcOk
  rw [h0, hb 513 (by omega), hb 514 (by omega), bufBytes_written hm (by omega), hg]
  simp only [ne_eq, Option.some.injEq, beq_iff_eq]

/-- R263: a READY ReadSector positions the head and begins its first attempt. -/
theorem run_readBegin_ready (r : SectorRead) {s : State} (hb : s.busy = true)
    (hi : s.initialized = true) (hc : r.cyl.toNat < s.par.tracks) :
    run (goto (.readBegin r) s) =
      run (locateTry 1 (.readId r) (positionHead r.cyl r.head (recordTime s))) := by
  have h : seekCheck r.cyl (recordTime s) = none := seekCheck_none.mpr ⟨hi, hc⟩
  rw [run_readBegin r hb, h]

/-- R263: a ReadSector whose Locate finds its record reads the body. -/
theorem readSector_finds (r : SectorRead) {s : State}
    (hb : s.busy = true) (hi : s.initialized = true) (hc : r.cyl.toNat < s.par.tracks)
    {fails : List (List PulseAnswer)} {ids : List Nat} {record : List Byte}
    {rest : List PulseAnswer} (hk : fails.length < s.par.locateAttempts)
    (hf : ∀ as ∈ fails, FailedAttempt s.par r.cyl r.head r.sec as)
    (hp : s.pulses = fails.flatten ++ (answers ids ++ rest))
    (hd : DecodesTo s.par amSize ids record) (hr : MatchingRecord s.par r.cyl r.head r.sec record) :
    ∃ u : State, run (goto (.readBegin r) s) = run (beginDecode (.readBody r) u) ∧
      SameDrive (positionHead r.cyl r.head (recordTime s)) u ∧ u.busy = true ∧ u.pulses = rest ∧
      (∀ i, i < 7 → bufByte u (amBase + i) = record.getD i 0) ∧ SameOutside amBase amSize s u := by
  have hpar : (positionHead r.cyl r.head (recordTime s)).par = s.par := by simp
  have hmem : (positionHead r.cyl r.head (recordTime s)).mem = s.mem := by simp
  obtain ⟨u, e1, hs, h1, h2, h3, h4, h5, h6, h7⟩ :=
    (locating_readId r).finds (s := positionHead r.cyl r.head (recordTime s))
      (by simpa using hb) (by simpa using hp) (by rw [hpar]; exact hf)
      (by rw [hpar]; exact hk) (by rw [hpar]; exact hd) (by rw [hpar]; exact hr)
  exact ⟨u, by rw [run_readBegin_ready r hb hi hc, e1], hs, h1, h6, h5,
    fun a ha => (h4 a ha).trans (bufByte_congr hpar hmem a)⟩

/-- R263: a ReadSector whose Locate succeeds and whose body decodes comes to its verdict. -/
theorem readSector_decodes (r : SectorRead) {s : State}
    (hb : s.busy = true) (hi : s.initialized = true) (hc : r.cyl.toNat < s.par.tracks)
    {fails : List (List PulseAnswer)} {ids bds : List Nat} {record body : List Byte}
    {rest : List PulseAnswer} (hk : fails.length < s.par.locateAttempts)
    (hf : ∀ as ∈ fails, FailedAttempt s.par r.cyl r.head r.sec as)
    (hp : s.pulses = fails.flatten ++ (answers ids ++ (answers bds ++ rest)))
    (hd : DecodesTo s.par amSize ids record) (hr : MatchingRecord s.par r.cyl r.head r.sec record)
    (hbd : DecodesTo s.par bodySize bds body) :
    ∃ v : State, run (goto (.readBegin r) s) = run (sectorJudge r v) ∧
      SameDrive (positionHead r.cyl r.head (recordTime s)) v ∧ v.busy = true ∧ v.pulses = rest ∧
      bodyVerdict v = bodyResult s.par body ∧
      (∀ i, i < 7 → bufByte v (amBase + i) = record.getD i 0) ∧
      (∀ i, i < 515 → bufByte v (bodyBase + i) = body.getD i 0) ∧
      ∀ a, a < bodyBase → bufByte v a = bufByte s a := by
  have hpar : (positionHead r.cyl r.head (recordTime s)).par = s.par := by simp
  obtain ⟨u, e1, hs, h1, h6, h5, h4⟩ := readSector_finds r hb hi hc hk hf hp hd hr
  obtain ⟨v, e2, hs', h1', h2', h3', h4', h5', h6', h7', h8'⟩ :=
    decode_completes (.readBody r) h1 h6 (by rw [hs.par, hpar]; exact hbd)
  have hl := hbd.length
  have hm : v.mem = u.mem.setAll bodyBase body := h6'
  have hb5 : bodyBase = 0x8000 := rfl
  have ha5 : amBase = 0x8400 := rfl
  have hbs : bodySize = 515 := rfl
  have has : amSize = 7 := rfl
  refine ⟨v, ?_, hs.trans hs', h1', h7', ?_, ?_, ?_, ?_⟩
  · rw [e1, e2]; rfl
  · rw [bodyVerdict_eq hm hl, hs'.par, hs.par, hpar]
  · intro i hi
    rw [bufByte_outside hs'.par hm (by omega), h5 i hi]
  · intro i hi
    rw [bufByte_inside hm (by omega)]; simp [List.getD_eq_getElem?_getD, hl, hbs, hi]
  · intro a ha
    rw [bufByte_outside hs'.par hm (by omega), h4 a (by omega)]

/-- R138, R263: a ReadSector whose body meets a Timeout ends with NoPulse. -/
theorem readSector_timesOut (r : SectorRead) {s : State}
    (hb : s.busy = true) (hi : s.initialized = true) (hc : r.cyl.toNat < s.par.tracks)
    {fails : List (List PulseAnswer)} {ids bds : List Nat} {record : List Byte}
    {rest : List PulseAnswer} (hk : fails.length < s.par.locateAttempts)
    (hf : ∀ as ∈ fails, FailedAttempt s.par r.cyl r.head r.sec as)
    (hp : s.pulses = fails.flatten ++ (answers ids ++ (answers bds ++ .timeout :: rest)))
    (hd : DecodesTo s.par amSize ids record) (hr : MatchingRecord s.par r.cyl r.head r.sec record)
    (hbd : KeepsDecoding s.par bodySize bds) :
    ∃ v : State, run (goto (.readBegin r) s) = run (sectorFail r .noPulse v) ∧
      SameDrive (positionHead r.cyl r.head (recordTime s)) v ∧ v.busy = true ∧ v.pulses = rest ∧
      ∀ a, a < bodyBase → bufByte v a = bufByte s a := by
  have hpar : (positionHead r.cyl r.head (recordTime s)).par = s.par := by simp
  obtain ⟨u, e1, hs, h1, h6, h5, h4⟩ := readSector_finds r hb hi hc hk hf hp hd hr
  obtain ⟨v, e2, hs', h1', h2', h3', h4', h5', h7', h8'⟩ :=
    decode_timesOut (.readBody r) h1 h6 (by rw [hs.par, hpar]; exact hbd)
  have hb5 : bodyBase = 0x8000 := rfl
  have ha5 : amBase = 0x8400 := rfl
  refine ⟨Machine.drawBuf (Decoding.readBody r).base (Decoding.readBody r).need v,
    e1.trans (e2.trans (congrArg run (by simp only [decodeNoPulse]))),
    (hs.trans hs').drawBuf _ _, by simpa using h1', by simpa using h7', ?_⟩
  intro a ha
  have hm : (Machine.drawBuf (Decoding.readBody r).base (Decoding.readBody r).need v).mem =
    v.mem.setAll bodyBase (freeBytes v.draws (Decoding.readBody r).need) := drawBuf_mem ..
  rw [bufByte_outside (s := v) (drawBuf_par ..) hm (.inl ha), h5' a (.inl ha), h4 a (by omega)]

/-- R263: the copy of the data to the slot. -/
theorem bufByte_copySlot (slot : Nat) (s : State) {j : Nat} (hj : j < 512) :
    bufByte (copySlot slot s) (512 * slot + j) = bufByte s (bodyBase + 1 + j) := by
  have hm : (copySlot slot s).mem =
      s.mem.setAll (512 * slot) (bufBytes s (bodyBase + 1) sectorSize) := by
    simp [copySlot, slotBase, outBase, sectorSize, writeBuf]
  rw [bufByte_inside hm (by rw [bufBytes_length]; exact hj)]
  simp [bufBytes]

/-- R263: nothing but the slot changes in the copy. -/
theorem bufByte_copySlot_outside (slot : Nat) (s : State) {a : Nat}
    (ha : a < 512 * slot ∨ 512 * slot + 512 ≤ a) : bufByte (copySlot slot s) a = bufByte s a := by
  have hm : (copySlot slot s).mem =
      s.mem.setAll (512 * slot) (bufBytes s (bodyBase + 1) sectorSize) := by
    simp [copySlot, slotBase, outBase, sectorSize, writeBuf]
  exact bufByte_outside (by simp) hm (by rw [bufBytes_length]; exact ha)

end Sys2Proof.Machine
end

