-- ==== Sys2Proof/Laws/PerInstr.lean ====
section
/-! SUPPORT. The statements made per instruction. -/

namespace Sys2Proof.Laws.EncodesInRow

open Machine

/-- The command's word fits its own row of the opcode table, whatever its operands (R94). -/
def Statement (i : Instr) : Prop :=
  ∃ row ∈ opcodeTable, row.1 = i.mnemonic ∧ encode i &&& row.2.2 = row.2.1

theorem init : Statement .init := ⟨("INIT", 0x00000001, 0xFFFFFFFF), by decide, rfl, rfl⟩

theorem seek (t : Byte) : Statement (.seek t) :=
  ⟨("SEEK", 0x00000002, 0xFFFF00FF), by decide, rfl,
    (fits_row_iff _ 0xFF 0 0xFF 0xFF 2 0 0 0).mpr (by
      simp only [encode, fieldOpc_ABC, fieldA_ABC, fieldB_ABC, fieldC_ABC]; simp)⟩

theorem rsec (c h s : Byte) : Statement (.rsec c h s) :=
  ⟨("RSEC", 0x00000003, 0x000000FF), by decide, rfl,
    (fits_row_iff _ 0xFF 0 0 0 3 0 0 0).mpr (by simp only [encode, fieldOpc_ABC]; simp)⟩

theorem rblk (addr : Half) (count : Byte) : Statement (.rblk addr count) :=
  ⟨("RBLK", 0x00000004, 0x000000FF), by decide, rfl,
    (fits_row_iff _ 0xFF 0 0 0 4 0 0 0).mpr (by simp only [encode, fieldOpc_AW]; simp)⟩

theorem mtick : Statement .mtick := ⟨("MTICK", 0x00000005, 0xFFFFFFFF), by decide, rfl, rfl⟩

theorem motor (on : Bool) : Statement (.motor on) :=
  ⟨("MOTOR", 0x00000006, 0xFFFFFEFF), by decide, rfl, by cases on <;> rfl⟩

theorem classify (d : Half) : Statement (.classify d) :=
  ⟨("CLASSIFY", 0x00000010, 0x0000FFFF), by decide, rfl,
    (fits_row_iff _ 0xFF 0xFF 0 0 0x10 0 0 0).mpr (by
      simp only [encode, fieldOpc_AW, fieldA_AW]; simp)⟩

theorem xlate (addr : Half) : Statement (.xlate addr) :=
  ⟨("XLATE", 0x00000011, 0x0000FFFF), by decide, rfl,
    (fits_row_iff _ 0xFF 0xFF 0 0 0x11 0 0 0).mpr (by
      simp only [encode, fieldOpc_AW, fieldA_AW]; simp)⟩

theorem decode (n : Half) : Statement (.decode n) :=
  ⟨("DECODE", 0x00000012, 0x0000FFFF), by decide, rfl,
    (fits_row_iff _ 0xFF 0xFF 0 0 0x12 0 0 0).mpr (by
      simp only [encode, fieldOpc_AW, fieldA_AW]; simp)⟩

theorem locate (c h s : Byte) : Statement (.locate c h s) :=
  ⟨("LOCATE", 0x00000013, 0x000000FF), by decide, rfl,
    (fits_row_iff _ 0xFF 0 0 0 0x13 0 0 0).mpr (by simp only [encode, fieldOpc_ABC]; simp)⟩

theorem rbody : Statement .rbody := ⟨("RBODY", 0x00000014, 0xFFFFFFFF), by decide, rfl, rfl⟩

end Sys2Proof.Laws.EncodesInRow
end

