-- ==== Sys2Proof/Laws/Step.lean ====
section
/-! SUPPORT. Everything a step can do, said once: it runs a command, advances a running one, or leaves the
core's own state alone; and the start of every command that waits for pulses. -/

namespace Sys2Proof.Machine

/-- Everything a step that answers a next state can do. -/
theorem step_cases {s t : State} (h : step s = .next t) :
    (∃ i rest w, s.busy = false ∧ s.host = .writeReg 0 w :: rest ∧ decodeWord w = .ok i ∧
      exec i { s with host := rest } = .next t) ∨
    (∃ rest, (s.host = [] ∧ rest = [] ∨ s.host = .idle :: rest) ∧ s.busy = true ∧
      t = advance { s with host := rest }) ∨
    (∃ rest hd dr r,
      t = { s with host := rest, hostData := hd, draws := dr, result := r, job := t.job } ∧
      (r = s.result ∧ t.job = s.job ∨ r = .badCommand ∧ s.busy = false ∧ t.job = none)) := by
  unfold step at h
  split at h
  · cases h
    unfold turn; split
    · right; left; exact ⟨[], .inl ⟨‹_›, rfl⟩, ‹_›, by rename_i hh _; rw [← hh]⟩
    · right; right; exact ⟨s.host, s.hostData, s.draws, s.result, rfl, .inl ⟨rfl, rfl⟩⟩
  · rename_i m rest hm
    cases m with
    | writeReg off w =>
      simp only [hostMove] at h
      split at h
      · unfold writeRegister at h
        split at h
        · rename_i h0; subst h0
          unfold writeCmd at h
          split at h
          · cases h; right; right; exact ⟨rest, s.hostData, s.draws, s.result, rfl, .inl ⟨rfl, rfl⟩⟩
          · rename_i hb
            have hb : s.busy = false := by simpa using hb
            split at h
            · left; exact ⟨_, rest, w, hb, hm, ‹_›, h⟩
            · cases h; right; right
              refine ⟨rest, s.hostData, s.draws, .badCommand, ?_, .inr ⟨rfl, hb, rfl⟩⟩
              simp [rejectWord, finish, accept, hb]
        · cases h; right; right; exact ⟨rest, s.hostData, s.draws, s.result, rfl, .inl ⟨rfl, rfl⟩⟩
      · cases h
    | readReg off =>
      simp only [hostMove] at h
      split at h
      · cases h; right; right
        unfold hostReadReg; split
        · exact ⟨rest, _, _, s.result, rfl, .inl ⟨rfl, rfl⟩⟩
        · exact ⟨rest, _, _, s.result, rfl, .inl ⟨rfl, rfl⟩⟩
      · cases h
    | readBuf a =>
      cases h; right; right
      unfold hostReadBuf; split
      · exact ⟨rest, _, _, s.result, rfl, .inl ⟨rfl, rfl⟩⟩
      · exact ⟨rest, _, _, s.result, rfl, .inl ⟨rfl, rfl⟩⟩
    | writeBuf a b => cases h; right; right; exact ⟨rest, s.hostData, s.draws, s.result, rfl, .inl ⟨rfl, rfl⟩⟩
    | idle =>
      cases h
      unfold turn; split
      · right; left; exact ⟨rest, .inr hm, ‹_›, rfl⟩
      · right; right; exact ⟨rest, s.hostData, s.draws, s.result, rfl, .inl ⟨rfl, rfl⟩⟩

/-- A step that a running command's host leaves to it, or none: the command's next point, or an access that
touches the host's side alone. -/
theorem step_running {i : Instr} {s t : State} (hr : Running i s) (h : step s = .next t) :
    (∃ rest j, (s.host = [] ∧ rest = [] ∨ s.host = .idle :: rest) ∧ s.job = some j ∧ j.command = i ∧
      t = act j { s with host := rest }) ∨
    ∃ rest hd dr, s.host ≠ [] ∧ t = { s with host := rest, hostData := hd, draws := dr } := by
  obtain ⟨hb, j, hj, hi⟩ := hr
  rcases step_cases h with ⟨i', rest, w, hf, _⟩ | ⟨rest, hh, _, e⟩ | ⟨rest, hd, dr, r, e, h'⟩
  · rw [hb] at hf; cases hf
  · exact .inl ⟨rest, j, hh, hj, hi, e.trans (advance_eq hj)⟩
  · rcases h' with ⟨h1, h2⟩ | ⟨_, hf, _⟩
    · subst h1
      rw [h2] at e
      by_cases hh : s.host = []
      · left
        refine ⟨[], j, .inl ⟨hh, rfl⟩, hj, hi, ?_⟩
        have : step s = .next (advance s) := by simp [step, hh, turn, hb]
        rw [this, advance_eq hj] at h
        cases h
        rw [← hh]
      · exact .inr ⟨rest, hd, dr, hh, e⟩
    · rw [hb] at hf; cases hf

/-- With no host access to make, a running command's step is its next point. -/
theorem step_act {s : State} {j : Job} (hb : s.busy = true) (hj : s.job = some j) (hh : s.host = []) :
    step s = .next (act j s) := by
  simp [step, hh, turn, hb, advance_eq hj]

/-- The host's pending accesses change nothing that a command does. -/
theorem turn_host (hm : List HostMove) (s : State) :
    turn { s with host := hm } = { turn s with host := hm } := by
  have e : ∀ t : State, t.stepwise = s.stepwise → { t with host := hm } = giveMore [] hm s.stepwise t :=
    fun t ht => by simp [giveMore, ← ht]
  have et : (turn s).stepwise = s.stepwise := by
    unfold turn advance
    split
    · split
      · rfl
      · exact (act_host _ _).2.2.2
    · rfl
  rw [e s rfl, e _ et]
  unfold turn
  by_cases hb : s.busy = true
  · rw [if_pos hb, if_pos (show (giveMore [] hm s.stepwise s).busy = true from hb)]
    rcases Option.eq_none_or_eq_some s.job with hj | ⟨j, hj⟩
    · rw [advance, advance, hj, show (giveMore [] hm s.stepwise s).job = none from hj]
    · rw [advance_eq hj, advance_eq (s := giveMore [] hm s.stepwise s) hj, act_giveMore _ _ _ fun _ _ => .inl rfl]
  · rw [if_neg hb, if_neg (show ¬(giveMore [] hm s.stepwise s).busy = true from hb)]

/-- What holds at a command's start and is kept by each of its points and by the host's accesses, holds
wherever the command stands. -/
theorem Runs.induct {i : Instr} {s t : State} (h : Runs i s t) {P : State → Prop}
    (hstart : P (start i (accept s)))
    (hhost : Inv s → Running i s → ∀ host hd dr, P { s with host := host, hostData := hd, draws := dr })
    (hlong : i.wf = false → P (rejectWord s))
    (hact : ∀ (u : State) (j : Job), u.busy = true → u.job = some j → j.command = i → P u →
      P (act j u)) : P t := by
  rcases h with h | ⟨hv, hr, h⟩
  · rcases wf_or_long i with hw | ⟨n, rfl, hn⟩
    · rw [exec_start hw] at h
      cases h
      unfold launch
      split
      · exact hstart
      · refine run_induct (i := i) hact ?_ hstart
        obtain ⟨j, e1, e2⟩ := start_job i (accept s)
        intro j' e
        rw [e1] at e; cases e; exact e2
    · rw [exec_long hn] at h
      cases h; exact hlong (decide_eq_false hn)
  · have hb := hr.1
    rcases step_running hr h with ⟨rest, j, _, hj, hi, rfl⟩ | ⟨rest, hd, dr, _, rfl⟩
    · exact hact { s with host := rest } j hb hj hi (hhost hv hr rest s.hostData s.draws)
    · exact hhost hv hr rest hd dr

/-! ### The whole run as its steps -/

/-- The steps of a running command, with no host access, run it as far as the given answers go. -/
theorem steps_run (s : State) (hh : s.host = []) : ∃ n, steps n s = .next (run s) := by
  have key : ∀ k (s : State), s.host = [] → pointsLeft s ≤ k → ∃ n, steps n s = .next (run s) := by
    intro k
    induction k with
    | zero =>
      intro s _ h
      exact ⟨0, by rw [run_of_waits (s := s) (waits_of_pointsLeft (by omega)), steps]⟩
    | succ k ih =>
      intro s hh h
      cases hw : waits s with
      | true => exact ⟨0, by rw [run_of_waits hw, steps]⟩
      | false =>
        obtain ⟨hb, j, hj, hd⟩ := waits_eq_false.mp hw
        have hlt := act_pointsLeft hj hd
        obtain ⟨n, hn⟩ := ih (act j s) ((act_host j s).2.1.trans hh) (by omega)
        exact ⟨n + 1, by rw [steps, step_act hb hj hh, run_act hb hj hd]; exact hn⟩
  exact key _ s hh (Nat.le_refl _)

end Sys2Proof.Machine
end

