-- ==== Sys2Proof/Tests/Slice0.lean ====
section
/-! SUPPORT. The model's own tests, with their expected results from spec/95_test_vectors.md (the vector is
named in each comment) and from the examples of files 30 to 44; and for each obligation a witness that
meets its hypotheses. -/

namespace Sys2Proof.Tests

open Machine

/-! ## The parameters and pulses of 95_test_vectors.md, section 0 -/

/-- The vectors' parameters, with the values of `crc_stub` that the tests use. -/
def vp : Params where
  tracks := 80
  heads := 2
  sectors := 18
  tMedium := 40
  tLong := 56
  syncLen := 80
  locateAttempts := 50
  motorIdleTimeout := 5000
  maxBlocks := 4
  crcTable :=
    [([0xFE, 0x00, 0x00, 0x01, 0x02], 0xF281), ([0xFE, 0x00, 0x01, 0x12, 0x02], 0x9391),
     ([0xFE, 0x07, 0x00, 0x01, 0x02], 0xA3AC), (0xFB :: List.replicate 512 0x00, 0x6A94)]

/-- The machine after reset, with the vectors' parameters; the step that accepts a command runs it. -/
def v0 : State := { State.reset with par := vp, stepwise := false }
/-- READY at a cylinder. -/
def ready (ct : Byte) : State := { v0 with initialized := true, currentTrack := ct }

/-- A duration of each class: 2, 3 and 4 microseconds at 16 MHz. -/
def ticks : PulseClass → Nat
  | .short => 32
  | .medium => 48
  | .long => 64

/-- `S×k`. -/
def sh (k : Nat) : List PulseClass := List.replicate k .short
/-- `M×k`. -/
def md (k : Nat) : List PulseClass := List.replicate k .medium
/-- `L×k`. -/
def lg (k : Nat) : List PulseClass := List.replicate k .long

/-- `P`: `S×80, M, MARKSEQ`. -/
def preamble : List PulseClass := frameClasses 80 []
/-- The durations of a frame whose data pulses are these. -/
def frame (enc : List PulseClass) : List Nat := (frameClasses 80 enc).map ticks

/-- Enc(ID1), `FE 00 00 01 02 F2 81`. -/
def encID1 : List PulseClass :=
  sh 7 ++ md 1 ++ sh 22 ++ md 2 ++ sh 4 ++ md 1 ++ lg 1 ++ sh 3 ++ md 2 ++ lg 1 ++ md 1 ++ sh 4 ++ md 1
/-- Enc(ID2), `FE 00 01 12 02 93 91`. -/
def encID2 : List PulseClass :=
  sh 7 ++ md 1 ++ sh 14 ++ md 2 ++ sh 1 ++ md 4 ++ sh 5 ++ md 1 ++ lg 1 ++ md 4 ++ sh 2 ++ md 3 ++ sh 1 ++
    md 1
/-- Enc(ID3), `FE 07 00 01 02 A3 AC`. -/
def encID3 : List PulseClass :=
  sh 7 ++ md 1 ++ sh 4 ++ md 1 ++ sh 2 ++ md 1 ++ sh 13 ++ md 2 ++ sh 4 ++ md 1 ++ lg 2 ++ md 1 ++ sh 1 ++
    md 1 ++ sh 2 ++ lg 2 ++ sh 1 ++ md 1 ++ sh 1
/-- Enc(B0), `FB`, 512 × `00`, `6A 94`, but for its last pulse. -/
def encB0 : List PulseClass :=
  sh 5 ++ lg 1 ++ sh 1 ++ md 1 ++ sh 4095 ++ md 1 ++ sh 1 ++ lg 3 ++ md 2 ++ lg 1 ++ md 1

def recID1 : List Byte := [0xFE, 0x00, 0x00, 0x01, 0x02, 0xF2, 0x81]
def recID2 : List Byte := [0xFE, 0x00, 0x01, 0x12, 0x02, 0x93, 0x91]
def recID3 : List Byte := [0xFE, 0x07, 0x00, 0x01, 0x02, 0xA3, 0xAC]
def bodyB0 : List Byte := 0xFB :: (List.replicate 512 0x00 ++ [0x6A, 0x94])
def dsB0 : List Nat := frame (encB0 ++ [.short])

/-- B0 with the CRC bytes `6A 95`, but for the last pulse. -/
def encB1 : List PulseClass :=
  sh 5 ++ lg 1 ++ sh 1 ++ md 1 ++ sh 4095 ++ md 1 ++ sh 1 ++ lg 3 ++ md 2 ++ lg 1
/-- B0 with the mark `FE`, but for the last pulse. -/
def encB2 : List PulseClass :=
  sh 7 ++ md 1 ++ sh 4096 ++ md 1 ++ sh 1 ++ lg 3 ++ md 2 ++ lg 1 ++ md 1
def bodyB1 : List Byte := 0xFB :: (List.replicate 512 0x00 ++ [0x6A, 0x95])
def bodyB2 : List Byte := 0xFE :: (List.replicate 512 0x00 ++ [0x6A, 0x94])
def dsB1 : List Nat := frame (encB1 ++ [.long])
def dsB2 : List Nat := frame (encB2 ++ [.short])

/-- The state of an answer. -/
def next? (o : Host.Outcome State Fault Refusal) : Option State :=
  match o with
  | .next t => some t
  | _ => none

/-! ## WellFormed (R95, D12) -/

theorem test_wf_decode_limit : (Instr.decode 515).wf = true := by decide
/-- The one ill-formed term: DECODE 516. -/
theorem test_wf_refuses_long_decode : (Instr.decode 516).wf = false := by decide

/-! ## Decode: one word per command, written out from the formats of R92 and the examples -/

theorem test_decode_init : decodeWord 0b00000000000000000000000000000001 = .ok .init := by decide
/-- R262: `SEEK 5`. -/
theorem test_decode_seek : decodeWord 0b00000000000000000000010100000010 = .ok (.seek 5) := by decide
/-- `RSEC 80, 7, 1`: C, B, A, OPC. -/
theorem test_decode_rsec :
    decodeWord 0b00000001000001110101000000000011 = .ok (.rsec 80 7 1) := by decide
/-- V-RBLK-3: `RBLK 2879, 2`: W, A, OPC. -/
theorem test_decode_rblk :
    decodeWord 0b00001011001111110000001000000100 = .ok (.rblk 2879 2) := by decide
theorem test_decode_mtick : decodeWord 0b00000000000000000000000000000101 = .ok .mtick := by decide
/-- R229: `MOTOR 1`. -/
theorem test_decode_motor :
    decodeWord 0b00000000000000000000000100000110 = .ok (.motor true) := by decide
/-- R131: `CLASSIFY 40`. -/
theorem test_decode_classify :
    decodeWord 0b00000000001010000000000000010000 = .ok (.classify 40) := by decide
/-- V-XL-6: `XLATE 2879`. -/
theorem test_decode_xlate :
    decodeWord 0b00001011001111110000000000010001 = .ok (.xlate 2879) := by decide
/-- V-DEC-18: `DECODE 515`. -/
theorem test_decode_decode :
    decodeWord 0b00000010000000110000000000010010 = .ok (.decode 515) := by decide
/-- V-LOC-5: `LOCATE 5, 0, 1`. -/
theorem test_decode_locate :
    decodeWord 0b00000001000000000000010100010011 = .ok (.locate 5 0 1) := by decide
theorem test_decode_rbody : decodeWord 0b00000000000000000000000000010100 = .ok .rbody := by decide

/-- R95, R96: reserved opcodes, nonzero must-be-zero fields (V-SK-9, V-MO-5, V-CL-8, V-XL-8) and a long
DECODE (V-DEC-19). -/
theorem test_decode_illegal :
    [0x00000000, 0x00000007, 0x0000000F, 0x00000015, 0x000000FF, 0x01000502, 0x00000206, 0x00280110,
      0x00230111, 0x02040012, 0x00000101, 0x00010005, 0x00000114].all
      (fun w : Word => (decodeWord w).toOption.isNone) = true := by decide

/-- No two rows of the opcode table share a word. -/
theorem test_table_rows_disjoint :
    opcodeTable.Pairwise (fun r q => (r.2.1 ^^^ q.2.1) &&& r.2.2 &&& q.2.2 ≠ 0) := by decide

/-- R98: an assembly line with spaces, a hexadecimal number and a comment; and operands out of range. -/
theorem test_assembler :
    assembleLine "RBLK 0x23, 1 ; one block".toList = some [.rblk 35 1] ∧
      assembleLine " ; nothing".toList = some [] ∧
      assembleLine "SEEK 256".toList = none ∧ assembleLine "DECODE 516".toList = none ∧
      assembleLine "MOTOR 2".toList = none ∧ assembleLine "MOTORON".toList = some [.motor true] := by
  decide

/-- Program 5 of 95_test_vectors.md assembles to the words the spec gives. -/
theorem test_assemble_program :
    assemble ["CLASSIFY 55".toList, "XLATE 2879".toList, "DECODE 2".toList, "MOTOR 1".toList] =
      some [0x00370010, 0x0B3F0011, 0x00020012, 0x00000106] := by decide

/-! ## The instructions -/

/-- V-CL-2, V-CL-3: the boundary at T_MEDIUM. -/
theorem test_classify_medium :
    (next? (exec (.classify 39) v0)).map State.rdata = some 0 ∧
      (next? (exec (.classify 40) v0)).map State.rdata = some 1 := by decide
/-- V-CL-4, V-CL-5: the boundary at T_LONG. -/
theorem test_classify_long :
    (next? (exec (.classify 55) v0)).map State.rdata = some 1 ∧
      (next? (exec (.classify 56) v0)).map State.rdata = some 2 := by decide

/-- V-XL-6: (79, 1, 18). -/
theorem test_xlate_last : (next? (exec (.xlate 2879) v0)).map State.rdata = some 0x0012014F := by decide
/-- V-XL-7: 2880 is out of range and RDATA stays. -/
theorem test_xlate_capacity :
    (next? (exec (.xlate 2880) { v0 with rdata := 7 })).map (fun t => (t.rdata, t.result)) =
      some (7, .trackOutOfRange) := by decide

/-- V-DEC-3: `P, S×7, M, S×8` is FE 00, after 111 answers. -/
theorem test_decode_bytes :
    (next? (exec (.decode 2) { v0 with
        pulses := answers (frame (sh 7 ++ md 1 ++ sh 8)) ++ [.timeout] })).map
      (fun t => (bufBytes t bodyBase 2, t.pulses, t.result)) =
      some ([0xFE, 0x00], [.timeout], .ok) := by decide +kernel
/-- V-DEC-11: the last pulse is an L whose second bit is discarded. -/
theorem test_decode_discards_bit :
    (next? (exec (.decode 1) { v0 with pulses := answers (frame (sh 7 ++ lg 1)) })).map
      (fun t => (bufBytes t bodyBase 1, t.dec.bitCnt, t.result)) = some ([0xFE], 0, .ok) := by
  decide +kernel
/-- V-DEC-12: the deviating S at MARK_IDX 1 is not counted, so 79 further S do not sync. -/
theorem test_decode_deviation_not_counted :
    (next? (exec (.decode 1) { v0 with
        pulses := answers ((sh 80 ++ md 1 ++ lg 1 ++ sh 80 ++ md 1 ++ markSeq ++ sh 7 ++ md 1).map ticks) ++
          [.timeout] })).map (fun t => (t.result, t.pulses)) = some (.noPulse, []) := by decide +kernel

/-- V-LOC-1. -/
theorem test_locate_finds :
    (next? (exec (.locate 0 0 1) { v0 with pulses := answers (frame encID1) })).map
      (fun t => (t.result, bufBytes t amBase 7, t.attempt)) = some (.ok, recID1, 1) := by decide +kernel
/-- V-LOC-5: SeekError, and CURRENT_TRACK takes the observed cylinder. -/
theorem test_locate_seek_error :
    (next? (exec (.locate 5 0 1) { v0 with pulses := answers (frame encID3) })).map
      (fun t => (t.result, t.currentTrack)) = some (.seekError, 7) := by decide +kernel

/-- V-RB-3, V-RB-5: a mark that is not FB is reported before the CRC is judged. -/
theorem test_rbody_mark :
    (next? (step { v0 with
        busy := true, job := some (.decoding .rbody), mem := [(0x8000, 0xFE)], pulses := [.pulse 32]
        dec := { phase := .bits, syncCnt := 80, markIdx := 14, bitState := .odd, bitAcc := 0,
                 bitCnt := 7, byteCnt := 514 } })).map
      (fun t => (t.job, bufByte t 0x8202)) = some (some (.ending .rbody .incorrectDataMark), 1) := by
  decide +kernel
/-- R138: a Timeout ends RBODY with NoPulse. -/
theorem test_rbody_timeout :
    (next? (exec .rbody { v0 with pulses := [.timeout] })).map State.result = some .noPulse := by decide

/-- V-INIT-2: two steps outward, then READY. -/
theorem test_init_two_steps :
    (next? (exec .init { v0 with trk0s := [false, false, true] })).map
      (fun t => (t.result, t.initialized, t.stepCnt, t.trace.length)) = some (.ok, true, 2, 13) := by
  decide
/-- V-INIT-4, V-INIT-5: 81 false samples; INITIALIZED falls, CURRENT_TRACK stays. -/
theorem test_init_fails :
    (next? (exec .init { ready 9 with trk0s := List.replicate 81 false })).map
      (fun t => (t.result, t.initialized, t.currentTrack, t.stepCnt, t.trk0s)) =
      some (.track0NotFound, false, 9, 80, []) := by decide +kernel

/-- V-SK-5: two steps inward. -/
theorem test_seek_inward :
    (next? (exec (.seek 5) { ready 3 with nows := [9] })).map
      (fun t => (t.currentTrack, t.lines.dir, t.lastOpTime, t.trace.length)) = some (5, true, 9, 10) := by
  decide
/-- V-SK-2: both checks fail; NotInitialized is reported, after the time is recorded. -/
theorem test_seek_checks_in_order :
    (next? (exec (.seek 80) { v0 with nows := [7] })).map
      (fun t => (t.result, t.lastOpTime, t.lines)) = some (.notInitialized, 7, v0.lines) := by decide

/-- V-MO-1. -/
theorem test_motor_on :
    (next? (exec (.motor true) v0)).map (fun t => (t.motorOn, t.trace)) =
      some (true, [.delay .motorSpinup, .line .motor true]) := by decide
/-- V-MO-2: no event. -/
theorem test_motor_no_op :
    (next? (exec (.motor true) { v0 with motorOn := true })).map State.trace = some [] := by decide

/-- V-MT-1: an elapsed time equal to the timeout does not count. -/
theorem test_mtick_not_yet :
    (next? (exec .mtick { v0 with motorOn := true, lastOpTime := 1000, nows := [6000] })).map
      State.motorOn = some true := by decide
/-- V-MT-4: the elapsed time is a difference modulo 2^32. -/
theorem test_mtick_wraps :
    (next? (exec .mtick { v0 with
        motorOn := true, lastOpTime := 0xFFFFFF00, nows := [0x00001289] })).map State.motorOn =
      some false := by decide

/-- V-RS-3: the events before the first query, in order. -/
theorem test_rsec_events :
    (next? (exec (.rsec 0 0 1) { ready 0 with nows := [52] })).map (fun t => (t.busy, t.trace)) =
      some (true, [.line .headSel false, .line .dir false, .delay .motorSpinup, .line .motor true,
        .now 52]) := by decide
/-- V-RS-1: the check precedes the motor start. -/
theorem test_rsec_not_ready :
    (next? (exec (.rsec 0 0 1) { v0 with nows := [50] })).map
      (fun t => (t.result, t.lastOpTime, t.motorOn)) = some (.notInitialized, 50, false) := by
  decide +kernel

/-- V-RBLK-4: 65535 + 1 does not wrap. -/
theorem test_rblk_range :
    (next? (exec (.rblk 65535 1) v0)).map State.result = some .trackOutOfRange := by decide
/-- V-RBLK-5: the count is checked first, and Now() is not sampled. -/
theorem test_rblk_count :
    (next? (exec (.rblk 0 0) { v0 with nows := [1] })).map (fun t => (t.result, t.nows)) =
      some (.invalidAmount, [1]) := by decide

/-- Program 1: STATUS reads 0x60 with the motor on in READY. -/
theorem test_status_word :
    statusWord { ready 0 with motorOn := true } = 0x60 ∧
      statusWord { v0 with result := .notInitialized } = 0x03 := by decide

/-- The command `j` stands at, in READY with the motor on and the head on cylinder 3; the host waits. -/
def running (j : Job) : State :=
  { ready 3 with
    motorOn := true, lines := { v0.lines with motor := true }, busy := true, job := some j
    stepwise := true }

/-- R80: with `stepwise` a SEEK is accepted and no more; inside its SeekMove STATUS reads BUSY and INIT. -/
theorem test_busy_in_seek :
    (next? (exec (.seek 5) { ready 3 with stepwise := true })).map (fun t => (t.busy, t.currentTrack)) =
        some (true, 3) ∧
      (next? (step { running (.seekStep 5 1) with host := [.readReg 4] })).map
        (fun t => (t.hostData, t.job)) = some (0x70, some (.seekStep 5 1)) := by decide
/-- R33, R80: inside INIT's loop the controller is CALIBRATING, and STATUS reads BUSY without INIT. -/
theorem test_busy_in_init :
    controller { running .calibrating with initialized := false } = .calibrating ∧
      (next? (step { running .calibrating with initialized := false, host := [.readReg 4] })).map
        State.hostData = some 0x50 := by decide
/-- R80: BUSY is cleared together with RESULT. -/
theorem test_ending_writes_result :
    (next? (step { running (.ending (.seek 5) .ok) with result := .crc })).map
      (fun t => (t.result, t.busy, t.job)) = some (.ok, false, none) := by decide

/-- The reset memory is in canonical form. -/
theorem test_reset_memory_wf : State.reset.mem.wf := by decide

/-! ## Frames decode: the environment's answers that the witnesses use -/

theorem classify_ticks (c : PulseClass) : classify vp (ticks c) = c := by cases c <;> decide

theorem classes_frame (enc : List PulseClass) :
    (frame enc).map (classify vp) = preamble ++ enc := by
  simp [frame, preamble, frameClasses, Function.comp_def, classify_ticks]

theorem id1_decodes : DecodesTo vp 7 (frame encID1) recID1 := ⟨by decide +kernel, by decide +kernel⟩
theorem id2_decodes : DecodesTo vp 7 (frame encID2) recID2 := ⟨by decide +kernel, by decide +kernel⟩
theorem id3_decodes : DecodesTo vp 7 (frame encID3) recID3 := ⟨by decide +kernel, by decide +kernel⟩

theorem emitted_even_shorts (k : Nat) (cs : List PulseClass) :
    emittedAll .even (sh k ++ cs) = List.replicate k false ++ emittedAll .even cs := by
  induction k with
  | zero => rfl
  | succ k ih =>
    show emittedBits .even .short ++ emittedAll .even (sh k ++ cs) = _
    rw [ih, List.replicate_succ]
    rfl

theorem zero_bytes_bits (k : Nat) :
    (List.replicate k (0 : Byte)).flatMap msbBits = List.replicate (8 * k) false := by
  induction k with
  | zero => rfl
  | succ k ih =>
    rw [List.replicate_succ, List.flatMap_cons, ih, Nat.mul_succ, Nat.add_comm, ← List.replicate_append_replicate]
    rfl

/-- The bits of B0, which its last pulse completes; and of B0 with its last bit 1, a wrong CRC. -/
theorem b0_bits : emittedAll .odd (encB0 ++ [.short]) = bodyB0.flatMap msbBits ∧
    emittedAll .odd (encB1 ++ [.long]) = bodyB1.flatMap msbBits := by
  have h2 : ∀ cs, emittedAll .odd ((sh 5 ++ lg 1 ++ sh 1 ++ md 1) ++ cs) =
      msbBits 0xFB ++ false :: emittedAll .even cs := fun _ => rfl
  constructor
  · have h1 : encB0 ++ [.short] = (sh 5 ++ lg 1 ++ sh 1 ++ md 1) ++ (sh 4095 ++
        (md 1 ++ sh 1 ++ lg 3 ++ md 2 ++ lg 1 ++ md 1 ++ [.short])) := by
      simp only [encB0, List.append_assoc]
    rw [h1, h2, emitted_even_shorts, bodyB0, List.flatMap_cons, List.flatMap_append, zero_bytes_bits,
      show 8 * 512 = 4095 + 1 from rfl, List.replicate_succ, List.cons_append]
    congr 3
  · have h1 : encB1 ++ [.long] = (sh 5 ++ lg 1 ++ sh 1 ++ md 1) ++ (sh 4095 ++
        (md 1 ++ sh 1 ++ lg 3 ++ md 2 ++ lg 1 ++ [.long])) := by
      simp only [encB1, List.append_assoc]
    rw [h1, h2, emitted_even_shorts, bodyB1, List.flatMap_cons, List.flatMap_append, zero_bytes_bits,
      show 8 * 512 = 4095 + 1 from rfl, List.replicate_succ, List.cons_append]
    congr 3

/-- The bits of B2, whose first byte is FE (V-RB-3). -/
theorem b2_bits : emittedAll .odd (encB2 ++ [.short]) = bodyB2.flatMap msbBits := by
  have h1 : encB2 ++ [.short] = (sh 7 ++ md 1) ++ (sh 4096 ++
      (md 1 ++ sh 1 ++ lg 3 ++ md 2 ++ lg 1 ++ md 1 ++ [.short])) := by
    simp only [encB2, List.append_assoc]
  have h2 : ∀ cs, emittedAll .odd ((sh 7 ++ md 1) ++ cs) = msbBits 0xFE ++ emittedAll .even cs :=
    fun _ => rfl
  rw [h1, h2, emitted_even_shorts, bodyB2, List.flatMap_cons, List.flatMap_append, zero_bytes_bits]
  congr 2

theorem emitted_concat (c : PulseClass) (cs : List PulseClass) (st : BitState) :
    (emittedAll st cs).length < (emittedAll st (cs ++ [c])).length := by
  induction cs generalizing st with
  | nil => cases st <;> cases c <;> decide
  | cons x xs ih => simpa [emittedAll] using ih (nextBitState st x)

/-- V-DEC-18: a frame whose pulses emit the bits of 515 bytes. -/
theorem body_decodes {enc : List PulseClass} {c : PulseClass} {bytes : List Byte}
    (hb : emittedAll .odd (enc ++ [c]) = bytes.flatMap msbBits) (hl : bytes.length = 515) :
    DecodesTo vp 515 (frame (enc ++ [c])) bytes := by
  have hlen : (emittedAll .odd enc).length < 8 * bytes.length := by
    have h := emitted_concat c enc .odd
    have hb' : ∀ bs : List Byte, (bs.flatMap msbBits).length = 8 * bs.length := by
      intro bs
      induction bs with
      | nil => rfl
      | cons b bs ih =>
        rw [List.flatMap_cons, List.length_append, ih, List.length_cons]
        simp [msbBits]
        omega
    rwa [hb, hb'] at h
  have h := decode_bits vp (d := (feedAll vp 515 .reset preamble).1) (c := c) (by decide +kernel)
    (by decide +kernel) (by decide +kernel) (by decide +kernel) (by decide +kernel) hb hlen
  rw [hl] at h
  have h0 : neverCompletes vp 515 .reset preamble = true ∧ (feedAll vp 515 .reset preamble).2 = [] := by
    decide +kernel
  unfold DecodesTo
  rw [classes_frame, completesAt_append _ _ _ _ (List.append_ne_nil_of_right_ne_nil _ (List.cons_ne_nil _ _)),
    feedAll_append, h0.1, h0.2, h.1, h.2]
  exact ⟨rfl, rfl⟩

theorem body_length (m hi lo : Byte) : (m :: (List.replicate 512 0x00 ++ [hi, lo])).length = 515 := by
  rw [List.length_cons, List.length_append, List.length_replicate]; rfl
theorem b0_decodes : DecodesTo vp 515 dsB0 bodyB0 := body_decodes b0_bits.1 (body_length ..)
theorem b1_decodes : DecodesTo vp 515 dsB1 bodyB1 := body_decodes b0_bits.2 (body_length ..)
theorem b2_decodes : DecodesTo vp 515 dsB2 bodyB2 := body_decodes b2_bits (body_length ..)

theorem id1_matches : MatchingRecord vp 0 0 1 recID1 := ⟨0x02, 0xF2, 0x81, rfl, by decide⟩
theorem id2_matches : MatchingRecord vp 0 1 18 recID2 := ⟨0x02, 0x93, 0x91, rfl, by decide⟩
theorem timeout_fails (c h s : Byte) : FailedAttempt vp c h s [.timeout] := .inr ⟨[], rfl, rfl⟩
/-- V-LOC-4: a record of another sector is a failed attempt. -/
theorem other_sector_fails : FailedAttempt vp 0 0 2 (answers (frame encID1)) :=
  .inl ⟨_, _, rfl, id1_decodes, _, _, _, _, _, _, _, rfl, .inr ⟨rfl, .inr (.inl (by decide))⟩⟩
theorem b0_result : bodyResult vp bodyB0 = .ok := by decide +kernel

/-- R263: each way in which a read of the sector (0, 1, 18) can fail (V-LOC-3, V-LOC-5, V-RB-2 to V-RB-5). -/
theorem each_read_failure :
    ReadFails vp 0 1 18 (List.replicate 50 .timeout) .sectorNotFound ∧
    ReadFails vp 0 1 18 (answers (frame encID3)) .seekError ∧
    ReadFails vp 0 1 18 (answers (frame encID2) ++ (answers [] ++ [.timeout])) .noPulse ∧
    ReadFails vp 0 1 18 (answers (frame encID2) ++ answers dsB2) .incorrectDataMark ∧
    ReadFails vp 0 1 18 (answers (frame encID2) ++ answers dsB1) .crc := by
  refine ⟨⟨List.replicate 50 [.timeout], ?_, .inl ⟨by decide, by decide, rfl⟩⟩,
    ⟨[], by simp, .inr ⟨by decide, .inl ⟨_, _, _, rfl, id3_decodes, by decide, rfl⟩⟩⟩,
    ⟨[], by simp, .inr ⟨by decide, .inr ⟨_, _, id2_decodes, id2_matches, .inl ⟨[], rfl, rfl, rfl⟩⟩⟩⟩,
    ⟨[], by simp, .inr ⟨by decide, .inr ⟨_, _, id2_decodes, id2_matches,
      .inr ⟨_, _, rfl, b2_decodes, by decide +kernel, by decide⟩⟩⟩⟩,
    ⟨[], by simp, .inr ⟨by decide, .inr ⟨_, _, id2_decodes, id2_matches,
      .inr ⟨_, _, rfl, b1_decodes, by decide +kernel, by decide⟩⟩⟩⟩⟩
  exact fun _ h => (List.eq_of_mem_replicate h) ▸ timeout_fails _ _ _

/-! ## Running commands that meet the invariant -/

theorem running_inv {j : Job} (h : JobOk (running j) j) : Inv (running j) := by
  refine ⟨show vp.wf by decide, List.Pairwise.nil, by rintro c ⟨⟩, rfl, rfl, rfl,
    show (0 : Word).toNat < 2 ^ 24 by decide,
    ⟨show 0 ≤ 80 by decide, fun _ => show 0 < 80 by decide, show 0 ≤ 14 by decide, by rintro ⟨⟩,
      show 0 < 8 by decide, show 0 ≤ bodySize by decide⟩,
    show 0 ≤ 50 by decide, show 0 ≤ 80 by decide, show 0 < 4 by decide, ?_⟩
  rintro j' ⟨⟩
  exact h

/-- The sector read of `RSEC 5, 0, 1`. -/
def read5 : SectorRead := { cyl := 5, head := 0, sec := 1, slot := 0, caller := .rsec }

theorem read5_moving (j : Job) : MovingOk (running j) read5 :=
  ⟨rfl, rfl, rfl, show (5 : Byte).toNat < 80 by decide⟩

/-- A Decode that waits for the last bit of its last byte, in attempt `k`, with the head on cylinder 5. -/
def waiting (d : Decoding) (k : Nat) (a : PulseAnswer) : State :=
  { running (.decoding d) with
    currentTrack := 5, attempt := k, pulses := [a]
    dec := { phase := .bits, syncCnt := 80, markIdx := 14, bitState := .odd, bitAcc := 0x40, bitCnt := 7,
             byteCnt := d.need - 1 } }

theorem waiting_inv {d : Decoding} {k : Nat} (a : PulseAnswer) (hn : 1 ≤ d.need ∧ d.need ≤ 515)
    (hk : k ≤ 50) (h : DecodingOk (waiting d k a) d) : Inv (waiting d k a) := by
  refine ⟨show vp.wf by decide, List.Pairwise.nil, by rintro c ⟨⟩, rfl, rfl, rfl,
    show (0 : Word).toNat < 2 ^ 24 by decide,
    ⟨show 80 ≤ 80 by decide, by rintro ⟨⟩, show 14 ≤ 14 by decide, by rintro ⟨⟩, show 7 < 8 by decide, ?_⟩,
    hk, show 0 ≤ 80 by decide, show 0 < 4 by decide, ?_⟩
  · show d.need - 1 ≤ bodySize
    rw [bodySize]; omega
  · rintro j' ⟨⟩
    exact h

/-- Each kind of Decode: DECODE 1, RBODY, a LOCATE in its last attempt but one and in its last, a
ReadSector in its Locate and in its ReadBody. -/
theorem each_waiting (a : PulseAnswer) :
    Inv (waiting (.decode 1) 0 a) ∧ Inv (waiting .rbody 0 a) ∧
    Inv (waiting (.locate 5 0 1) 49 a) ∧ Inv (waiting (.locate 5 0 1) 50 a) ∧
    Inv (waiting (.readId read5) 50 a) ∧ Inv (waiting (.readBody read5) 1 a) := by
  have hm : ∀ d k, MovingOk (waiting d k a) read5 :=
    fun d k => ⟨rfl, rfl, rfl, show (5 : Byte).toNat < 80 by decide⟩
  have hd : ∀ d k, 1 ≤ d.need → (waiting d k a).dec.phase ≠ .done ∧
      ((waiting d k a).dec.phase = .bits → (waiting d k a).dec.byteCnt < d.need) :=
    fun d k h => ⟨by rintro ⟨⟩, fun _ => by show d.need - 1 < d.need; omega⟩
  exact ⟨waiting_inv a (by decide) (by decide)
      ⟨(hd _ _ (by decide)).1, (hd _ _ (by decide)).2, show (1 : Half).toNat ≤ bodySize by decide⟩,
    waiting_inv a (by decide) (by decide) ⟨(hd _ _ (by decide)).1, (hd _ _ (by decide)).2, trivial⟩,
    waiting_inv a (by decide) (by decide) ⟨(hd _ _ (by decide)).1, (hd _ _ (by decide)).2,
      show 1 ≤ 49 by decide, show 49 ≤ 50 by decide⟩,
    waiting_inv a (by decide) (by decide) ⟨(hd _ _ (by decide)).1, (hd _ _ (by decide)).2,
      show 1 ≤ 50 by decide, show 50 ≤ 50 by decide⟩,
    waiting_inv a (by decide) (by decide) ⟨(hd _ _ (by decide)).1, (hd _ _ (by decide)).2,
      ⟨show 1 ≤ 50 by decide, show 50 ≤ 50 by decide⟩, hm _ _, rfl⟩,
    waiting_inv a (by decide) (by decide) ⟨(hd _ _ (by decide)).1, (hd _ _ (by decide)).2, hm _ _, rfl⟩⟩

/-! ## Witnesses: each meets all the hypotheses of its obligation together -/

/-- The wellformedness of the longest DECODE. -/
theorem witness_CommandWordRoundTrip : (Instr.decode 515).wf = true := by decide
theorem witness_DecodedWordIsItsEncoding : decodeWord 0x02030012 = .ok (.decode 515) := by decide
theorem witness_DecodingFollowsOpcodeTable : decodeWord 0x00000106 = .ok (.motor true) := by decide

/-- A state whose host's next access is `m`. -/
def hosted (m : HostMove) : State := { v0 with host := [m] }

theorem witness_IllegalWordIsBadCommand :
    (∃ e, decodeWord 0x02040012 = .error e) ∧ (hosted (.writeReg 0 0x02040012)).busy = false ∧
      (hosted (.writeReg 0 0x02040012)).job = none ∧
      (hosted (.writeReg 0 0x02040012)).host = .writeReg 0 0x02040012 :: [] :=
  ⟨⟨_, rfl⟩, rfl, rfl, rfl⟩

theorem witness_StepRunsDecodedCommand :
    (hosted (.writeReg 0 0x00000502)).busy = false ∧
      (hosted (.writeReg 0 0x00000502)).host = .writeReg 0 0x00000502 :: [] ∧
      decodeWord 0x00000502 = .ok (.seek 5) := ⟨rfl, rfl, by decide⟩

theorem witness_CmdWriteWhileBusyIsIgnored :
    ({ running .mtick with host := [.writeReg 0 1] } : State).busy = true ∧
      ({ running .mtick with host := [.writeReg 0 1] } : State).host = .writeReg 0 1 :: [] := ⟨rfl, rfl⟩

/-- An idle core; and a host that lets an access pass, to an idle core and to a running one. -/
theorem witness_IdleCoreWaits :
    (State.reset.busy = false ∧ State.reset.host = []) ∧
    (hosted .idle).host = .idle :: [] ∧ (∃ t, step { hosted .idle with host := [] } = .next t) ∧
    ({ running .mtick with host := [.idle] } : State).host = .idle :: [] ∧
    ∃ t, step { ({ running .mtick with host := [.idle] } : State) with host := [] } = .next t :=
  ⟨⟨rfl, rfl⟩, rfl, ⟨_, rfl⟩, rfl, _, rfl⟩

/-- The boundary of aligned offsets: 4 is aligned, 3 and 5 are not. -/
theorem witness_EveryCommandAnswersNext :
    ∀ m ∈ (hosted (.readReg 4)).host.head?, m.aligned = true := by decide
theorem witness_UnalignedHostAccessStops :
    3 % 4 ≠ 0 ∧ 5 % 4 ≠ 0 ∧ (hosted (.readReg 3)).host = .readReg 3 :: [] ∧
      (hosted (.writeReg 5 1)).host = .writeReg 5 1 :: [] := ⟨by decide, by decide, rfl, rfl⟩
theorem witness_StatusReadShowsFields : (hosted (.readReg 4)).host = .readReg 4 :: [] := rfl

/-- A read of each register and of the first offset past the map, idle and while a command runs; writes to
the first offset past CMD, and to CMD while BUSY = 1. -/
theorem witness_RegisterMap :
    (∀ off ∈ [0, 8, 12, 16, 20], off % 4 = 0 ∧ (hosted (.readReg off)).host = [.readReg off] ∧
      (hosted (.readReg off)).busy = false ∧ off ≠ 4 ∧
      ({ running .mtick with host := [.readReg off] } : State).host = [.readReg off] ∧
      ({ running .mtick with host := [.readReg off] } : State).busy = true) ∧
    (hosted (.writeReg 4 1)).host = [.writeReg 4 1] ∧
    ({ running .mtick with host := [.writeReg 0 1] } : State).host = [.writeReg 0 1] := by decide

/-- A read at the last byte of BODY_BUF, at the first unmapped address after it, a read while a command
runs, and a write. -/
theorem witness_BufferSpaceAccess :
    (∀ c ∈ (hosted (.readBuf 0x8202)).mem, mapped vp c.1 = true) ∧
      (hosted (.readBuf 0x8202)).host = [.readBuf 0x8202] ∧
      (hosted (.readBuf 0x8203)).host = [.readBuf 0x8203] ∧
      (hosted (.readBuf 0x8203)).busy = false ∧
      ¬(0x8203 < 512 * vp.maxBlocks ∨ (0x8000 ≤ 0x8203 ∧ 0x8203 ≤ 0x8202) ∨
        (0x8400 ≤ 0x8203 ∧ 0x8203 ≤ 0x8406)) ∧
      ({ running .mtick with host := [.readBuf 0x8202] } : State).host = [.readBuf 0x8202] ∧
      ({ running .mtick with host := [.readBuf 0x8202] } : State).busy = true ∧
      (hosted (.writeBuf 0x8000 1)).host = [.writeBuf 0x8000 1] := by decide

/-- Each oracle with an answer given, and with none. -/
theorem witness_OracleAnswersAreConsumed :
    ({ v0 with pulses := [.timeout] } : State).pulses = .timeout :: [] ∧
      ({ v0 with trk0s := [true] } : State).trk0s = true :: [] ∧
      ({ v0 with nows := [7] } : State).nows = 7 :: [] ∧
      v0.pulses = [] ∧ v0.trk0s = [] ∧ v0.nows = [] := by decide

/-- An address of each buffer is mapped, whatever the OPEN parameters are. -/
theorem witness_ResetState : mapped State.reset.par 0 = true ∧ mapped State.reset.par 0x8202 = true ∧
    mapped State.reset.par 0x8406 = true :=
  ⟨(mapped_iff _ _).mpr (.inl (by show 0 < 512 * (_ + 1); omega)), (mapped_iff _ _).mpr (.inr (.inl (by decide))),
    (mapped_iff _ _).mpr (.inr (.inr (by decide)))⟩

theorem witness_ParametersAreFixed : ∃ t, step (hosted (.writeReg 0 0x00000106)) = .next t := ⟨_, rfl⟩

theorem witness_ClassifyWritesClass : v0.stepwise = false := rfl

/-- The last address and the first one out of range (V-XL-6, V-XL-7). -/
theorem witness_XlateTranslatesOrRefuses :
    v0.par.wf ∧ v0.stepwise = false ∧ (2879 : Half).toNat < v0.par.capacity ∧ v0.par.capacity ≤ (2880 : Half).toNat := by decide
theorem witness_ChsRoundTrip : vp.wf ∧ 2879 < vp.capacity := by decide

theorem witness_MotorCommandSetsMotor : v0.stepwise = false := rfl
theorem witness_MotorTickStopsIdleMotor : v0.stepwise = false := rfl

/-- SEEK before INIT; SEEK 80 and SEEK 79 in READY (V-SK-1 to V-SK-4). -/
theorem witness_SeekRefusals :
    v0.stepwise = false ∧ (ready 0).stepwise = false ∧ v0.initialized = false ∧ (ready 0).initialized = true ∧
      (ready 0).par.tracks ≤ (80 : Byte).toNat := by decide
theorem witness_SeekMovesHead :
    (ready 0).stepwise = false ∧ (ready 0).initialized = true ∧ (79 : Byte).toNat < (ready 0).par.tracks := by decide

/-- Track 0 at the first sample and at the last possible one (V-INIT-1, V-INIT-3). -/
theorem witness_InitSucceeds :
    v0.stepwise = false ∧ (0 ≤ v0.par.tracks ∧ ({ v0 with trk0s := [true] } : State).trk0s =
      List.replicate 0 false ++ true :: []) ∧
    (80 ≤ v0.par.tracks ∧
      ({ v0 with trk0s := List.replicate 80 false ++ [true] } : State).trk0s =
        List.replicate 80 false ++ true :: []) := ⟨rfl, ⟨by decide, rfl⟩, by decide, rfl⟩
theorem witness_InitFailsAfterTracksSteps :
    v0.stepwise = false ∧ 1 ≤ v0.par.tracks ∧ ({ v0 with trk0s := List.replicate 81 false } : State).trk0s =
      List.replicate (vp.tracks + 1) false ++ [] := ⟨rfl, by decide, by rw [List.append_nil]; rfl⟩

/-- INIT inside its loop, with a last step left before the bound. -/
def calibrating : State :=
  { running .calibrating with initialized := false, stepCnt := 79, trk0s := [false] }

theorem calibrating_inv : Inv calibrating := by
  refine ⟨by decide, List.Pairwise.nil, by rintro c ⟨⟩, rfl, rfl, rfl, by decide,
    ⟨by decide, fun _ => by decide, by decide, by rintro ⟨⟩, by decide, by decide⟩, by decide, by decide,
    by decide, ?_⟩
  rintro j' ⟨⟩
  exact rfl

theorem witness_InitEndsEitherWay :
    v0.stepwise = false ∧
    ((running .init).busy = true ∧ (running .init).host = [] ∧ (running .init).job = some .init) ∧
    calibrating.busy = true ∧ calibrating.host = [] ∧ controller calibrating = .calibrating ∧
    trk0Answer calibrating = false ∧ calibrating.stepCnt < calibrating.par.tracks := by decide

/-- A command but INIT, from its acceptance and at one of its points; INIT's step out of READY. -/
theorem witness_OnlyInitWritesInitialized :
    ((∃ t, Runs (.rsec 0 0 1) (ready 0) t) ∧ (∃ t, Runs (.seek 5) (running (.seek 5)) t) ∧
      Instr.rsec 0 0 1 ≠ .init ∧ Instr.seek 5 ≠ .init) ∧
    (∃ t, Runs .init ({ v0 with trk0s := [true] } : State) t ∧ t.initialized = true) ∧
    ∃ t, Runs .init (running .init) t ∧ controller (running .init) = .ready ∧ controller t ≠ .ready :=
  ⟨⟨⟨_, .inl rfl⟩, ⟨_, .inr ⟨running_inv trivial, ⟨rfl, _, rfl, rfl⟩, rfl⟩⟩, by decide, by decide⟩,
    ⟨_, .inl rfl, by decide⟩, _, .inr ⟨running_inv trivial, ⟨rfl, _, rfl, rfl⟩, rfl⟩, by decide, by decide⟩

/-- V-DEC-11: the last pulse emits one bit too many; and V-DEC-1: no byte at all. -/
theorem witness_FrameDecodesToItsBytes :
    (1 ≤ vp.syncLen ∧ vp.syncLen ≤ 80 ∧
      (emittedAll .odd (sh 7 ++ lg 1)).take (8 * [(0xFE : Byte)].length) =
        [(0xFE : Byte)].flatMap msbBits ∧
      8 * [(0xFE : Byte)].length ≤ (emittedAll .odd (sh 7 ++ lg 1)).length ∧
      (emittedAll .odd (sh 7 ++ lg 1).dropLast).length < 8 * [(0xFE : Byte)].length) ∧
    ((emittedAll .odd []).take (8 * ([] : List Byte).length) = ([] : List Byte).flatMap msbBits ∧
      8 * ([] : List Byte).length ≤ (emittedAll .odd []).length) := by decide
theorem witness_MfmEncodingDecodes : 1 ≤ vp.syncLen ∧ vp.syncLen ≤ 80 := by decide

/-- Working registers in each phase, at the counts where the clauses meet. -/
theorem witness_DeviationRestartsSync :
    (Decoder.reset.phase = .sync ∧ Decoder.reset.syncCnt + 1 < vp.syncLen ∧
      PulseClass.medium ≠ .short) ∧
    ({ Decoder.reset with syncCnt := 79 } : Decoder).syncCnt + 1 = vp.syncLen ∧
    ({ Decoder.reset with phase := .remainder } : Decoder).phase = .remainder ∧
    (some PulseClass.short ≠ markSeq[({ Decoder.reset with phase := .mark, markIdx := 13 } : Decoder).markIdx]? ∧
      ({ Decoder.reset with phase := .mark, markIdx := 13 } : Decoder).phase = .mark) ∧
    (some PulseClass.long = markSeq[0]? ∧ 0 < 13 ∧ some PulseClass.long = markSeq[12]? ∧ 12 < 13 ∧
      some PulseClass.medium = markSeq[13]?) ∧
    Decoder.reset.phase ≠ .bits := by decide

/-- DECODE 0 at its 95th answer (V-DEC-1), and DECODE 515 (V-DEC-18). -/
theorem witness_DecodeCommandCompletes :
    v0.stepwise = false ∧ ((0 : Half).toNat ≤ 515 ∧ DecodesTo vp 0 (frame []) []) ∧
    ((515 : Half).toNat ≤ 515 ∧
      ({ v0 with pulses := answers dsB0 ++ [] } : State).pulses = answers dsB0 ++ [] ∧
      DecodesTo vp (515 : Half).toNat dsB0 bodyB0) :=
  ⟨rfl, ⟨by decide, by decide +kernel, by decide +kernel⟩, by decide, rfl, b0_decodes⟩

/-- V-DEC-15, V-DEC-16: a Timeout in BITS, and at the first query of an RBODY. -/
theorem witness_TimeoutEndsDecodeWithNoPulse :
    v0.stepwise = false ∧ (KeepsDecoding vp 1 (frame (sh 3)) ∧ ∃ w : Half, Instr.decode 1 = .decode w ∧ w.toNat = 1 ∧ 1 ≤ 515) ∧
    KeepsDecoding vp 515 [] ∧
    ({ v0 with pulses := answers (frame (sh 3)) ++ [.timeout] } : State).pulses =
      answers (frame (sh 3)) ++ .timeout :: [] :=
  ⟨rfl, ⟨by show neverCompletes _ _ _ _ = true; decide +kernel, 1, rfl, rfl, by decide⟩, rfl, rfl⟩

/-- Each kind of Decode, on a Timeout, on the Short that completes it, and, restarted, on a Short that does
not. -/
theorem witness_WaitingDecodeTakesOneAnswer :
    (∀ a, Inv (waiting (.decode 1) 0 a) ∧ Inv (waiting .rbody 0 a) ∧
      Inv (waiting (.locate 5 0 1) 49 a) ∧ Inv (waiting (.locate 5 0 1) 50 a) ∧
      Inv (waiting (.readId read5) 50 a) ∧ Inv (waiting (.readBody read5) 1 a)) ∧
    (∀ d k a, (waiting d k a).job = some (.decoding d) ∧ (waiting d k a).host = [] ∧
      pulseAnswer (waiting d k a) = a) ∧
    decodeComplete 1 (feed vp 1 (waiting (.decode 1) 0 .timeout).dec (classify vp 32)).1 = true ∧
    decodeComplete 515 (feed vp 515 (waiting (.readBody read5) 1 .timeout).dec (classify vp 32)).1 = true ∧
    (Inv (running (.decoding .rbody)) ∧
      decodeComplete 515 (feed vp 515 (running (.decoding .rbody)).dec (classify vp 32)).1 = false) :=
  ⟨each_waiting, fun _ _ _ => ⟨rfl, rfl, rfl⟩, by decide, by decide,
    running_inv ⟨by decide, by rintro ⟨⟩, trivial⟩, by decide⟩

/-- R181, R184: the last pulse of ID1's record, in a LOCATE of (0, 0, 1), of (0, 0, 2) with attempts left and
with none, and of (5, 0, 1): found, the next attempt, none left, SeekError. -/
theorem test_locate_last_pulse :
    [(0, 1, 49), (0, 2, 49), (0, 2, 50), (5, 1, 49)].map (fun (c, sec, k) =>
      (next? (step { waiting (.locate c 0 sec) k (.pulse 32) with
        mem := [(0x8400, 0xFE), (0x8401, 0x00), (0x8402, 0x00), (0x8403, 0x01), (0x8404, 0x02),
                (0x8405, 0xF2)] })).map (fun t => (t.job, t.attempt, t.currentTrack))) =
    [some (some (.ending (.locate 0 0 1) .ok), 49, 5),
     some (some (.decoding (.locate 0 0 2)), 50, 5),
     some (some (.ending (.locate 0 0 2) .sectorNotFound), 50, 5),
     some (some (.ending (.locate 5 0 1) .seekError), 49, 0)] := by decide +kernel

/-- Mediums for ever: given in the script, and one more while the command waits (V-DEC-17). -/
theorem witness_UnsyncableStreamHangs :
    (vp.wf ∧ vp.tMedium ≤ 40 ∧ (515 : Half).toNat ≤ 515 ∧
      ({ v0 with pulses := List.replicate 3 (.pulse 40) } : State).stepwise = false ∧
      ({ v0 with pulses := List.replicate 3 (.pulse 40) } : State).pulses =
        List.replicate 3 (.pulse 40)) ∧
    (({ running (.decoding .rbody) with pulses := [.pulse 40] } : State).busy = true ∧
      ({ running (.decoding .rbody) with pulses := [.pulse 40] } : State).job = some (.decoding .rbody) ∧
      ({ running (.decoding .rbody) with pulses := [.pulse 40] } : State).dec.phase = .sync ∧
      ({ running (.decoding .rbody) with pulses := [.pulse 40] } : State).host = [] ∧
      pulseAnswer ({ running (.decoding .rbody) with pulses := [.pulse 40] } : State) = .pulse 40) := by
  decide

/-- V-RB-1. -/
theorem witness_RbodyJudgesBody :
    v0.stepwise = false ∧ ({ v0 with pulses := answers dsB0 ++ [.timeout] } : State).pulses = answers dsB0 ++ [.timeout] ∧
      DecodesTo vp 515 dsB0 bodyB0 := ⟨rfl, rfl, b0_decodes⟩

/-- V-LOC-2: 49 timeouts, then the record: the last attempt. -/
theorem witness_LocateFindsMatchingRecord :
    v0.stepwise = false ∧
    (List.replicate 49 [PulseAnswer.timeout]).length < vp.locateAttempts ∧
      (∀ as ∈ List.replicate 49 [PulseAnswer.timeout], FailedAttempt vp 0 0 1 as) ∧
      ({ v0 with pulses := (List.replicate 49 [PulseAnswer.timeout]).flatten ++
          (answers (frame encID1) ++ []) } : State).pulses =
        (List.replicate 49 [PulseAnswer.timeout]).flatten ++ (answers (frame encID1) ++ []) ∧
      DecodesTo vp 7 (frame encID1) recID1 ∧ MatchingRecord vp 0 0 1 recID1 :=
  ⟨rfl, by decide, fun _ h => (List.eq_of_mem_replicate h) ▸ timeout_fails _ _ _, rfl, id1_decodes,
    id1_matches⟩

/-- A failed attempt by a record of another sector, then V-LOC-5's record of another cylinder. -/
theorem witness_LocateReportsSeekError :
    v0.stepwise = false ∧
    [answers (frame encID1)].length < vp.locateAttempts ∧
      (∀ as ∈ [answers (frame encID1)], FailedAttempt vp 0 0 2 as) ∧
      ({ v0 with pulses := [answers (frame encID1)].flatten ++
          (answers (frame encID3) ++ []) } : State).pulses =
        [answers (frame encID1)].flatten ++ (answers (frame encID3) ++ []) ∧
      DecodesTo vp 7 (frame encID3) (0xFE :: 0x07 :: [0x00, 0x00, 0x01, 0x02, 0xA3, 0xAC].tail) ∧
      (0x07 : Byte) ≠ 0 :=
  ⟨rfl, by decide, by simpa using other_sector_fails, rfl, id3_decodes, by decide⟩

/-- V-LOC-3: fifty timeouts. -/
theorem witness_LocateExhaustsAttempts :
    v0.stepwise = false ∧
    (List.replicate 50 [PulseAnswer.timeout]).length = vp.locateAttempts ∧
      (∀ as ∈ List.replicate 50 [PulseAnswer.timeout], FailedAttempt vp 0 0 1 as) ∧
      ({ v0 with pulses := (List.replicate 50 [PulseAnswer.timeout]).flatten ++ [] } : State).pulses =
        (List.replicate 50 [PulseAnswer.timeout]).flatten ++ [] :=
  ⟨rfl, by decide, fun _ h => (List.eq_of_mem_replicate h) ▸ timeout_fails _ _ _, rfl⟩

/-- V-RS-1, V-RS-2. -/
theorem witness_RsecRefusals :
    v0.stepwise = false ∧ (ready 0).stepwise = false ∧ v0.initialized = false ∧ (ready 0).initialized = true ∧
      (ready 0).par.tracks ≤ (80 : Byte).toNat := by decide

/-- V-RS-3: the whole of RSEC 0, 0, 1 in READY. -/
def readState : State := { ready 0 with pulses := answers (frame encID1) ++ (answers dsB0 ++ []) }

theorem witness_RsecReadsSector :
    readState.stepwise = false ∧ readState.initialized = true ∧ (0 : Byte).toNat < readState.par.tracks ∧
      ([] : List (List PulseAnswer)).length < vp.locateAttempts ∧
      (∀ as ∈ ([] : List (List PulseAnswer)), FailedAttempt vp 0 0 1 as) ∧
      readState.pulses =
        ([] : List (List PulseAnswer)).flatten ++ (answers (frame encID1) ++ (answers dsB0 ++ [])) ∧
      DecodesTo vp 7 (frame encID1) recID1 ∧ MatchingRecord vp 0 0 1 recID1 ∧
      DecodesTo vp 515 dsB0 bodyB0 ∧ readState.lines.motor = readState.motorOn ∧
      bodyResult vp bodyB0 = .ok :=
  ⟨rfl, rfl, by decide, by decide, by simp, rfl, id1_decodes, id1_matches, b0_decodes, rfl, b0_result⟩

/-- Program 3: RSEC 5, 0, 1 meets a record of cylinder 7. -/
theorem witness_RsecSeekErrorDoesNotReseek :
    (ready 0).stepwise = false ∧ (ready 0).initialized = true ∧ (5 : Byte).toNat < (ready 0).par.tracks ∧
      0 < vp.locateAttempts ∧
      ({ ready 0 with pulses := answers (frame encID3) ++ [] } : State).pulses =
        ([] : List (List PulseAnswer)).flatten ++ (answers (frame encID3) ++ []) ∧
      DecodesTo vp 7 (frame encID3) recID3 ∧ (0x07 : Byte) ≠ 5 :=
  ⟨rfl, rfl, by decide, by decide, rfl, id3_decodes, by decide⟩

/-- V-RBLK-1, V-RBLK-2, V-RBLK-3, and the last block that fits (V-RBLK-6). -/
theorem witness_RblkChecksBeforeAnything :
    v0.stepwise = false ∧ (0 : Byte).toNat = 0 ∧ v0.par.maxBlocks < (5 : Byte).toNat ∧
      (¬((2 : Byte).toNat = 0 ∨ v0.par.maxBlocks < (2 : Byte).toNat) ∧
        v0.par.capacity < (2879 : Half).toNat + (2 : Byte).toNat) := by decide
theorem witness_RblkNeedsReady :
    v0.stepwise = false ∧ v0.initialized = false ∧ 1 ≤ (4 : Byte).toNat ∧ (4 : Byte).toNat ≤ v0.par.maxBlocks ∧
      (2876 : Half).toNat + (4 : Byte).toNat ≤ v0.par.capacity := by decide

/-- Program 4's first block: logical address 35 is (0, 1, 18). -/
def block35 : BlockScript :=
  { fails := [[.timeout]], ids := frame encID2, record := recID2, bds := dsB0, body := bodyB0 }

theorem block35_good : block35.Good vp 35 :=
  ⟨by decide, fun _ h => (List.mem_singleton.mp h) ▸ timeout_fails _ _ _, id2_decodes, id2_matches,
    b0_decodes, b0_result⟩

theorem witness_RblkDeliversEveryBlock :
    vp.wf ∧ (ready 0).stepwise = false ∧ (ready 0).initialized = true ∧ 1 ≤ (1 : Byte).toNat ∧
      (1 : Byte).toNat ≤ (ready 0).par.maxBlocks ∧
      (35 : Half).toNat + (1 : Byte).toNat ≤ (ready 0).par.capacity ∧
      [block35].length = (1 : Byte).toNat ∧
      (∀ (i : Nat) (b : BlockScript), [block35][i]? = some b → b.Good vp (35 + i)) ∧
      ({ ready 0 with pulses := [block35].flatMap BlockScript.script ++ [] } : State).pulses =
        [block35].flatMap BlockScript.script ++ [] := by
  refine ⟨by decide, rfl, rfl, by decide, by decide, by decide, rfl, ?_, rfl⟩
  intro i b h
  match i with
  | 0 => cases h; exact block35_good
  | i + 1 => simp at h

/-- Program 4: block 1 of RBLK 35, 2 meets fifty timeouts, and block 0 of RBLK 35, 1 each of ReadSector's
errors. -/
theorem witness_RblkStopsAtFirstError :
    vp.wf ∧ (ready 0).stepwise = false ∧ (ready 0).initialized = true ∧
      (2 : Byte).toNat ≤ (ready 0).par.maxBlocks ∧
      (35 : Half).toNat + (2 : Byte).toNat ≤ (ready 0).par.capacity ∧
      [block35].length < (2 : Byte).toNat ∧
      (∀ (i : Nat) (b : BlockScript), [block35][i]? = some b → b.Good vp (35 + i)) ∧
      ReadFails vp (BitVec.ofNat 8 (chsCyl vp 36)) (BitVec.ofNat 8 (chsHead vp 36))
        (BitVec.ofNat 8 (chsSec vp 36)) (List.replicate 50 .timeout) .sectorNotFound ∧
      ({ ready 0 with pulses := [block35].flatMap BlockScript.script ++
          (List.replicate 50 .timeout ++ []) } : State).pulses =
        [block35].flatMap BlockScript.script ++ (List.replicate 50 .timeout ++ []) ∧
    ([] : List BlockScript).length < (1 : Byte).toNat ∧
      ∀ e ∈ [ResultCode.sectorNotFound, .seekError, .noPulse, .incorrectDataMark, .crc], ∃ as,
        ReadFails vp (BitVec.ofNat 8 (chsCyl vp 35)) (BitVec.ofNat 8 (chsHead vp 35))
          (BitVec.ofNat 8 (chsSec vp 35)) as e := by
  refine ⟨by decide, rfl, rfl, by decide, by decide, by decide, ?_,
    ⟨List.replicate 50 [.timeout], fun _ h => (List.eq_of_mem_replicate h) ▸ timeout_fails _ _ _,
      .inl ⟨by decide, by decide, rfl⟩⟩, rfl, by decide, ?_⟩
  · intro i b h
    match i with
    | 0 => cases h; exact block35_good
    | i + 1 => simp at h
  · obtain ⟨h1, h2, h3, h4, h5⟩ := each_read_failure
    intro e he
    simp only [List.mem_cons, List.not_mem_nil, or_false] at he
    rcases he with rfl | rfl | rfl | rfl | rfl
    · exact ⟨_, h1⟩
    · exact ⟨_, h2⟩
    · exact ⟨_, h3⟩
    · exact ⟨_, h4⟩
    · exact ⟨_, h5⟩

/-- Each component command, from its acceptance and at a point of its run; and the address after DECODE 1's
byte is outside its region. -/
theorem witness_ComponentCommandFrame :
    ((∃ t, Runs (.decode 1) v0 t) ∧ (∃ t, Runs .rbody v0 t) ∧ (∃ t, Runs (.locate 0 0 1) v0 t)) ∧
    ((∃ t, Runs (.decode 1) (waiting (.decode 1) 0 .timeout) t) ∧
      (∃ t, Runs .rbody (waiting .rbody 0 .timeout) t) ∧
      (∃ t, Runs (.locate 5 0 1) (waiting (.locate 5 0 1) 49 .timeout) t)) ∧
    ¬decodeRegion (.decode 1) 0x8001 := by
  obtain ⟨h1, h2, h3, _, _, _⟩ := each_waiting .timeout
  exact ⟨⟨⟨_, .inl rfl⟩, ⟨_, .inl rfl⟩, ⟨_, .inl rfl⟩⟩,
    ⟨⟨_, .inr ⟨h1, ⟨rfl, _, rfl, rfl⟩, rfl⟩⟩, ⟨_, .inr ⟨h2, ⟨rfl, _, rfl, rfl⟩, rfl⟩⟩,
      ⟨_, .inr ⟨h3, ⟨rfl, _, rfl, rfl⟩, rfl⟩⟩⟩, by rintro ⟨-, h⟩; exact absurd h (by decide)⟩
theorem witness_SectorReadFrame :
    ((∃ t, Runs (.rsec 0 0 1) (ready 0) t) ∧ (∃ t, Runs (.rblk 35 2) (ready 0) t)) ∧
    ((∃ t, Runs (.rsec 5 0 1) (waiting (.readBody read5) 1 .timeout) t) ∧
      ∃ t, Runs (.rblk 35 2) (running (.rblk 35 2)) t) ∧
    ¬readRegion (.rblk 35 2) 1024 :=
  ⟨⟨⟨_, .inl rfl⟩, ⟨_, .inl rfl⟩⟩,
    ⟨⟨_, .inr ⟨(each_waiting .timeout).2.2.2.2.2, ⟨rfl, _, rfl, rfl⟩, rfl⟩⟩,
      ⟨_, .inr ⟨running_inv trivial, ⟨rfl, _, rfl, rfl⟩, rfl⟩⟩⟩,
    by simp [readRegion, bodyBase, bodySize, amBase, amSize]⟩

theorem witness_RdataWriters :
    (∃ t, Runs (.classify 40) v0 t ∧ t.rdata ≠ v0.rdata) ∧ (∃ t, Runs (.xlate 35) v0 t ∧ t.rdata ≠ v0.rdata) ∧
      ∃ t, Runs (.xlate 35) (running (.xlate 35)) t ∧ t.rdata ≠ 0 :=
  ⟨⟨_, .inl rfl, by decide⟩, ⟨_, .inl rfl, by decide⟩,
    _, .inr ⟨running_inv trivial, ⟨rfl, _, rfl, rfl⟩, rfl⟩, by decide⟩
theorem witness_LastOpTimeWriters :
    (∃ t, Runs (.seek 5) ({ v0 with nows := [9] } : State) t ∧ t.lastOpTime ≠ 0) ∧
      (∃ t, Runs (.rsec 0 0 1) ({ ready 0 with nows := [9] } : State) t ∧ t.lastOpTime ≠ 0) ∧
      (∃ t, Runs (.rblk 0 1) ({ ready 0 with nows := [9] } : State) t ∧ t.lastOpTime ≠ 0) :=
  ⟨⟨_, .inl rfl, by decide⟩, ⟨_, .inl rfl, by decide⟩, ⟨_, .inl rfl, by decide⟩⟩
theorem witness_MotorOnWriters :
    v0.lines.motor = v0.motorOn ∧ (∃ t, Runs (.motor true) v0 t ∧ t.motorOn ≠ v0.motorOn) ∧
      (∃ t, Runs (.rsec 0 0 1) (ready 0) t ∧ t.motorOn ≠ (ready 0).motorOn) ∧
      ∃ t, Runs (.motor false) (running (.motor false)) t ∧ t.motorOn ≠ true :=
  ⟨rfl, ⟨_, .inl rfl, by decide⟩, ⟨_, .inl rfl, by decide⟩,
    _, .inr ⟨running_inv trivial, ⟨rfl, _, rfl, rfl⟩, rfl⟩, by decide⟩
/-- Calibration, a seek, LOCATE's SeekError, and the two sector reads; and the arrivals as steps. -/
theorem witness_CurrentTrackWriters :
    (∃ t, Runs .init ({ ready 9 with trk0s := [true] } : State) t ∧ t.currentTrack ≠ 9) ∧
      (∃ t, Runs (.seek 5) (ready 3) t ∧ t.currentTrack ≠ 3) ∧
      (next? (exec (.locate 5 0 1) { v0 with pulses := answers (frame encID3) })).map
        State.currentTrack ≠ some v0.currentTrack ∧
      (∃ t, Runs (.rsec 5 0 1) (ready 3) t ∧ t.currentTrack ≠ 3) ∧
      (∃ t, Runs (.rblk 36 1) (ready 3) t ∧ t.currentTrack ≠ 3) ∧
      (∃ t, Runs (.seek 5) (running (.seekStep 5 0)) t ∧ t.currentTrack ≠ 3) ∧
      ∃ t, Runs (.rsec 5 0 1) (running (.readStep read5 0)) t ∧ t.currentTrack ≠ 3 :=
  ⟨⟨_, .inl rfl, by decide⟩, ⟨_, .inl rfl, by decide⟩, by decide +kernel, ⟨_, .inl rfl, by decide +kernel⟩,
    ⟨_, .inl rfl, by decide +kernel⟩,
    ⟨_, .inr ⟨running_inv ⟨rfl, by decide⟩, ⟨rfl, _, rfl, rfl⟩, rfl⟩, by decide⟩,
    _, .inr ⟨running_inv (read5_moving _), ⟨rfl, _, rfl, rfl⟩, rfl⟩, by decide⟩
/-- The last track; the step of a LOCATE that can end with SeekError; and a CMD write. -/
theorem witness_TrackBoundKeptButForSeekError :
    (Inv (waiting (.locate 5 0 1) 49 (.pulse 32)) ∧
      ((waiting (.locate 5 0 1) 49 (.pulse 32)).initialized = true →
        (waiting (.locate 5 0 1) 49 (.pulse 32)).currentTrack.toNat < vp.tracks) ∧
      ∃ t, step (waiting (.locate 5 0 1) 49 (.pulse 32)) = .next t) ∧
    (79 : Byte).toNat < vp.tracks :=
  ⟨⟨(each_waiting _).2.2.1, by decide, _, rfl⟩, by decide⟩
theorem witness_ResultCodesOfEachCommand :
    ((Instr.xlate 2880).wf = true ∧ ∃ t, Runs (.xlate 2880) v0 t ∧ t.busy = false) ∧
      (∃ t, Runs (.seek 5) (running (.seek 5)) t ∧ t.busy = true) ∧
      ∃ t, Runs (.seek 5) (running (.ending (.seek 5) .ok)) t ∧ t.busy = false :=
  ⟨⟨rfl, _, .inl rfl, by decide⟩, ⟨_, .inr ⟨running_inv trivial, ⟨rfl, _, rfl, rfl⟩, rfl⟩, by decide⟩,
    _, .inr ⟨running_inv (show ResultCode.ok ∈ resultCodes (.seek 5) by decide), ⟨rfl, _, rfl, rfl⟩, rfl⟩,
    by decide⟩
theorem witness_SpinUpFollowsMotorOn :
    SpinUpFollows [.delay .motorSpinup, .line .motor true] ∧
      ∃ t, step ({ hosted (.writeReg 0 0x00000106) with
        trace := [.delay .motorSpinup, .line .motor true] } : State) = .next t := by
  refine ⟨fun k hk => ?_, _, rfl⟩
  match k with
  | 0 => simp at hk
  | 1 => exact ⟨0, rfl, rfl⟩
  | k + 2 => simp at hk

/-- Running commands that meet the invariant, and step: a LOCATE that waits in its last attempt, INIT in its
loop, and a sector read that moves the head. -/
theorem witness_StepKeepsInvariant :
    (Inv (waiting (.locate 5 0 1) 50 .timeout) ∧
      ∃ t, step (waiting (.locate 5 0 1) 50 .timeout) = .next t) ∧
    (Inv calibrating ∧ ∃ t, step calibrating = .next t) ∧
    Inv (running (.readMove read5)) ∧ ∃ t, step (running (.readMove read5)) = .next t :=
  ⟨⟨(each_waiting _).2.2.2.1, _, rfl⟩, ⟨calibrating_inv, _, rfl⟩, running_inv (read5_moving _), _, rfl⟩

/-- A command that ends, and one that waits for its next pulse. -/
theorem witness_WholeRunIsItsSteps :
    ((Instr.seek 5).wf = true ∧ (ready 3).stepwise = false ∧ (ready 3).host = [] ∧
      ∃ t, exec (.seek 5) (ready 3) = .next t ∧ t.busy = false) ∧
    (Instr.locate 0 0 1).wf = true ∧ v0.stepwise = false ∧ v0.host = [] ∧
      ∃ t, exec (.locate 0 0 1) v0 = .next t ∧ t.busy = true :=
  ⟨⟨rfl, rfl, rfl, _, rfl, by decide⟩, rfl, rfl, rfl, _, rfl, by decide⟩

/-- RSEC 0, 1, 18 in READY, with each of ReadSector's errors. -/
theorem witness_RsecReportsFailedRead :
    (ready 0).stepwise = false ∧ (ready 0).initialized = true ∧ (0 : Byte).toNat < (ready 0).par.tracks ∧
      ∀ e ∈ [ResultCode.sectorNotFound, .seekError, .noPulse, .incorrectDataMark, .crc],
        ∃ as, ReadFails vp 0 1 18 as e ∧
          ({ ready 0 with pulses := as ++ [.timeout] } : State).pulses = as ++ [.timeout] := by
  obtain ⟨h1, h2, h3, h4, h5⟩ := each_read_failure
  refine ⟨rfl, rfl, by decide, fun e he => ?_⟩
  simp only [List.mem_cons, List.not_mem_nil, or_false] at he
  rcases he with rfl | rfl | rfl | rfl | rfl
  · exact ⟨_, h1, rfl⟩
  · exact ⟨_, h2, rfl⟩
  · exact ⟨_, h3, rfl⟩
  · exact ⟨_, h4, rfl⟩
  · exact ⟨_, h5, rfl⟩

end Sys2Proof.Tests
end

section
/-! The oracles (R21 to R23): what a query answers and the state it leaves, where State gives a next answer
and where it gives none. -/

namespace Sys2Proof.Machine

/-! ### NextPulse (R21) -/

theorem pulseAnswer_of_cons {s : State} {a : PulseAnswer} {rest : List PulseAnswer}
    (h : s.pulses = a :: rest) : pulseAnswer s = a := by simp [pulseAnswer, h]

theorem pulseAnswer_of_nil {s : State} (h : s.pulses = []) :
    pulseAnswer s = Config.freePulse s.draws := by simp [pulseAnswer, h]

theorem takePulse_of_cons {s : State} {a : PulseAnswer} {rest : List PulseAnswer}
    (h : s.pulses = a :: rest) :
    takePulse s = { s with pulses := rest, trace := .nextPulse a :: s.trace } := by
  simp [takePulse, emit, pulseAnswer_of_cons h, h]

theorem takePulse_of_nil {s : State} (h : s.pulses = []) :
    takePulse s = { s with
      draws := s.draws + 1, trace := .nextPulse (Config.freePulse s.draws) :: s.trace } := by
  simp [takePulse, emit, pulseAnswer_of_nil h, h]

/-! ### Trk0 (R22) -/

theorem trk0Answer_of_cons {s : State} {b : Bool} {rest : List Bool} (h : s.trk0s = b :: rest) :
    trk0Answer s = b := by simp [trk0Answer, h]

theorem trk0Answer_of_nil {s : State} (h : s.trk0s = []) :
    trk0Answer s = Config.freeTrk0 s.draws := by simp [trk0Answer, h]

theorem takeTrk0_of_cons {s : State} {b : Bool} {rest : List Bool} (h : s.trk0s = b :: rest) :
    takeTrk0 s = { s with trk0s := rest, trace := .trk0 b :: s.trace } := by
  simp [takeTrk0, emit, trk0Answer_of_cons h, h]

theorem takeTrk0_of_nil {s : State} (h : s.trk0s = []) :
    takeTrk0 s = { s with
      draws := s.draws + 1, trace := .trk0 (Config.freeTrk0 s.draws) :: s.trace } := by
  simp [takeTrk0, emit, trk0Answer_of_nil h, h]

/-! ### Now (R23) -/

theorem nowAnswer_of_cons {s : State} {t : Word} {rest : List Word} (h : s.nows = t :: rest) :
    nowAnswer s = t := by simp [nowAnswer, h]

theorem nowAnswer_of_nil {s : State} (h : s.nows = []) :
    nowAnswer s = Config.freeNow s.draws := by simp [nowAnswer, h]

theorem takeNow_of_cons {s : State} {t : Word} {rest : List Word} (h : s.nows = t :: rest) :
    takeNow s = { s with nows := rest, trace := .now t :: s.trace } := by
  simp [takeNow, emit, nowAnswer_of_cons h, h]

theorem takeNow_of_nil {s : State} (h : s.nows = []) :
    takeNow s = { s with
      draws := s.draws + 1, trace := .now (Config.freeNow s.draws) :: s.trace } := by
  simp [takeNow, emit, nowAnswer_of_nil h, h]

/-- Settles O16: for each oracle, the answer and the state after the query, by whether State gives a next
answer. -/
theorem oracleAnswersAreConsumed : Obligations.OracleAnswersAreConsumed := by
  unfold Obligations.OracleAnswersAreConsumed
  intro s
  refine ⟨?pulse, ?trk0, ?now, ?freePulse, ?freeTrk0, ?freeNow⟩
  case pulse => exact fun _ _ h => ⟨pulseAnswer_of_cons h, takePulse_of_cons h⟩
  case trk0 => exact fun _ _ h => ⟨trk0Answer_of_cons h, takeTrk0_of_cons h⟩
  case now => exact fun _ _ h => ⟨nowAnswer_of_cons h, takeNow_of_cons h⟩
  case freePulse => exact fun h => ⟨pulseAnswer_of_nil h, takePulse_of_nil h⟩
  case freeTrk0 => exact fun h => ⟨trk0Answer_of_nil h, takeTrk0_of_nil h⟩
  case freeNow => exact fun h => ⟨nowAnswer_of_nil h, takeNow_of_nil h⟩

end Sys2Proof.Machine
end

section
/-! The invariant in two parts: the registers and the memory (`StoreOk`), which each update keeps by a lemma
of its own, and the point of the running command (`JobOk`), which each point hands on to the next. -/

namespace Sys2Proof.Machine

/-- `Inv` without the running command: what it says of the parameters, the memory, the lines and the
registers. -/
structure StoreOk (s : State) : Prop where
  params : s.par.wf
  memCanonical : s.mem.wf
  memMapped : ∀ c ∈ s.mem, mapped s.par c.1 = true
  motorLine : s.lines.motor = s.motorOn
  stepLow : s.lines.step = false
  rdataHigh : s.rdata.toNat < 2 ^ 24
  decoder : DecoderOk s.par s.dec
  attempt : s.attempt ≤ s.par.locateAttempts
  stepCnt : s.stepCnt ≤ s.par.tracks
  blockIdx : s.blockIdx < s.par.maxBlocks

theorem Inv.store {s : State} (h : Inv s) : StoreOk s := { h with }

theorem inv_iff {s : State} : Inv s ↔
    StoreOk s ∧ s.busy = s.job.isSome ∧ ∀ j, s.job = some j → JobOk s j :=
  ⟨fun h => ⟨h.store, h.busyJob, h.job⟩,
    fun ⟨h, hb, hj⟩ => { h with busyJob := hb, job := hj }⟩

/-- R40: while BUSY = 1 a command stands at a point. -/
theorem Inv.exists_job {s : State} (h : Inv s) (hb : s.busy = true) : ∃ j, s.job = some j :=
  Option.isSome_iff_exists.mp (h.busyJob.symm.trans hb)

/-! ### What each update keeps of the registers and the memory -/

namespace StoreOk

variable {s : State}

/-- The host's side, RESULT, BUSY and the point are no part of it. -/
theorem host (h : StoreOk s) (hm : List HostMove) (hd : Word) (dr : Nat) (r : ResultCode) (b : Bool)
    (j : Option Job) : StoreOk { s with
      host := hm, hostData := hd, draws := dr, result := r, busy := b, job := j } := { h with }

theorem goto (h : StoreOk s) (j : Job) : StoreOk (goto j s) := { h with }
theorem endWith (h : StoreOk s) (i : Instr) (c : ResultCode) : StoreOk (endWith i c s) := { h with }
theorem finish (h : StoreOk s) (c : ResultCode) : StoreOk (finish c s) := { h with }
theorem accept (h : StoreOk s) : StoreOk (accept s) := { h with }
theorem takePulse (h : StoreOk s) : StoreOk (takePulse s) := { h with }
theorem takeTrk0 (h : StoreOk s) : StoreOk (takeTrk0 s) := { h with }
theorem takeNow (h : StoreOk s) : StoreOk (takeNow s) := { h with }
theorem recordTime (h : StoreOk s) : StoreOk (recordTime s) := { h with }
theorem stepPulse (h : StoreOk s) : StoreOk (stepPulse s) := by
  rw [stepPulse_eq]; exact { h with stepLow := rfl }
theorem seekAim (h : StoreOk s) (t : Byte) : StoreOk (seekAim t s) := { h with }
theorem seekArrive (h : StoreOk s) (t : Byte) : StoreOk (seekArrive t s) := { h with }
theorem headSel (h : StoreOk s) (v : Bool) : StoreOk (driveLine .headSel v s) := { h with }
theorem setTrack (h : StoreOk s) (t : Byte) : StoreOk { s with currentTrack := t } := { h with }

theorem calibrateStart (h : StoreOk s) : StoreOk (calibrateStart s) :=
  { h with stepCnt := Nat.zero_le _ }

theorem countStep (h : StoreOk s) (hn : s.stepCnt < s.par.tracks) : StoreOk (countStep s) :=
  { h with stepCnt := hn }

theorem setRdata (h : StoreOk s) {w : Word} (hw : w.toNat < 2 ^ 24) : StoreOk { s with rdata := w } :=
  { h with rdataHigh := hw }

theorem setMotor (h : StoreOk s) (on : Bool) : StoreOk (setMotor on s) := by
  rw [setMotor_eq]
  split
  · exact h
  · exact { h with motorLine := rfl }

theorem motorTick (h : StoreOk s) : StoreOk (motorTick s) := by
  unfold Machine.motorTick
  split
  · exact h.takeNow.setMotor false
  · exact h.takeNow

/-- R139: the entry to Decode clears SYNC_CNT and leaves the other working registers in their ranges. -/
theorem beginDecode (h : StoreOk s) (d : Decoding) : StoreOk (beginDecode d s) :=
  { h with
    decoder :=
      { h.decoder with
        syncCnt := Nat.zero_le _
        syncing := fun _ => by obtain ⟨_, _, _, _, hsync, _⟩ := h.params; exact hsync
        marking := nofun } }

theorem endDecode (h : StoreOk s) : StoreOk (endDecode s) :=
  { h with decoder := { h.decoder with syncing := nofun, marking := nofun } }

theorem setAttempt (h : StoreOk s) {k : Nat} (hk : k ≤ s.par.locateAttempts) :
    StoreOk { s with attempt := k } := { h with attempt := hk }

theorem startBlock (h : StoreOk s) (addr : Half) (count : Byte) {i : Nat} (hi : i < s.par.maxBlocks) :
    StoreOk (startBlock addr count i s) := { h with blockIdx := hi }

/-- A block write inside the buffers keeps memory canonical and inside the buffers (R71). -/
theorem setAll (h : StoreOk s) {base : Nat} {bs : List Byte}
    (hb : ∀ a, base ≤ a → a < base + bs.length → mapped s.par a = true) :
    StoreOk { s with mem := s.mem.setAll base bs } :=
  { h with
    memCanonical := Memory.setAll_wf h.memCanonical base bs
    memMapped := fun c hc =>
      (Memory.mem_setAll hc).elim (fun ⟨h1, h2⟩ => hb c.1 h1 h2) (h.memMapped c) }

theorem drawBuf (h : StoreOk s) {base n : Nat}
    (hb : ∀ a, base ≤ a → a < base + n → mapped s.par a = true) : StoreOk (drawBuf base n s) :=
  { h.setAll (bs := freeBytes s.draws n) (by simpa using hb) with }

end StoreOk

/-! ### The buffers are mapped -/

/-- R75: an output slot is inside OUT_BUF. -/
theorem mapped_slot {p : Params} {i : Nat} (hi : i < p.maxBlocks) (a : Nat) (h1 : slotBase i ≤ a)
    (h2 : a < slotBase i + sectorSize) : mapped p a = true := by
  unfold slotBase outBase sectorSize at h1 h2
  exact (mapped_iff p a).mpr (.inl (by omega))

/-- R71, R132: the buffer that a Decode writes is mapped. -/
theorem mapped_dst {p : Params} {d : Decoding} (hn : d.need ≤ bodySize) (a : Nat)
    (h1 : d.base ≤ a) (h2 : a < d.base + d.need) : mapped p a = true := by
  rw [mapped_iff]
  unfold bodySize at hn
  cases d <;> simp only [Decoding.base, Decoding.need, bodyBase, bodySize, amBase, amSize] at hn h1 h2 <;>
    omega

namespace StoreOk

variable {s : State}

theorem copySlot (h : StoreOk s) {i : Nat} (hi : i < s.par.maxBlocks) : StoreOk (copySlot i s) :=
  h.setAll fun a h1 h2 => mapped_slot hi a h1 (by simpa using h2)

theorem sectorFail (h : StoreOk s) {r : SectorRead} (hr : r.slot < s.par.maxBlocks) (c : ResultCode) :
    StoreOk (sectorFail r c s) := (h.drawBuf (mapped_slot hr)).endWith _ _

end StoreOk

end Sys2Proof.Machine
end

section
/-! What holds at each point of a running command is handed on to its next point. -/

namespace Sys2Proof.Machine

/-! ### ReadSector's caller -/

theorem callerOk_rblk {s : State} {r : SectorRead} {addr : Half} {count : Byte}
    (hr : r.caller = .rblk addr count) : CallerOk s r ↔
      r.slot = s.blockIdx ∧ s.blockIdx < count.toNat ∧ count.toNat ≤ s.par.maxBlocks ∧
        addr.toNat + count.toNat ≤ s.par.capacity ∧
        r.cyl = BitVec.ofNat 8 (chsCyl s.par (addr.toNat + s.blockIdx)) ∧
        r.head = BitVec.ofNat 8 (chsHead s.par (addr.toNat + s.blockIdx)) ∧
        r.sec = BitVec.ofNat 8 (chsSec s.par (addr.toNat + s.blockIdx)) := by
  unfold CallerOk; rw [hr]

theorem CallerOk.slot_lt {s : State} {r : SectorRead} (h : CallerOk s r) (hs : StoreOk s) :
    r.slot < s.par.maxBlocks := by
  have hb := hs.blockIdx
  unfold CallerOk at h
  split at h
  · omega
  · obtain ⟨hslot, _⟩ := h; omega

theorem CallerOk.congr {s t : State} {r : SectorRead} (h : CallerOk s r) (hp : t.par = s.par)
    (hb : t.blockIdx = s.blockIdx) : CallerOk t r := by
  simpa only [CallerOk, hp, hb] using h

theorem MovingOk.congr {s t : State} {r : SectorRead} (h : MovingOk s r) (hp : t.par = s.par)
    (hi : t.initialized = s.initialized) (hm : t.motorOn = s.motorOn) (hb : t.blockIdx = s.blockIdx) :
    MovingOk t r := by
  obtain ⟨hcaller, hinit, hmotor, htrack⟩ := h
  exact ⟨hcaller.congr hp hb, hi.trans hinit, hm.trans hmotor, by rwa [hp]⟩

/-- R264: a block of a validated request is read into its own slot. -/
theorem startBlock_jobOk {addr : Half} {count : Byte} {i : Nat} {s : State} (hi : i < count.toNat)
    (hm : count.toNat ≤ s.par.maxBlocks) (hc : addr.toNat + count.toNat ≤ s.par.capacity) :
    ∀ j, (startBlock addr count i s).job = some j → JobOk (startBlock addr count i s) j := by
  intro j hj; cases hj
  exact ⟨rfl, hi, hm, hc, rfl, rfl, rfl⟩

/-! ### A command inside Decode -/

/-- A ReadSector inside Decode has its head on its cylinder. -/
def Positioned (s : State) (d : Decoding) : Prop :=
  ∀ r, d = .readId r ∨ d = .readBody r → MovingOk s r ∧ s.currentTrack = r.cyl

theorem Positioned.congr {s t : State} {d : Decoding} (h : Positioned s d) (hs : SameDrive s t) :
    Positioned t d := fun r hr =>
  ⟨(h r hr).1.congr hs.par hs.initialized hs.motorOn hs.blockIdx, hs.currentTrack.trans (h r hr).2⟩

theorem Positioned.callerOk {s : State} {d : Decoding} (h : Positioned s d) {r : SectorRead}
    (hr : d = .readId r ∨ d = .readBody r) : CallerOk s r := by
  obtain ⟨⟨hcaller, _⟩, _⟩ := h r hr
  exact hcaller

/-- A Decode that reads no sector asks for no cylinder. -/
theorem positioned_of_no_read {s : State} {d : Decoding}
    (h : ∀ r, ¬(d = .readId r ∨ d = .readBody r)) : Positioned s d := fun r hr => absurd hr (h r)

/-- `DecodingOk`, said alike of every command that decodes. -/
theorem decodingOk_iff {s : State} {d : Decoding} : DecodingOk s d ↔
    s.dec.phase ≠ .done ∧ (s.dec.phase = .bits → s.dec.byteCnt < d.need) ∧ d.need ≤ bodySize ∧
      (d.locates = true → 1 ≤ s.attempt ∧ s.attempt ≤ s.par.locateAttempts) ∧ Positioned s d := by
  refine and_congr_right fun _ => and_congr_right fun _ => ?_
  cases d <;> simp [Decoding.need, Decoding.locates, Positioned, amSize, bodySize]

/-- A Decode is entered in SYNC. -/
theorem beginDecode_ok {d : Decoding} {s : State} (hn : d.need ≤ bodySize)
    (ha : d.locates = true → 1 ≤ s.attempt ∧ s.attempt ≤ s.par.locateAttempts) (hp : Positioned s d) :
    DecodingOk (beginDecode d s) d := decodingOk_iff.mpr ⟨nofun, nofun, hn, ha, hp⟩

/-- A pulse that does not complete the Decode leaves it under way. -/
theorem feedPulse_ok {d : Decoding} {s : State} (h : DecodingOk s d) (x : Nat)
    (hc : decodeComplete d.need (feed s.par d.need s.dec (classify s.par x)).1 = false) :
    DecodingOk (feedPulse d x s) d := by
  obtain ⟨hph, hb, hrest⟩ := decodingOk_iff.mp h
  refine decodingOk_iff.mpr ⟨feed_phase_ne_done hph _, fun hbits => ?_, hrest⟩
  have hle : s.dec.offset ≤ d.need := by
    unfold Decoder.offset; split
    · exact (hb ‹_›).le
    · exact Nat.zero_le _
  have hoff := feed_offset_le (p := s.par) hle (classify s.par x)
  rw [feedPulse_dec] at hbits ⊢
  simp only [Decoder.offset, hbits, if_true] at hoff
  simp only [decodeComplete, hbits, beq_self_eq_true, Bool.true_and, beq_eq_false_iff_ne] at hc
  omega

theorem StoreOk.feedPulse {d : Decoding} {s : State} (h : StoreOk s) (hd : DecodingOk s d) (x : Nat) :
    StoreOk (feedPulse d x s) := by
  obtain ⟨_, hb, hn, _, _⟩ := decodingOk_iff.mp hd
  obtain ⟨_, _, _, _, hsync, _⟩ := h.params
  have hmem : StoreOk { s with
      mem := s.mem.setAll (d.base + s.dec.byteCnt) (feed s.par d.need s.dec (classify s.par x)).2 } := by
    refine h.setAll fun a h1 h2 => ?_
    by_cases hbits : s.dec.phase = .bits
    · have hcnt := feed_ok hsync hn h.decoder (fun e => (hb e).le) (classify s.par x)
      rw [feed_bits hbits] at h2 hcnt
      obtain ⟨hphase, _, _, _, hlen, _⟩ := feedBits_spec d.need (classify s.par x) s.dec
      have hle := hcnt.2 (hphase.trans hbits)
      exact mapped_dst hn a (by omega) (by omega)
    · rw [(feed_offset s.par d.need s.dec (classify s.par x)).2 hbits, List.length_nil] at h2
      omega
  exact { hmem with decoder := (feed_ok hsync hn h.decoder (fun e => (hb e).le) _).1 }

/-! ### What follows the end of a Decode -/

theorem Tail.store {d : Decoding} {s t : State} (h : Tail d s t) (hs : StoreOk s)
    (hp : Positioned s d) : StoreOk t := by
  cases h with
  | ends c hc => exact hs.endWith _ _
  | endsMisplaced hl => exact (hs.setTrack _).endWith _ _
  | fails r c hd hc => exact hs.sectorFail ((hp.callerOk hd).slot_lt hs) c
  | failsMisplaced r hd =>
    exact (hs.setTrack (recordCyl s)).sectorFail ((hp.callerOk (.inl hd)).slot_lt hs) _
  | again k hl h1 hk => exact (hs.setAttempt hk).beginDecode d
  | body r hd => exact hs.beginDecode _
  | done r hd => exact (hs.copySlot ((hp.callerOk (.inr hd)).slot_lt hs)).endWith _ _
  | next r addr count hd hr hk =>
    have hc := hp.callerOk (.inr hd)
    obtain ⟨_, _, hm, _⟩ := (callerOk_rblk hr).mp hc
    exact (hs.copySlot (hc.slot_lt hs)).startBlock addr count (by simp; omega)

theorem Tail.jobOk {d : Decoding} {s t : State} (h : Tail d s t) (hn : d.need ≤ bodySize)
    (hp : Positioned s d) :
    ∀ j, t.job = some j → JobOk t j := by
  have hend : ∀ i c, t.job = some (.ending i c) → c ∈ resultCodes i := by
    intro i c he
    obtain ⟨j, hj, _, ⟨c', hc', rfl⟩ | ⟨d', rfl⟩ | ⟨r, rfl⟩⟩ := h.job <;> rw [hj] at he <;> cases he
    exact hc'
  intro j hj
  cases h with
  | fails r c hd hc => rw [sectorFail_job] at hj; cases hj; exact hend _ _ (sectorFail_job ..)
  | failsMisplaced r hd => rw [sectorFail_job] at hj; cases hj; exact hend _ _ (sectorFail_job ..)
  | again k hl h1 hk =>
    cases hj
    exact beginDecode_ok (s := { s with attempt := k }) hn (fun _ => ⟨h1, hk⟩) hp
  | body r hd =>
    subst hd; cases hj
    refine beginDecode_ok (Nat.le_refl _) nofun ?_
    rintro r' (e | e) <;> cases e
    exact hp r (.inl rfl)
  | next r addr count hd hr hk =>
    obtain ⟨_, _, hm, hc, _⟩ := (callerOk_rblk hr).mp (hp.callerOk (.inr hd))
    exact startBlock_jobOk hk (by simpa using hm) (by simpa using hc) j hj
  | _ => cases hj; exact hend _ _ rfl

/-! ### The first attempt of a Locate -/

theorem Decoding.need_le_of_locates {d : Decoding} (hl : d.locates = true) : d.need ≤ bodySize := by
  cases d <;> simp [Decoding.locates, Decoding.need, amSize, bodySize] at hl ⊢

theorem locateTry_store {d : Decoding} (hl : d.locates = true) {s : State} (hs : StoreOk s)
    (hp : Positioned s d) : StoreOk (locateTry 1 d s) :=
  (locateTry_tail hl 1 (Nat.le_refl 1) s).store hs hp

theorem locateTry_jobOk {d : Decoding} (hl : d.locates = true) {s : State} (hp : Positioned s d) :
    ∀ j, (locateTry 1 d s).job = some j → JobOk (locateTry 1 d s) j :=
  (locateTry_tail hl 1 (Nat.le_refl 1) s).jobOk (Decoding.need_le_of_locates hl) hp

end Sys2Proof.Machine
end

section
/-! O58: every point of a running command, the start of a command and every access of the host keep the
invariant. -/

namespace Sys2Proof.Machine

/-! ### One turn of a Decode -/

/-- What a turn of the Decode `d` leaves as it was when Decode ends, by its pulse or by a Timeout. -/
theorem sameDrive_ok (d : Decoding) (x : Nat) (s : State) :
    SameDrive s (endDecode (feedPulse d x (takePulse s))) := by
  refine ⟨⟨?_, ?_, ?_, ?_, ?_, ?_, ?_, ?_, ?_, ?_, ?_, ?_⟩, ?_, ?_⟩ <;> simp

theorem sameDrive_noPulse (base n : Nat) (s : State) : SameDrive s (drawBuf base n (takePulse s)) := by
  refine ⟨⟨?_, ?_, ?_, ?_, ?_, ?_, ?_, ?_, ?_, ?_, ?_, ?_⟩, ?_, ?_⟩ <;> simp

theorem takeAnswer_store {d : Decoding} {s : State} (hs : StoreOk s) (hd : DecodingOk s d) :
    StoreOk (takeAnswer d s) := by
  obtain ⟨_, _, hn, _, hp⟩ := decodingOk_iff.mp hd
  have hfeed : ∀ x, StoreOk (feedPulse d x (takePulse s)) := fun x => hs.takePulse.feedPulse hd x
  rcases takeAnswer_cases d s with ⟨x, _, _, e⟩ | ⟨x, _, _, ht⟩ | ⟨_, ht⟩
  · rw [e]; exact hfeed x
  · exact ht.store (hfeed x).endDecode (hp.congr (sameDrive_ok d x s))
  · exact ht.store (hs.takePulse.drawBuf (mapped_dst hn)) (hp.congr (sameDrive_noPulse _ _ s))

theorem takeAnswer_jobOk {d : Decoding} {s : State} (hj : s.job = some (.decoding d))
    (hd : DecodingOk s d) : ∀ j, (takeAnswer d s).job = some j → JobOk (takeAnswer d s) j := by
  obtain ⟨_, _, hn, _, hp⟩ := decodingOk_iff.mp hd
  rcases takeAnswer_cases d s with ⟨x, _, hc, e⟩ | ⟨x, _, _, ht⟩ | ⟨_, ht⟩
  · rw [e, feedPulse_job, takePulse_job, hj]
    rintro j ⟨⟩
    exact feedPulse_ok (s := takePulse s) hd x hc
  · exact ht.jobOk hn (hp.congr (sameDrive_ok d x s))
  · exact ht.jobOk hn (hp.congr (sameDrive_noPulse _ _ s))

/-! ### The values RDATA takes -/

theorem classWord_lt (c : PulseClass) : (classWord c).toNat < 2 ^ 24 := by cases c <;> decide

/-- Two fields put together, in numbers. -/
theorem toNat_append_eq_add {m n : Nat} (x : BitVec m) (y : BitVec n) :
    (x ++ y).toNat = x.toNat * 2 ^ n + y.toNat := by
  rw [BitVec.toNat_append, ← Nat.shiftLeft_add_eq_or_of_lt y.isLt, Nat.shiftLeft_eq]

/-- R266: bits [31:24] of XLATE's word are zero. -/
theorem chsWord_lt (p : Params) (addr : Nat) : (chsWord p addr).toNat < 2 ^ 24 := by
  have hc := (BitVec.ofNat 8 (chsCyl p addr)).isLt
  have hh := (BitVec.ofNat 8 (chsHead p addr)).isLt
  have hs := (BitVec.ofNat 8 (chsSec p addr)).isLt
  simp only [chsWord, toNat_append_eq_add]
  rw [show (0 : Byte).toNat = 0 from rfl]
  omega

/-! ### Every point -/

/-- A ReadSector that has its cylinder begins its first attempt. -/
theorem positioned_arrival {r : SectorRead} {s : State} (h : MovingOk s r) :
    Positioned (driveLine .headSel (r.head != 0) (seekArrive r.cyl s)) (.readId r) := by
  rintro r' (e | e) <;> cases e
  exact ⟨h, rfl⟩

/-- R31: every point keeps what the invariant says of the registers and the memory. -/
theorem act_store {j : Job} {s : State} (hs : StoreOk s) (h : JobOk s j) : StoreOk (act j s) := by
  cases j with
  | init => exact hs.calibrateStart.goto _
  | calibrating =>
    cases ht : trk0Answer s with
    | true => rw [act, calibrateTurn_found ht]; exact { hs.takeTrk0 with }
    | false =>
      rcases Nat.lt_or_ge s.stepCnt s.par.tracks with hn | hn
      · rw [act, calibrateTurn_step ht hn]; exact hs.takeTrk0.stepPulse.countStep (by simpa using hn)
      · rw [act, calibrateTurn_bound ht hn]; exact hs.takeTrk0.endWith _ _
  | seek t => exact hs.recordTime.goto _
  | seekCheck t =>
    simp only [act, seekStart]; split
    · exact hs.endWith _ _
    · exact (hs.seekAim t).goto _
  | seekStep t k =>
    cases k with
    | zero => exact (hs.seekArrive t).endWith _ _
    | succ k => rw [act, seekTurn]; exact hs.stepPulse.goto _
  | mtick => exact hs.motorTick.endWith _ _
  | motor on => exact (hs.setMotor on).endWith _ _
  | classify d => exact (hs.setRdata (classWord_lt _)).endWith _ _
  | xlate addr =>
    simp only [act, translateAddr]; split
    · exact hs.endWith _ _
    · exact (hs.setRdata (chsWord_lt _ _)).endWith _ _
  | rblk addr count =>
    simp only [act, startBlocks]; split
    · exact hs.endWith _ _
    · exact hs.startBlock addr count (by have := hs.blockIdx; omega)
  | readBegin r => exact hs.recordTime.goto _
  | readCheck r =>
    simp only [act, readStart]; split
    · exact hs.sectorFail (CallerOk.slot_lt h hs) _
    · exact (hs.setMotor true).goto _
  | readMove r => exact (hs.seekAim r.cyl).goto _
  | readStep r k =>
    cases k with
    | zero =>
      exact locateTry_store rfl ((hs.seekArrive r.cyl).headSel _) (positioned_arrival h)
    | succ k => rw [act, readTurn]; exact hs.stepPulse.goto _
  | decoding d => exact takeAnswer_store hs h
  | ending i c => exact hs.finish c

/-- R31: what holds at a point leads to the command's result, or to what holds at the next point. -/
theorem act_next {j : Job} {s : State} (hj : s.job = some j) (h : JobOk s j) :
    ∀ j', (act j s).job = some j' → (∃ i c, j' = .ending i c) ∨ JobOk (act j s) j' := by
  have hend : ∀ {i c} {j' : Job} {t : State}, some (Job.ending i c) = some j' →
      (∃ i c, j' = .ending i c) ∨ JobOk t j' := by
    rintro i c j' t ⟨⟩; exact .inl ⟨i, c, rfl⟩
  intro j' hj'
  cases j with
  | init => cases hj'; exact .inr rfl
  | calibrating =>
    cases ht : trk0Answer s with
    | true => rw [act, calibrateTurn_found ht] at hj'; exact hend hj'
    | false =>
      rcases Nat.lt_or_ge s.stepCnt s.par.tracks with hc | hc
      · rw [act, calibrateTurn_step ht hc] at hj' ⊢
        rw [countStep_job, stepPulse_job, takeTrk0_job, hj] at hj'
        cases hj'; exact .inr (by simpa [JobOk] using h)
      · rw [act, calibrateTurn_bound ht hc] at hj'; exact hend hj'
  | seek t => cases hj'; exact .inr trivial
  | seekCheck t =>
    cases hc : seekCheck t s with
    | some e => simp only [act, seekStart, hc] at hj'; exact hend hj'
    | none =>
      simp only [act, seekStart, hc] at hj' ⊢
      cases hj'; exact .inr (seekCheck_none.mp hc)
  | seekStep t k =>
    cases k with
    | zero => exact hend hj'
    | succ k =>
      rw [act, seekTurn] at hj' ⊢
      cases hj'; exact .inr (by simpa [JobOk] using h)
  | mtick => exact hend hj'
  | motor on => exact hend hj'
  | classify d => exact hend hj'
  | xlate addr =>
    simp only [act, translateAddr] at hj'
    split at hj' <;> exact hend hj'
  | rblk addr count =>
    cases hc : blockCheck addr count s with
    | some e => simp only [act, startBlocks, hc] at hj'; exact hend hj'
    | none =>
      simp only [act, startBlocks, hc] at hj' ⊢
      obtain ⟨h1, hm, hcap⟩ := blockCheck_none.mp hc
      exact .inr (startBlock_jobOk h1 hm hcap j' hj')
  | readBegin r => cases hj'; exact .inr h
  | readCheck r =>
    cases hc : seekCheck r.cyl s with
    | some e =>
      simp only [act, readStart, hc, sectorFail_job] at hj'; exact hend hj'
    | none =>
      simp only [act, readStart, hc] at hj' ⊢
      cases hj'
      obtain ⟨hi, ht⟩ := seekCheck_none.mp hc
      exact .inr ⟨CallerOk.congr h (by simp) (by simp), by simpa using hi, by simp,
        by simpa using ht⟩
  | readMove r => cases hj'; exact .inr h
  | readStep r k =>
    cases k with
    | zero =>
      rw [act, readTurn] at hj' ⊢
      exact .inr (locateTry_jobOk rfl (positioned_arrival h) j' hj')
    | succ k =>
      rw [act, readTurn] at hj' ⊢
      cases hj'; exact .inr (MovingOk.congr h (by simp) (by simp) (by simp) (by simp))
  | decoding d => rw [act] at hj' ⊢; exact .inr (takeAnswer_jobOk hj h j' hj')
  | ending i c => cases hj'

/-- R31: what holds at a point leads to what holds at the next one. -/
theorem act_jobOk {j : Job} {s : State} (hj : s.job = some j) (h : JobOk s j) :
    ∀ j', (act j s).job = some j' → JobOk (act j s) j' := by
  intro j' hj'
  rcases act_next hj h j' hj' with ⟨i, c, rfl⟩ | h'
  · have hn : ∀ i c, j ≠ .ending i c := by rintro i c rfl; cases hj'
    obtain ⟨_, _, j'', hj'', hcmd⟩ := act_goes_on hj hn
    cases hj'.symm.trans hj''
    rw [JobOk, show i = j.command from hcmd]; exact act_ends hj hn hj'
  · exact h'

theorem act_inv {j : Job} {s : State} (h : Inv s) (hj : s.job = some j) : Inv (act j s) := by
  refine inv_iff.mpr ⟨act_store h.store (h.job j hj), ?_, act_jobOk hj (h.job j hj)⟩
  by_cases hn : ∀ i c, j ≠ .ending i c
  · obtain ⟨hb, _, j', hj', _⟩ := act_goes_on hj hn
    rw [hb, hj', h.busyJob, hj]; rfl
  · simp only [not_forall, not_not] at hn
    obtain ⟨i, c, rfl⟩ := hn; rfl

/-! ### The start of a command -/

theorem start_store {s : State} (hs : StoreOk s) (i : Instr) : StoreOk (start i (accept s)) := by
  cases i with
  | locate c h sec =>
    exact locateTry_store rfl hs.accept (positioned_of_no_read (by simp))
  | decode n => exact hs.accept.beginDecode _
  | rbody => exact hs.accept.beginDecode _
  | _ => exact hs.accept.goto _

/-- What holds at the point where a command starts, in whatever state it is accepted. -/
theorem start_jobOk {i : Instr} (hw : i.wf = true) (s : State) :
    ∀ j, (start i s).job = some j → JobOk (start i s) j := by
  intro j hj
  cases i with
  | rsec c h sec => cases hj; exact rfl
  | decode n =>
    cases hj
    exact beginDecode_ok (d := .decode n) (of_decide_eq_true hw) nofun (positioned_of_no_read (by simp))
  | locate c h sec =>
    exact locateTry_jobOk rfl (positioned_of_no_read (by simp)) j hj
  | rbody =>
    cases hj
    exact beginDecode_ok (d := .rbody) (by decide) nofun (positioned_of_no_read (by simp))
  | _ => cases hj; trivial

theorem start_inv {i : Instr} (hw : i.wf = true) {s : State} (hs : StoreOk s) :
    Inv (start i (accept s)) := by
  refine inv_iff.mpr ⟨start_store hs i, ?_, start_jobOk hw _⟩
  obtain ⟨j, hj, _⟩ := start_job i (accept s)
  rw [hj, start_eq i (accept s)]; rfl

theorem exec_inv {i : Instr} {s t : State} (hs : StoreOk s) (h : exec i s = .next t) : Inv t := by
  rcases wf_or_long i with hw | ⟨n, rfl, hn⟩
  · rw [exec_start hw] at h; cases h
    unfold launch; split
    · exact start_inv hw hs
    · obtain ⟨j, hj, hi⟩ := start_job i (accept s)
      exact run_induct (i := i) (P := Inv) (fun u j _ hj _ hu => act_inv hu hj)
        (fun j' hj' => by cases hj.symm.trans hj'; exact hi) (start_inv hw hs)
  · rw [exec_long hn] at h; cases h
    exact inv_iff.mpr ⟨hs.accept.finish _, rfl, nofun⟩

/-! ### The step -/

/-- An access that touches the host's side alone. -/
theorem Inv.host {s : State} (h : Inv s) (hm : List HostMove) (hd : Word) (dr : Nat) :
    Inv { s with host := hm, hostData := hd, draws := dr } := { h with }

/-- Settles O58: the step starts a command, takes a running one to its next point, or is an access that
touches the host's side alone, or the word is refused; each keeps the invariant. -/
theorem stepKeepsInvariant : Obligations.StepKeepsInvariant := by
  unfold Obligations.StepKeepsInvariant
  intro s t h hstep
  rcases step_cases hstep with ⟨i, rest, w, _, _, _, he⟩ | ⟨rest, _, hb, rfl⟩ |
    ⟨rest, hd, dr, r, e, ⟨_, hj⟩ | ⟨_, hb, hj⟩⟩
  · exact exec_inv (h.host rest s.hostData s.draws).store he
  · obtain ⟨j, hj⟩ := h.exists_job hb
    rw [advance_eq (s := { s with host := rest }) hj]
    exact act_inv (h.host rest s.hostData s.draws) hj
  · rw [hj] at e; rw [e]
    exact inv_iff.mpr ⟨h.store.host rest hd dr r s.busy s.job, h.busyJob, h.job⟩
  · rw [hj] at e; rw [e]
    exact inv_iff.mpr ⟨h.store.host rest hd dr r s.busy none, hb, nofun⟩

end Sys2Proof.Machine
end

section
/-! Which commands write which register, from acceptance to the end (R32 to R35, R42). -/

namespace Sys2Proof.Machine

/-! ### A command that has come to its result -/

theorem Concludes.job_eq {i : Instr} {c : ResultCode} {u : State} {j : Job} (h : Concludes i c u)
    (hb : u.busy = true) (hj : u.job = some j) : j = .ending i c := by
  rcases h with ⟨hf, _⟩ | he
  · rw [hb] at hf; cases hf
  · exact Option.some.inj (hj.symm.trans he)

/-- A command that has come to a result ends with it. -/
theorem Concludes.act {i : Instr} {c : ResultCode} {u : State} {j : Job} (h : Concludes i c u)
    (hb : u.busy = true) (hj : u.job = some j) : Concludes i c (act j u) := by
  rw [h.job_eq hb hj]; exact .inl ⟨rfl, rfl⟩

theorem SectorRead.command_reads (r : SectorRead) : (∃ c h sec, r.command = .rsec c h sec) ∨
    ∃ addr count, r.command = .rblk addr count :=
  r.command_cases.imp (fun ⟨_, e⟩ => ⟨_, _, _, e⟩) fun ⟨addr, count, _, e⟩ => ⟨addr, count, e⟩

theorem SectorRead.command_wf (r : SectorRead) : r.command.wf = true := by
  rcases r.command_reads with ⟨c, h, sec, e⟩ | ⟨addr, count, e⟩ <;> rw [e] <;> rfl

/-! ### What a run of a command keeps -/

section
variable {i : Instr} {s t : State}

/-- `Runs.induct`, with what holds at each point that a well-formed command reaches. -/
theorem Runs.induct_jobOk (h : Runs i s t) {P : State → Prop} (hstart : P (start i (accept s)))
    (hhost : ∀ host hd dr, P { s with host := host, hostData := hd, draws := dr })
    (hlong : P (rejectWord s))
    (hact : ∀ (u : State) (j : Job), u.busy = true → u.job = some j → j.command = i →
      u.par = s.par → (i.wf = true → JobOk u j) → P u → P (act j u)) : P t := by
  have hpar : (start i (accept s)).par = s.par := by rw [start_eq]; rfl
  refine (h.induct
    (P := fun u => P u ∧ u.par = s.par ∧ (i.wf = true → ∀ j, u.job = some j → JobOk u j)) ?_ ?_ ?_ ?_).1
  · exact ⟨hstart, hpar, fun hw => start_jobOk hw _⟩
  · exact fun hv _ host hd dr => ⟨hhost host hd dr, rfl, fun _ => (hv.host host hd dr).job⟩
  · exact fun _ => ⟨hlong, rfl, fun _ => nofun⟩
  · rintro u j hb hj hi ⟨hu, hp, hjob⟩
    exact ⟨hact u j hb hj hi hp (fun hw => hjob hw j hj) hu, (act_host j u).1.trans hp,
      fun hw => act_jobOk hj (hjob hw j hj)⟩

/-- A register that neither the start of a command nor the host writes differs, after a run of the command,
only if one of the command's points has written it. -/
theorem Runs.writes (h : Runs i s t) {α : Type} {f : State → α} {W : State → Prop}
    (hf : ∀ (u : State) host hd dr r b job dec k, f { u with
      host := host, hostData := hd, draws := dr, result := r, busy := b, job := job
      dec := dec, attempt := k } = f u)
    (hact : ∀ (u : State) (j : Job), u.job = some j → j.command = i → u.par = s.par →
      (i.wf = true → JobOk u j) → f (act j u) = f u ∨ W (act j u))
    (hkeep : ∀ (u : State) (j : Job), u.busy = true → u.job = some j → f (act j u) = f u → W u →
      W (act j u)) : f t = f s ∨ W t := by
  refine h.induct_jobOk (P := fun u => f u = f s ∨ W u) ?_ ?_ ?_ ?_
  · exact .inl ((congrArg f (start_eq i (accept s))).trans
      (hf s s.host s.hostData s.draws s.result true _ _ _))
  · exact fun host hd dr => .inl (hf s host hd dr s.result s.busy s.job s.dec s.attempt)
  · exact .inl (hf s s.host s.hostData s.draws .badCommand false none s.dec s.attempt)
  · intro u j hb hj hi hp hjob hu
    rcases hact u j hj hi hp hjob with he | hw
    · exact hu.imp he.trans (hkeep u j hb hj he)
    · exact .inr hw

end

/-! ### RDATA (R42) -/

/-- R266: XLATE writes RDATA only when it comes to OK. -/
theorem translateAddr_rdata (addr : Half) (s : State) : (translateAddr addr s).rdata = s.rdata ∨
    (translateAddr addr s).job = some (.ending (.xlate addr) .ok) := by
  unfold translateAddr; split
  · exact .inl rfl
  · exact .inr rfl

/-- Settles O50: RDATA's only writers are CLASSIFY's and XLATE's points. -/
theorem rdataWriters : Obligations.RdataWriters := by
  unfold Obligations.RdataWriters
  intro i s t hr hne
  refine (hr.writes (f := State.rdata)
    (W := fun u => (∃ d, i = .classify d) ∨ ∃ addr, i = .xlate addr ∧ Concludes i .ok u)
    (fun _ _ _ _ _ _ _ _ _ => rfl) ?_ ?_).resolve_left hne
  · rintro u j _ rfl _ _
    cases j with
    | classify d => exact .inr (.inl ⟨d, rfl⟩)
    | xlate addr => exact (translateAddr_rdata addr u).imp_right fun h => .inr ⟨addr, rfl, .inr h⟩
    | _ => exact .inl (act_rdata nofun nofun)
  · rintro u j hb hj _ (hc | ⟨addr, hi, hc⟩)
    · exact .inl hc
    · exact .inr ⟨addr, hi, hc.act hb hj⟩

/-! ### LAST_OP_TIME (R35) -/

/-- Settles O51: the only points that record the time are SEEK's and ReadSector's first ones. -/
theorem lastOpTimeWriters : Obligations.LastOpTimeWriters := by
  unfold Obligations.LastOpTimeWriters
  intro i s t hr hne
  refine (hr.writes (f := State.lastOpTime) (W := fun _ => (∃ track, i = .seek track) ∨
    (∃ c h sec, i = .rsec c h sec) ∨ ∃ addr count, i = .rblk addr count)
    (fun _ _ _ _ _ _ _ _ _ => rfl) ?_ (fun _ _ _ _ _ h => h)).resolve_left hne
  rintro u j _ rfl _ _
  cases j with
  | seek track => exact .inr (.inl ⟨track, rfl⟩)
  | readBegin r => exact .inr (.inr r.command_reads)
  | _ => exact .inl (act_lastOpTime nofun nofun)

/-! ### MOTOR_ON and the MOTOR line (R34) -/

theorem Runs.motorLine {i : Instr} {s t : State} (h : Runs i s t) (hs : s.lines.motor = s.motorOn) :
    t.lines.motor = t.motorOn := by
  refine h.induct_jobOk (P := fun u => u.lines.motor = u.motorOn) ?_ (fun _ _ _ => hs) hs
    fun u j _ _ _ _ _ hu => act_motorLine j hu
  rw [start_eq]; exact hs

/-- Settles O52: SetMotor drives the line and writes MOTOR_ON together, and only MOTOR, MTICK and ReadSector
call it. -/
theorem motorOnWriters : Obligations.MotorOnWriters := by
  unfold Obligations.MotorOnWriters
  intro i s t hr
  refine ⟨hr.motorLine, fun hne => ?_⟩
  refine (hr.writes (f := State.motorOn) (W := fun _ => (∃ on, i = .motor on) ∨ i = .mtick ∨
    (∃ c h sec, i = .rsec c h sec) ∨ ∃ addr count, i = .rblk addr count)
    (fun _ _ _ _ _ _ _ _ _ => rfl) ?_ (fun _ _ _ _ _ h => h)).resolve_left hne
  rintro u j _ rfl _ _
  cases j with
  | motor on => exact .inr (.inl ⟨on, rfl⟩)
  | mtick => exact .inr (.inr (.inl rfl))
  | readCheck r => exact .inr (.inr (.inr r.command_reads))
  | _ => exact .inl (act_motorOn nofun nofun nofun)

/-! ### INITIALIZED (R33) -/

theorem Runs.initialized_eq {i : Instr} {s t : State} (h : Runs i s t) (hi : i ≠ .init) :
    t.initialized = s.initialized := by
  refine (h.writes (f := State.initialized) (W := fun _ => i = .init)
    (fun _ _ _ _ _ _ _ _ _ => rfl) ?_ (fun _ _ _ _ _ h => h)).resolve_right hi
  rintro u j _ rfl _ _
  cases j with
  | init => exact .inr rfl
  | calibrating => exact .inr rfl
  | _ => exact .inl (act_initialized nofun nofun)

/-- INIT leads to READY only with the result OK. -/
theorem Runs.ready_of_init {s t : State} (h : Runs .init s t) :
    t.initialized = true → s.initialized = true ∨ Concludes .init .ok t := by
  refine h.induct_jobOk
    (P := fun u => u.initialized = true → s.initialized = true ∨ Concludes .init .ok u)
    .inl (fun _ _ _ => .inl) .inl fun u j hb hj _ _ _ hu ht => ?_
  rcases act_initialized_init ht with h1 | ⟨_, h2⟩
  · exact (hu h1).imp_right fun hc => hc.act hb hj
  · exact .inr (.inr h2)

theorem controller_eq_ready {s : State} : controller s = .ready ↔ s.initialized = true := by
  unfold controller; split
  · simp_all
  · split <;> simp_all

/-- Settles O29: only INIT's points write INITIALIZED, and set it only together with the result OK. -/
theorem onlyInitWritesInitialized : Obligations.OnlyInitWritesInitialized := by
  unfold Obligations.OnlyInitWritesInitialized
  intro i s t hr
  refine ⟨hr.initialized_eq, fun ht => ?_, fun hs ht => ?_⟩
  · by_cases hi : i = .init
    · subst hi; exact (hr.ready_of_init ht).imp_right fun hc => ⟨rfl, hc⟩
    · exact .inl ((hr.initialized_eq hi).symm.trans ht)
  · by_contra hi
    rw [Ne, controller_eq_ready, hr.initialized_eq hi] at ht
    exact ht (controller_eq_ready.mp hs)

/-! ### CURRENT_TRACK (R32) -/

/-- CURRENT_TRACK holds what command `i` writes there: 0 or SEEK's target, which end it; an observed
cylinder, which ends it; or the cylinder of the sector or of one of the request's blocks. -/
def TrackWritten (p : Params) (i : Instr) (u : State) : Prop :=
  (i = .init ∧ Concludes i .ok u ∧ u.currentTrack = 0) ∨
  (∃ track, i = .seek track ∧ Concludes i .ok u ∧ u.currentTrack = track) ∨
  ((∃ c h sec, i = .locate c h sec) ∧ Concludes i .seekError u) ∨
  (∃ c h sec, i = .rsec c h sec ∧ (u.currentTrack = c ∨ Concludes i .seekError u)) ∨
  (∃ addr count, i = .rblk addr count ∧
    ((∃ k, k < count.toNat ∧ u.currentTrack = BitVec.ofNat 8 (chsCyl p (addr.toNat + k))) ∨
      Concludes i .seekError u))

theorem TrackWritten.congr {p : Params} {i : Instr} {u v : State} (h : TrackWritten p i u)
    (ht : v.currentTrack = u.currentTrack) (hc : ∀ c, Concludes i c u → Concludes i c v) :
    TrackWritten p i v := by
  unfold TrackWritten
  rw [ht]
  exact h.imp (.imp_right (.imp_left (hc _))) <| .imp
    (fun ⟨t, hi, h, e⟩ => ⟨t, hi, hc _ h, e⟩) <| .imp (.imp_right (hc _)) <| .imp
    (fun ⟨c, h, sec, hi, e⟩ => ⟨c, h, sec, hi, e.imp_right (hc _)⟩)
    fun ⟨addr, count, hi, e⟩ => ⟨addr, count, hi, e.imp_right (hc _)⟩

/-- R263, R264: the cylinder on which a ReadSector arrives is the one its command asks for. -/
theorem trackWritten_arrival {p : Params} {r : SectorRead} {s u : State} (hm : MovingOk s r)
    (hp : s.par = p) (hu : u.currentTrack = r.cyl) : TrackWritten p r.command u := by
  obtain ⟨hcaller, _⟩ := hm
  rcases r.command_cases with ⟨_, e⟩ | ⟨addr, count, hr, e⟩ <;> rw [e]
  · exact .inr (.inr (.inr (.inl ⟨_, _, _, rfl, .inl hu⟩)))
  · obtain ⟨_, hk, _, _, hcyl, _⟩ := (callerOk_rblk hr).mp hcaller
    exact .inr (.inr (.inr (.inr ⟨addr, count, rfl, .inl ⟨_, hk, by rw [hu, hcyl, hp]⟩⟩)))

/-- R183: a Locate that comes to SeekError belongs to LOCATE, RSEC or RBLK. -/
theorem trackWritten_misplaced {p : Params} {d : Decoding} {u : State} (hl : d.locates = true)
    (hu : Concludes d.command .seekError u) : TrackWritten p d.command u := by
  cases d with
  | locate c h sec => exact .inr (.inr (.inl ⟨⟨c, h, sec, rfl⟩, hu⟩))
  | readId r =>
    rcases r.command_reads with ⟨c, h, sec, e⟩ | ⟨addr, count, e⟩
    · exact .inr (.inr (.inr (.inl ⟨c, h, sec, e, .inr hu⟩)))
    · exact .inr (.inr (.inr (.inr ⟨addr, count, e, .inr hu⟩)))
  | _ => simp [Decoding.locates] at hl

/-- Settles O53: CURRENT_TRACK is written where calibration succeeds, where a head arrives, and where a
Locate sees another cylinder. -/
theorem currentTrackWriters : Obligations.CurrentTrackWriters := by
  unfold Obligations.CurrentTrackWriters
  intro i s t hr hne
  refine (hr.writes (f := State.currentTrack) (W := TrackWritten s.par i)
    (fun _ _ _ _ _ _ _ _ _ => rfl) ?_ ?_).resolve_left hne
  · rintro u j _ rfl hp hjob
    rcases act_currentTrack j u with h | ⟨rfl, h0, he⟩ | ⟨t, rfl, ht, he⟩ | ⟨r, rfl, hc⟩ | ⟨d, rfl, hl, he⟩
    · exact .inl h
    · exact .inr (.inl ⟨rfl, .inr he, h0⟩)
    · exact .inr (.inr (.inl ⟨t, rfl, .inr he, ht⟩))
    · exact .inr (trackWritten_arrival (hjob r.command_wf) hp hc)
    · exact .inr (trackWritten_misplaced hl (.inr he))
  · exact fun u j hb hj he hw => hw.congr he fun c hc => hc.act hb hj

/-! ### CURRENT_TRACK stays below TRACKS while READY (R36) -/

/-- CURRENT_TRACK < TRACKS while INITIALIZED = 1. -/
def TrackBounded (s : State) : Prop := s.initialized = true → s.currentTrack.toNat < s.par.tracks

/-- R222: the calibration loop enters READY on track 0. -/
theorem calibrateTurn_currentTrack {s : State} (h0 : s.initialized = false)
    (h : (calibrateTurn s).initialized = true) : (calibrateTurn s).currentTrack = 0 := by
  cases ht : trk0Answer s with
  | true => rw [calibrateTurn_found ht]; rfl
  | false =>
    rcases Nat.lt_or_ge s.stepCnt s.par.tracks with hn | hn
    · rw [calibrateTurn_step ht hn] at h; simp [h0] at h
    · rw [calibrateTurn_bound ht hn] at h; simp [h0] at h

/-- R36: every point keeps the bound, but for a Locate that sees another cylinder (R183). -/
theorem act_trackBounded {j : Job} {s : State} (hp : 1 ≤ s.par.tracks) (hjob : JobOk s j)
    (h : TrackBounded s) : TrackBounded (act j s) ∨
      ∃ d, j = .decoding d ∧ (act j s).job = some (.ending d.command .seekError) := by
  have hpar : (act j s).par = s.par := (act_host j s).1
  unfold TrackBounded at *
  rw [hpar]
  rcases act_currentTrack j s with hc | ⟨rfl, hc, _⟩ | ⟨t, rfl, hc, _⟩ | ⟨r, rfl, hc⟩ | ⟨d, rfl, _, he⟩
  · refine .inl fun hi => ?_
    rcases act_initialized_init hi with hs | ⟨rfl, _⟩
    · rw [hc]; exact h hs
    · rw [act] at hi ⊢; rw [calibrateTurn_currentTrack hjob hi]; exact hp
  · exact .inl fun _ => by rw [hc]; exact hp
  · exact .inl fun _ => by rw [hc]; exact hjob.2
  · obtain ⟨_, _, _, ht⟩ := hjob
    exact .inl fun _ => by rw [hc]; exact ht
  · exact .inr ⟨d, rfl, he⟩

/-- R36: the acceptance of a command, as far as it is run, keeps the bound, unless the command comes to
SeekError. -/
theorem exec_trackBounded {i : Instr} {s t : State} (hp : 1 ≤ s.par.tracks) (h : TrackBounded s)
    (he : exec i s = .next t) : TrackBounded t ∨ Concludes i .seekError t := by
  rcases wf_or_long i with hw | ⟨n, rfl, hn⟩
  · refine Runs.induct_jobOk (.inl he) (P := fun u => TrackBounded u ∨ Concludes i .seekError u)
      ?_ (fun _ _ _ => .inl h) (.inl h) fun u j hb hj hi hpar hjob hu => ?_
    · rw [start_eq]; exact .inl h
    · rcases hu with hu | hu
      · refine (act_trackBounded (by rwa [hpar]) (hjob hw) hu).imp_right ?_
        rintro ⟨d, rfl, hd⟩
        rw [← hi]; exact .inr hd
      · exact .inr (hu.act hb hj)
  · rw [exec_long hn] at he; cases he; exact .inl h

/-- Settles O54: a step starts a command, takes the running one to its next point, or leaves CURRENT_TRACK
and INITIALIZED alone. -/
theorem trackBoundKeptButForSeekError : Obligations.TrackBoundKeptButForSeekError := by
  unfold Obligations.TrackBoundKeptButForSeekError
  intro s t hv hs hstep
  obtain ⟨⟨hp, _⟩, _⟩ := hv.params
  rcases step_cases hstep with ⟨i, rest, w, hb, hh, hd, he⟩ | ⟨rest, _, hb, rfl⟩ | ⟨rest, hd, dr, r, e, _⟩
  · exact (exec_trackBounded (s := { s with host := rest }) hp hs he).imp_right
      fun hc => ⟨i, hc, .inl ⟨hb, w, rest, hh, hd⟩⟩
  · obtain ⟨j, hj⟩ := hv.exists_job hb
    rw [advance_eq (s := { s with host := rest }) hj]
    refine (act_trackBounded (s := { s with host := rest }) hp (hv.job j hj) hs).imp_right ?_
    rintro ⟨d, rfl, hd⟩
    exact ⟨d.command, .inr hd, .inr ⟨⟨hb, _, hj, rfl⟩, by rw [hd, hj]; nofun⟩⟩
  · rw [e]; exact .inl hs

end Sys2Proof.Machine
end

section
/-! The host's view of the registers (R38 to R40, R80), and the state after reset (R48). -/

namespace Sys2Proof.Machine

/-! ### The host's accesses -/

/-- R39: a register that is not hidden reads as what it holds. -/
theorem step_readReg_shown {s : State} {off : Nat} {rest : List HostMove}
    (h : s.host = .readReg off :: rest) (ho : off % 4 = 0) (hs : (s.busy && busyHidden off) = false) :
    step s = .next { s with host := rest, hostData := regValue s off } := by
  rw [step, h]; simp only [hostMove, hostReadReg, ho, hs]; rfl

/-- R80: while a command runs a hidden register reads as a free value. -/
theorem step_readReg_hidden {s : State} {off : Nat} {rest : List HostMove}
    (h : s.host = .readReg off :: rest) (ho : off % 4 = 0) (hs : (s.busy && busyHidden off) = true) :
    step s = .next { s with
      host := rest, hostData := Config.freeWord s.draws, draws := s.draws + 1 } := by
  rw [step, h]; simp only [hostMove, hostReadReg, ho, hs]; rfl

theorem step_writeReg {s : State} {off : Nat} {w : Word} {rest : List HostMove}
    (h : s.host = .writeReg off w :: rest) (ho : off % 4 = 0) :
    step s = writeRegister off w { s with host := rest } := by
  rw [step, h]; exact if_pos ho

theorem busyHidden_iff {off : Nat} : busyHidden off = true ↔ off = 8 ∨ off = 12 ∨ off = 16 := by
  simp [busyHidden, or_assoc]

/-- R39: what the registers other than STATUS hold. -/
theorem regValue_eq {off : Nat} (ho : off ≠ 4) (s : State) : regValue s off =
    if off = 8 then BitVec.ofNat 32 s.currentTrack.toNat
    else if off = 12 then s.rdata
    else if off = 16 then s.lastOpTime
    else 0 := by
  unfold regValue
  split
  · exact absurd rfl ho
  · simp
  · rfl
  · rfl
  · rename_i h8 h12 h16; rw [if_neg h8, if_neg h12, if_neg h16]

/-- Settles O12: an unaligned offset has no move. -/
theorem unalignedHostAccessStops : Obligations.UnalignedHostAccessStops := by
  unfold Obligations.UnalignedHostAccessStops
  intro s off w rest ho
  constructor <;> (intro h; rw [step, h]; exact if_neg ho)

/-- Settles O14: a read returns `regValue`, or a free value where `busyHidden` says so; only a write to an
idle core's CMD has a meaning. -/
theorem registerMap : Obligations.RegisterMap := by
  unfold Obligations.RegisterMap
  intro s off w rest ho
  refine ⟨fun h hb h4 => ?idle, fun h hb h4 => ?busy, fun h hw => ?write⟩
  case idle => rw [step_readReg_shown h ho (by rw [hb]; rfl), regValue_eq h4]
  case busy =>
    by_cases hh : off = 8 ∨ off = 12 ∨ off = 16
    · rw [if_pos hh]
      exact step_readReg_hidden h ho (by rw [hb, busyHidden_iff.mpr hh]; rfl)
    · have hs : busyHidden off = false := by rwa [← Bool.not_eq_true, busyHidden_iff]
      obtain ⟨h8, h12, h16⟩ := by simpa only [not_or] using hh
      rw [if_neg hh, step_readReg_shown h ho (by rw [hs, Bool.and_false]), regValue_eq h4,
        if_neg h8, if_neg h12, if_neg h16]
  case write =>
    rw [step_writeReg h ho, writeRegister]
    by_cases h0 : off = 0
    · rw [if_pos h0]; exact if_pos (hw.resolve_left (absurd h0))
    · rw [if_neg h0]

/-! ### STATUS (R40, R110) -/

theorem toNat_code (c : ResultCode) : c.code.toNat = resultNumber c := by cases c <;> rfl

/-- R40: the fields of STATUS at their bits. -/
theorem toNat_statusWord (s : State) : (statusWord s).toNat = resultNumber s.result +
    16 * s.busy.toNat + 32 * s.initialized.toNat + 64 * s.motorOn.toNat := by
  simp only [statusWord, toNat_append_eq_add, BitVec.toNat_ofBool, toNat_code]
  rw [show (0 : BitVec 25).toNat = 0 from rfl]
  omega

/-- Settles O13: STATUS is never hidden, and its bits are its fields. -/
theorem statusReadShowsFields : Obligations.StatusReadShowsFields := by
  unfold Obligations.StatusReadShowsFields
  intro s rest h
  exact ⟨statusWord s, step_readReg_shown h rfl (Bool.and_false _), toNat_statusWord s⟩

/-! ### Reset (R48, R340) -/

/-- The OPEN parameters meet their constraints, whatever they are. -/
theorem params_wf : Config.params.wf := by
  have ht := Config.tracksLessOne.isLt
  have hh := Config.headsLessOne.isLt
  have hs := Config.sectorsLessOne.isLt
  have hm := Config.maxBlocksLessOne.isLt
  simp only [Params.wf, Config.params]
  omega

/-- Settles O17: R48's values, and a buffer byte that nothing has written. -/
theorem resetState : Obligations.ResetState := by
  unfold Obligations.ResetState
  refine ⟨rfl, rfl, rfl, rfl, rfl, rfl, rfl, rfl, fun a ha => ?_⟩
  rw [bufByte, unwrittenByte, if_pos ha]; rfl

/-- Settles O57: at reset nothing is written, nothing runs and every counter is 0. -/
theorem resetMeetsInvariant : Obligations.ResetMeetsInvariant where
  params := params_wf
  memCanonical := .nil
  memMapped := nofun
  motorLine := rfl
  stepLow := rfl
  busyJob := rfl
  rdataHigh := by decide
  decoder :=
    { syncCnt := Nat.zero_le _, syncing := fun _ => by decide, markIdx := by decide
      marking := fun _ => by decide, bitCnt := by decide, byteCnt := by decide }
  attempt := Nat.zero_le _
  stepCnt := Nat.zero_le _
  blockIdx := Nat.succ_pos _
  job := nofun

end Sys2Proof.Machine
end

section
/-! The bytes of the buffer space as the host reads them (R71, R72, R80), and the bytes of a word on a
byte-serial link (R79). -/

namespace Sys2Proof.Machine

/-! ### Buffer accesses (R71, R72, R80) -/

/-- R71: with only mapped addresses in memory, an unmapped one reads 0x00. -/
theorem bufByte_unmapped {s : State} (hm : ∀ c ∈ s.mem, mapped s.par c.1 = true) {a : Nat}
    (ha : mapped s.par a ≠ true) : bufByte s a = 0 := by
  have hnone : s.mem.get a = none := Memory.get_eq_none fun c hc e => ha (e ▸ hm c hc)
  rw [bufByte, hnone, Option.getD_none, unwrittenByte, if_neg ha]

/-- R72: an idle core's buffer byte reads as what it holds, and the read changes nothing else. -/
theorem step_readBuf_idle {s : State} {a : Half} {rest : List HostMove}
    (h : s.host = .readBuf a :: rest) (hb : s.busy = false) :
    step s = .next { s with host := rest, hostData := (bufByte s a.toNat).zeroExtend 32 } := by
  rw [step, h]; simp only [hostMove, hostReadBuf, hb]; rfl

/-- R80: while a command runs a buffer byte reads as a free one. -/
theorem step_readBuf_busy {s : State} {a : Half} {rest : List HostMove}
    (h : s.host = .readBuf a :: rest) (hb : s.busy = true) :
    step s = .next { s with
      host := rest
      hostData := ((Config.freeWord s.draws).extractLsb' 0 8).zeroExtend 32
      draws := s.draws + 1 } := by
  rw [step, h]; simp only [hostMove, hostReadBuf, hb]; rfl

/-- Settles O15: an idle read shows the byte, which is 0 where memory can hold nothing; a busy read draws a
free byte; a write has no effect. -/
theorem bufferSpaceAccess : Obligations.BufferSpaceAccess := by
  unfold Obligations.BufferSpaceAccess
  intro s a b rest hm
  refine ⟨fun h hb => ?idle, fun h hb => ?busy, fun h => ?write⟩
  case idle =>
    refine ⟨_, step_readBuf_idle h hb, BitVec.toNat_setWidth_of_le (by decide), fun ha => ?_⟩
    rw [bufByte_unmapped hm (mt (mapped_iff _ _).mp ha)]; rfl
  case busy =>
    refine ⟨_, ?_, step_readBuf_busy h hb⟩
    rw [BitVec.toNat_setWidth_of_le (by decide), BitVec.extractLsb'_toNat, Nat.shiftRight_zero]
  case write => rw [step, h]; rfl

/-! ### The bytes of a word (R79) -/

/-- R79: byte `k` of a word is its field at bit `8k`. -/
theorem bytesOfWord_getElem? (w : Word) {k : Nat} (hk : k < 4) :
    (bytesOfWord w)[k]? = some (w.extractLsb' (8 * k) 8) := by
  obtain rfl | rfl | rfl | rfl : k = 0 ∨ k = 1 ∨ k = 2 ∨ k = 3 := by omega
  all_goals rfl

/-- R79, R97: the byte decoder puts the word of the first four bytes together again. -/
theorem decodeBytes_bytesOfWord (w : Word) (rest : List Byte) :
    decodeBytes (bytesOfWord w ++ rest) = (decodeWord w).map (·, rest) := by
  simp only [bytesOfWord, List.cons_append, List.nil_append, decodeBytes, wordOfBytes_bytes]

/-- Settles O6: the fields of a word are its bytes, and reading them in that order gives the word back. -/
theorem wordBytesAreLittleEndian : Obligations.WordBytesAreLittleEndian := by
  unfold Obligations.WordBytesAreLittleEndian
  exact fun w rest => ⟨fun _ hk => bytesOfWord_getElem? w hk, decodeBytes_bytesOfWord w rest⟩

end Sys2Proof.Machine
end

section
/-! Command words and their commands (R92 to R95, R99): decoding and encoding are inverse on the well-formed
commands, and the words that fit a row of the opcode table are the encodings. -/

namespace Sys2Proof.Machine

/-! ### A word from what its fields are -/

theorem wordABC_eq_iff {w : Word} {o a b c : Byte} : wordABC o a b c = w ↔
    fieldOpc w = o ∧ fieldA w = a ∧ fieldB w = b ∧ fieldC w = c := by
  conv => lhs; rw [← wordABC_fields w]
  rw [eq_comm, wordABC_inj]

theorem wordAW_eq {w : Word} {o a : Byte} {h : Half} (ho : fieldOpc w = o) (ha : fieldA w = a)
    (hw : fieldW w = h) : wordAW o a h = w := by
  rw [← ho, ← ha, ← hw, wordAW_fields]

/-- A word whose W is zero is in format A or Z (R92). -/
theorem wordABC_eq_of_fieldW {w : Word} {o a : Byte} (ho : fieldOpc w = o) (ha : fieldA w = a)
    (hw : fieldW w = 0) : wordABC o a 0 0 = w :=
  wordABC_eq_iff.mpr ⟨ho, ha, fieldW_eq_zero hw⟩

/-- MOTOR's operand is A[0], with A[7:1] = 0 (R94). -/
theorem motorField_eq {a : Byte} (h : a.extractLsb' 1 7 = 0) :
    a = if a.getLsbD 0 then 1 else 0 := by
  have key : ∀ k, k < 7 → a.getLsbD (1 + k) = false := fun k hk => by
    simpa [BitVec.getLsbD_extractLsb', hk] using congrArg (BitVec.getLsbD · k) h
  apply BitVec.eq_of_getLsbD_eq; intro k hk
  cases k with
  | zero => cases a.getLsbD 0 <;> rfl
  | succ k =>
    rw [Nat.add_comm k 1, key k (by omega)]
    cases a.getLsbD 0 <;> simp [Nat.add_comm 1 k]

/-- The table's mask of MOTOR's A picks A[7:1]. -/
theorem motorField_of_mask {a : Byte} (h : a &&& 0xFE = 0) : a.extractLsb' 1 7 = 0 := by
  have e : a.extractLsb' 1 7 = (a &&& 0xFE).extractLsb' 1 7 := by
    rw [BitVec.extractLsb'_and, show (0xFE : Byte).extractLsb' 1 7 = BitVec.allOnes 7 from rfl,
      BitVec.and_allOnes]
  rw [e, h]; rfl

/-! ### Decoding and encoding are inverse -/

theorem guardZero_eq_ok {z : Bool} {i j : Instr} : guardZero z i = .ok j ↔ z = true ∧ i = j := by
  cases z <;> simp [guardZero]

/-- One field is checked to be zero. -/
theorem guardZero_field {n : Nat} {x : BitVec n} {i j : Instr} (h : guardZero (x == 0) i = .ok j) :
    x = 0 ∧ i = j := by simpa only [guardZero_eq_ok, beq_iff_eq] using h

/-- Two fields are checked to be zero. -/
theorem guardZero_fields {m n : Nat} {x : BitVec m} {y : BitVec n} {i j : Instr}
    (h : guardZero (x == 0 && y == 0) i = .ok j) : x = 0 ∧ y = 0 ∧ i = j := by
  simpa only [guardZero_eq_ok, Bool.and_eq_true, beq_iff_eq, and_assoc] using h

/-- R92 to R94: the decoder gives a well-formed command back from its word. -/
theorem decodeWord_encode {i : Instr} (h : i.wf = true) : decodeWord (encode i) = .ok i := by
  cases i with
  | init => rfl
  | seek t => simp only [decodeWord, encode, fieldOpc_ABC, fieldA_ABC, fieldW_ABC]; rfl
  | rsec c hd sec =>
    simp only [decodeWord, encode, fieldOpc_ABC, fieldA_ABC, fieldB_ABC, fieldC_ABC]; rfl
  | rblk addr count => simp only [decodeWord, encode, fieldOpc_AW, fieldA_AW, fieldW_AW]; rfl
  | mtick => rfl
  | motor on => cases on <;> rfl
  | classify d => simp only [decodeWord, encode, fieldOpc_AW, fieldA_AW, fieldW_AW]; rfl
  | xlate addr => simp only [decodeWord, encode, fieldOpc_AW, fieldA_AW, fieldW_AW]; rfl
  | decode n =>
    simp only [decodeWord, encode, fieldOpc_AW, fieldA_AW, fieldW_AW]
    exact if_pos (of_decide_eq_true h)
  | locate c hd sec =>
    simp only [decodeWord, encode, fieldOpc_ABC, fieldA_ABC, fieldB_ABC, fieldC_ABC]; rfl
  | rbody => rfl

/-- R92 to R95: each arm of the decoder has checked every field that its command does not keep. -/
theorem decodeWord_ok {w : Word} {i : Instr} (h : decodeWord w = .ok i) :
    i.wf = true ∧ encode i = w := by
  have hopc : ∀ {o : Byte}, (fieldOpc w).toNat = o.toNat → fieldOpc w = o := BitVec.eq_of_toNat_eq
  simp only [decodeWord] at h
  split at h <;> rename_i ho
  case h_1 => -- INIT
    obtain ⟨ha, hw, rfl⟩ := guardZero_fields h
    exact ⟨rfl, wordABC_eq_of_fieldW (hopc ho) ha hw⟩
  case h_2 => -- SEEK
    obtain ⟨hw, rfl⟩ := guardZero_field h
    exact ⟨rfl, wordABC_eq_of_fieldW (hopc ho) rfl hw⟩
  case h_3 => -- RSEC
    cases h; exact ⟨rfl, wordABC_eq_iff.mpr ⟨hopc ho, rfl, rfl, rfl⟩⟩
  case h_4 => -- RBLK
    cases h; exact ⟨rfl, wordAW_eq (hopc ho) rfl rfl⟩
  case h_5 => -- MTICK
    obtain ⟨ha, hw, rfl⟩ := guardZero_fields h
    exact ⟨rfl, wordABC_eq_of_fieldW (hopc ho) ha hw⟩
  case h_6 => -- MOTOR
    obtain ⟨ha, hw, rfl⟩ := guardZero_fields h
    exact ⟨rfl, wordABC_eq_of_fieldW (hopc ho) (motorField_eq ha) hw⟩
  case h_7 => -- CLASSIFY
    obtain ⟨ha, rfl⟩ := guardZero_field h
    exact ⟨rfl, wordAW_eq (hopc ho) ha rfl⟩
  case h_8 => -- XLATE
    obtain ⟨ha, rfl⟩ := guardZero_field h
    exact ⟨rfl, wordAW_eq (hopc ho) ha rfl⟩
  case h_9 => -- DECODE
    split at h
    · rename_i ha
      split at h <;> cases h
      exact ⟨decide_eq_true ‹_›, wordAW_eq (hopc ho) (beq_iff_eq.mp ha) rfl⟩
    · cases h
  case h_10 => -- LOCATE
    cases h; exact ⟨rfl, wordABC_eq_iff.mpr ⟨hopc ho, rfl, rfl, rfl⟩⟩
  case h_11 => -- RBODY
    obtain ⟨ha, hw, rfl⟩ := guardZero_fields h
    exact ⟨rfl, wordABC_eq_of_fieldW (hopc ho) ha hw⟩
  case h_12 => cases h -- an unassigned opcode

/-- Settles O1, by the fields of each command's word. -/
theorem commandWordRoundTrip : Obligations.CommandWordRoundTrip := by
  unfold Obligations.CommandWordRoundTrip
  exact fun _ h => decodeWord_encode h

/-- Settles O2: the decoder checks every field that the command does not keep. -/
theorem decodedWordIsItsEncoding : Obligations.DecodedWordIsItsEncoding := by
  unfold Obligations.DecodedWordIsItsEncoding
  exact fun _ _ h => decodeWord_ok h

/-- Settles O5, each word as the encoding of its command; DECODE 516 by the decoder itself. -/
theorem sampleWordsDecode : Obligations.SampleWordsDecode := by
  unfold Obligations.SampleWordsDecode
  have key : ∀ i : Instr, i.wf = true → decodeWord (encode i) = .ok i := fun _ => decodeWord_encode
  exact ⟨key .init rfl, key (.seek 5) rfl, key (.rsec 0 1 18) rfl, key (.rblk 35 1) rfl, key .mtick rfl,
    key (.motor true) rfl, key (.classify 40) rfl, key (.xlate 35) rfl, key (.decode 515) rfl,
    key (.locate 0 0 1) rfl, key .rbody rfl, rfl⟩

/-! ### The opcode table (R94) -/

/-- R94: every command's word fits the row of its mnemonic. -/
theorem encode_fits_row (i : Instr) :
    ∃ row ∈ opcodeTable, row.1 = i.mnemonic ∧ encode i &&& row.2.2 = row.2.1 := by
  cases i with
  | init => exact Laws.EncodesInRow.init
  | seek t => exact Laws.EncodesInRow.seek t
  | rsec c h sec => exact Laws.EncodesInRow.rsec c h sec
  | rblk addr count => exact Laws.EncodesInRow.rblk addr count
  | mtick => exact Laws.EncodesInRow.mtick
  | motor on => exact Laws.EncodesInRow.motor on
  | classify d => exact Laws.EncodesInRow.classify d
  | xlate addr => exact Laws.EncodesInRow.xlate addr
  | decode n => exact Laws.EncodesInRow.decode n
  | locate c h sec => exact Laws.EncodesInRow.locate c h sec
  | rbody => exact Laws.EncodesInRow.rbody

theorem and_byteMask (x : Byte) : x &&& 0xFF = x := BitVec.and_allOnes

/-- A row that fixes the opcode alone. -/
theorem fieldOpc_of_fits {w : Word} {o : Byte}
    (h : w &&& wordABC 0xFF 0 0 0 = wordABC o 0 0 0) : fieldOpc w = o := by
  obtain ⟨ho, _⟩ := (fits_row_iff w 0xFF 0 0 0 o 0 0 0).mp h
  rwa [and_byteMask] at ho

/-- A row that fixes the opcode and A = 0. -/
theorem fieldA_of_fits {w : Word} {o : Byte}
    (h : w &&& wordABC 0xFF 0xFF 0 0 = wordABC o 0 0 0) : fieldOpc w = o ∧ fieldA w = 0 := by
  obtain ⟨ho, ha, _⟩ := (fits_row_iff w 0xFF 0xFF 0 0 o 0 0 0).mp h
  rw [and_byteMask] at ho ha
  exact ⟨ho, ha⟩

/-- A row that fixes the opcode, W = 0 and the bits `m` of A. -/
theorem fieldBC_of_fits {w : Word} {o m : Byte}
    (h : w &&& wordABC 0xFF m 0xFF 0xFF = wordABC o 0 0 0) :
    fieldOpc w = o ∧ fieldA w &&& m = 0 ∧ fieldB w = 0 ∧ fieldC w = 0 := by
  simpa only [and_byteMask] using (fits_row_iff w 0xFF m 0xFF 0xFF o 0 0 0).mp h

/-- R94: a word that fits a row is a command's word. -/
theorem exists_encode_of_fits {w : Word} {row : String × Word × Word} (hr : row ∈ opcodeTable)
    (h : w &&& row.2.2 = row.2.1) : ∃ i, encode i = w := by
  have hfixed : w &&& 0xFFFFFFFF = w := BitVec.and_allOnes
  simp only [opcodeTable, List.cons_append, List.nil_append, List.mem_cons, List.not_mem_nil,
    or_false] at hr
  rcases hr with rfl | rfl | rfl | rfl | rfl | rfl | rfl | rfl | rfl | rfl | rfl
  · -- INIT
    exact ⟨.init, h.symm.trans hfixed⟩
  · -- SEEK
    obtain ⟨ho, _, hb, hc⟩ := fieldBC_of_fits (o := 2) (m := 0) h
    exact ⟨.seek (fieldA w), wordABC_eq_iff.mpr ⟨ho, rfl, hb, hc⟩⟩
  · -- RSEC
    exact ⟨.rsec _ _ _, wordABC_eq_iff.mpr ⟨fieldOpc_of_fits (o := 3) h, rfl, rfl, rfl⟩⟩
  · -- RBLK
    exact ⟨.rblk _ _, wordAW_eq (fieldOpc_of_fits (o := 4) h) rfl rfl⟩
  · -- MTICK
    exact ⟨.mtick, h.symm.trans hfixed⟩
  · -- MOTOR
    obtain ⟨ho, ha, hb, hc⟩ := fieldBC_of_fits (o := 6) (m := 0xFE) h
    exact ⟨.motor ((fieldA w).getLsbD 0),
      wordABC_eq_iff.mpr ⟨ho, motorField_eq (motorField_of_mask ha), hb, hc⟩⟩
  · -- CLASSIFY
    obtain ⟨ho, ha⟩ := fieldA_of_fits (o := 0x10) h
    exact ⟨.classify _, wordAW_eq ho ha rfl⟩
  · -- XLATE
    obtain ⟨ho, ha⟩ := fieldA_of_fits (o := 0x11) h
    exact ⟨.xlate _, wordAW_eq ho ha rfl⟩
  · -- DECODE
    obtain ⟨ho, ha⟩ := fieldA_of_fits (o := 0x12) h
    exact ⟨.decode _, wordAW_eq ho ha rfl⟩
  · -- LOCATE
    exact ⟨.locate _ _ _, wordABC_eq_iff.mpr ⟨fieldOpc_of_fits (o := 0x13) h, rfl, rfl, rfl⟩⟩
  · -- RBODY
    exact ⟨.rbody, h.symm.trans hfixed⟩

/-- Settles O3: the word is its command's encoding, which fits the command's row. -/
theorem decodingFollowsOpcodeTable : Obligations.DecodingFollowsOpcodeTable := by
  unfold Obligations.DecodingFollowsOpcodeTable
  intro w i h
  obtain ⟨_, rfl⟩ := decodeWord_ok h
  exact encode_fits_row i

/-! ### Illegal words (R95) -/

/-- A word of DECODE's opcode is the encoding of no other command. -/
theorem eq_decode_of_fieldOpc {i : Instr} (h : fieldOpc (encode i) = 0x12) :
    i = .decode (fieldW (encode i)) := by
  cases i with
  | decode n => rw [encode, fieldW_AW]
  | motor on => cases on <;> cases h
  | _ => simp [encode, fieldOpc_ABC, fieldOpc_AW] at h

/-- R95: which words are illegal. -/
theorem decodeWord_error_iff (w : Word) : (∃ e, decodeWord w = .error e) ↔
    (∀ row ∈ opcodeTable, w &&& row.2.2 ≠ row.2.1) ∨
      (fieldOpc w = 0x12 ∧ 515 < (fieldW w).toNat) := by
  constructor
  · rintro ⟨e, he⟩
    refine or_iff_not_imp_left.mpr fun hrow => ?_
    simp only [not_forall, not_not] at hrow
    obtain ⟨row, hr, hfit⟩ := hrow
    obtain ⟨i, rfl⟩ := exists_encode_of_fits hr hfit
    rcases wf_or_long i with hw | ⟨n, rfl, hn⟩
    · rw [decodeWord_encode hw] at he; cases he
    · exact ⟨fieldOpc_AW .., by rw [encode, fieldW_AW]; exact Nat.lt_of_not_le hn⟩
  · intro h
    cases hd : decodeWord w with
    | error e => exact ⟨e, rfl⟩
    | ok i =>
      obtain ⟨hw, rfl⟩ := decodeWord_ok hd
      rcases h with hrow | ⟨hopc, hlong⟩
      · obtain ⟨row, hr, _, hfit⟩ := encode_fits_row i
        exact absurd hfit (hrow row hr)
      · rw [eq_decode_of_fieldOpc hopc] at hw
        exact absurd (of_decide_eq_true hw) (Nat.not_le_of_lt hlong)

/-! ### CMD writes (R91, R95, R307) -/

/-- R91: a CMD write is answered by `writeCmd`. -/
theorem step_writeCmd {s : State} {w : Word} {rest : List HostMove}
    (h : s.host = .writeReg 0 w :: rest) : step s = writeCmd w { s with host := rest } :=
  step_writeReg h rfl

theorem writeCmd_busy {s : State} (hb : s.busy = true) (w : Word) : writeCmd w s = .next s := if_pos hb

theorem writeCmd_ok {s : State} (hb : s.busy = false) {w : Word} {i : Instr} (hd : decodeWord w = .ok i) :
    writeCmd w s = exec i s := by simp [writeCmd, hb, hd]

theorem writeCmd_error {s : State} (hb : s.busy = false) {w : Word} {e : DecodeError}
    (hd : decodeWord w = .error e) : writeCmd w s = .next (rejectWord s) := by simp [writeCmd, hb, hd]

/-- R95: the refusal of a word by an idle core writes RESULT alone. -/
theorem rejectWord_eq {s : State} (hb : s.busy = false) (hj : s.job = none) :
    rejectWord s = { s with result := .badCommand } := by
  simp only [rejectWord, finish, accept, ← hb, ← hj]

/-- Settles O4: which words are illegal, by the words of the table's rows; and their refusal. -/
theorem illegalWordIsBadCommand : Obligations.IllegalWordIsBadCommand := by
  unfold Obligations.IllegalWordIsBadCommand
  refine fun w => ⟨decodeWord_error_iff w, ?_⟩
  rintro s rest ⟨e, he⟩ hb hj hh
  rw [step_writeCmd hh, writeCmd_error (s := { s with host := rest }) hb he,
    rejectWord_eq (s := { s with host := rest }) hb hj]

/-- Settles O8: the access is a CMD write, and an idle core executes the word's command. -/
theorem stepRunsDecodedCommand : Obligations.StepRunsDecodedCommand := by
  unfold Obligations.StepRunsDecodedCommand
  exact fun s w i rest hb hh hd => (step_writeCmd hh).trans (writeCmd_ok (s := { s with host := rest }) hb hd)

/-- Settles O9: the access is a CMD write, which a running command does not see. -/
theorem cmdWriteWhileBusyIsIgnored : Obligations.CmdWriteWhileBusyIsIgnored := by
  unfold Obligations.CmdWriteWhileBusyIsIgnored
  exact fun s w rest hb hh => (step_writeCmd hh).trans (writeCmd_busy (s := { s with host := rest }) hb w)

/-! ### Pseudo-instructions (R99) -/

/-- INIT and INITIALIZE take no operand. -/
theorem form_initPseudo (ops : List Nat) : form "INITIALIZE".toList ops = form "INIT".toList ops := by
  cases ops <;> rfl

/-- RSEC and READ_SECTOR take three operands. -/
theorem form_readSectorPseudo (ops : List Nat) : form "READ_SECTOR".toList ops = form "RSEC".toList ops := by
  match ops with
  | [] | [_] | [_, _] | [_, _, _] | _ :: _ :: _ :: _ :: _ => rfl

/-- RBLK and READ_BLOCKS take two operands. -/
theorem form_readBlocksPseudo (ops : List Nat) : form "READ_BLOCKS".toList ops = form "RBLK".toList ops := by
  match ops with
  | [] | [_] | [_, _] | _ :: _ :: _ :: _ => rfl

/-- Settles O7: each pseudo-instruction's form is that of its expansion. -/
theorem pseudoInstructionsExpand : Obligations.PseudoInstructionsExpand := by
  unfold Obligations.PseudoInstructionsExpand
  exact fun ops =>
    ⟨rfl, rfl, fun _ => rfl, form_initPseudo ops, form_readSectorPseudo ops, form_readBlocksPseudo ops⟩

end Sys2Proof.Machine
end

section
/-! Runs of a command as a whole: its result codes (R110, R111), and that a run in one step is the same run
step by step, on answers given at once or later (R91, R24). -/

namespace Sys2Proof.Machine

/-! ### Result codes (R111, R40) -/

/-- Command `i`, accepted when RESULT was `r`: it leaves RESULT alone while it runs, and comes to a code of
its own. -/
structure ResultOk (i : Instr) (r : ResultCode) (u : State) : Prop where
  running : u.busy = true → u.result = r
  ended : u.busy = false → u.result ∈ resultCodes i
  ending : ∀ i' c, u.job = some (.ending i' c) → c ∈ resultCodes i

/-- A point that the invariant allows, if it is a result, is one of its command's. -/
theorem JobOk.ending_mem {i : Instr} {u : State} {j : Job} (h : JobOk u j) (hi : j.command = i) :
    ∀ i' c, j = .ending i' c → c ∈ resultCodes i := by
  rintro i' c rfl; exact hi ▸ h

theorem Running.resultOk {i : Instr} {s : State} (h : Running i s) (hv : ∀ j, s.job = some j → JobOk s j) :
    ResultOk i s.result s := by
  obtain ⟨hb, j, hj, hi⟩ := h
  refine ⟨fun _ => rfl, fun hf => absurd hf (by simp [hb]), fun i' c he => ?_⟩
  exact (hv j hj).ending_mem hi i' c (Option.some.inj (hj.symm.trans he))

theorem start_running (i : Instr) (s : State) : Running i (start i (accept s)) := by
  refine ⟨?_, start_job i _⟩
  rw [start_eq]; rfl

theorem Job.ending_or (j : Job) : (∃ i c, j = .ending i c) ∨ ∀ i c, j ≠ .ending i c := by
  simp only [← not_exists, Classical.em]

/-- R303: every point of a command keeps RESULT as it was, until the last one writes the command's code. -/
theorem act_resultOk {i : Instr} {r : ResultCode} {u : State} {j : Job} (hj : u.job = some j)
    (hi : j.command = i) (h : ResultOk i r u) : ResultOk i r (act j u) := by
  rcases j.ending_or with ⟨i', c, rfl⟩ | hn
  · exact ⟨nofun, fun _ => h.ending i' c hj, nofun⟩
  · obtain ⟨hb, hr, _⟩ := act_goes_on hj hn
    refine ⟨?_, ?_, fun i' c he => hi ▸ act_ends hj hn he⟩
    · rw [hb, hr]; exact h.running
    · rw [hb, hr]; exact h.ended

/-- Settles O55, by what every point of a command keeps of BUSY and RESULT. -/
theorem resultCodesOfEachCommand : Obligations.ResultCodesOfEachCommand := by
  unfold Obligations.ResultCodesOfEachCommand
  intro i s t hw hr
  have h : ResultOk i s.result t := by
    refine hr.induct (P := ResultOk i s.result) ?_ ?_ ?_ fun u j _ hj hi hu => act_resultOk hj hi hu
    · have h := (start_running i s).resultOk (start_jobOk hw _)
      rwa [show (start i (accept s)).result = s.result by rw [start_eq]; rfl] at h
    · intro hv hrun host hd dr
      exact { hrun.resultOk hv.job with }
    · intro hf; rw [hw] at hf; cases hf
  exact ⟨h.ended, h.running⟩

/-! ### Accepted in one step, or step by step (R91, log entry 10) -/

/-- R91: how a command starts depends neither on the answers to come nor on the host's other accesses. -/
theorem start_giveMore (as : List PulseAnswer) (hm : List HostMove) (sw : Bool) (i : Instr) (s : State) :
    start i (accept (giveMore as hm sw s)) = giveMore as hm sw (start i (accept s)) := by
  cases i with
  | locate c h sec => exact locateTry_giveMore as hm sw (accept s) 1 (.locate c h sec)
  | _ => rfl

/-- What a run of a command leaves of the host's side, and that it stands at a point while BUSY = 1. -/
structure RunKept (s u : State) : Prop where
  host : u.host = s.host
  stepwise : u.stepwise = s.stepwise
  busyJob : u.busy = true → ∃ j, u.job = some j

theorem run_kept (i : Instr) (s : State) : RunKept s (run (start i (accept s))) := by
  obtain ⟨_, j, hj, hi⟩ := start_running i s
  refine run_induct (i := i) (P := RunKept s) (fun u j hb hj _ hu => ?_)
    (fun j' hj' => by cases hj.symm.trans hj'; exact hi) ⟨?_, ?_, fun _ => ⟨j, hj⟩⟩
  · obtain ⟨_, hhost, _, hsw⟩ := act_host j u
    refine ⟨hhost.trans hu.host, hsw.trans hu.stepwise, ?_⟩
    rcases j.ending_or with ⟨i', c, rfl⟩ | hn
    · exact nofun
    · obtain ⟨_, _, j', hj', _⟩ := act_goes_on hj hn
      exact fun _ => ⟨j', hj'⟩
  · rw [start_eq]; rfl
  · rw [start_eq]; rfl

/-- A command that waits with BUSY = 1 has taken every answer given. -/
theorem pulses_of_waits {s : State} (hw : waits s = true) (hb : s.busy = true) {j : Job}
    (hj : s.job = some j) : s.pulses = [] := by
  by_contra hp
  have : waits s = false := waits_eq_false.mpr ⟨hb, j, hj, fun _ _ => hp⟩
  rw [hw] at this; cases this

/-- A command accepted with `stepwise` = true stands at its first point. -/
theorem exec_stepwise {i : Instr} (hw : i.wf = true) {s : State} (hs : s.stepwise = true) :
    exec i s = .next (start i (accept s)) := by
  have e : (start i (accept s)).stepwise = true := by rw [start_eq]; exact hs
  rw [exec_start hw, launch, if_pos e]

/-- A run depends neither on `stepwise` nor on the host's other accesses, and on more answers it goes on
from where it would wait. -/
theorem run_start_giveMore (as : List PulseAnswer) (hm : List HostMove) (sw : Bool) (i : Instr) (s : State) :
    run (start i (accept (giveMore as hm sw s))) =
      run (giveMore as hm sw (run (start i (accept s)))) := by
  rw [start_giveMore, run_giveMore]

theorem giveMore_nil {s : State} (hh : s.host = []) (sw : Bool) :
    giveMore [] [] sw s = { s with stepwise := sw } := by
  simp only [giveMore, List.append_nil, ← hh]

theorem giveMore_waiting {s : State} (hp : s.pulses = []) (hh : s.host = []) (hs : s.stepwise = false)
    (a : PulseAnswer) : giveMore [a] [] false s = { s with pulses := [a] } := by
  simp only [giveMore, hp, List.nil_append, ← hh, ← hs]

/-- With no host access pending, the steps of a running command that does not wait, of which there is one at
least, run it as far as the given answers go. -/
theorem steps_succ_run {s : State} (hh : s.host = []) (hw : waits s = false) :
    ∃ n, steps (n + 1) s = .next (run s) := by
  obtain ⟨hb, j, hj, hd⟩ := waits_eq_false.mp hw
  obtain ⟨n, hn⟩ := steps_run (act j s) ((act_host j s).2.1.trans hh)
  exact ⟨n, by rw [steps, step_act hb hj hh, run_act hb hj hd]; exact hn⟩

/-- The steps of a command that is accepted with `stepwise` = true come to what `exec` does in one step. -/
theorem steps_of_accepted {s : State} (hh : s.host = []) (i : Instr) :
    ∃ n, steps n (start i (accept { s with stepwise := true })) =
      .next { run (start i (accept s)) with stepwise := true } := by
  have hu : (start i (accept { s with stepwise := true })).host = [] := by rw [start_eq]; exact hh
  obtain ⟨n, hn⟩ := steps_run _ hu
  refine ⟨n, hn.trans (congrArg _ ?_)⟩
  have hwait : waits { run (start i (accept s)) with stepwise := true } = true := run_waits _
  rw [← giveMore_nil hh, run_start_giveMore, giveMore_nil ((run_kept i s).host.trans hh),
    run_of_waits hwait]

/-- Settles O59: the run of a command commutes with setting `stepwise` and with more answers at the end of
the script, and the steps of a running command, one by one, are its run. -/
theorem wholeRunIsItsSteps : Obligations.WholeRunIsItsSteps := by
  unfold Obligations.WholeRunIsItsSteps
  intro i s t hw hsw hh hex
  obtain rfl : run (start i (accept s)) = t := Host.Outcome.next.inj ((exec_run hw hsw).symm.trans hex)
  have hk := run_kept i s
  refine ⟨⟨_, exec_stepwise hw (s := { s with stepwise := true }) rfl, start_running i _, start_eq i _,
    steps_of_accepted hh i⟩, fun hb a => ?_⟩
  obtain ⟨j, hj⟩ := hk.busyJob hb
  have hp : (run (start i (accept s))).pulses = [] := pulses_of_waits (run_waits _) hb hj
  have hgive : giveMore [a] [] false s = { s with pulses := s.pulses ++ [a] } := by
    simp only [giveMore, ← hh, ← hsw]
  refine ⟨_, exec_run hw (s := { s with pulses := s.pulses ++ [a] }) hsw, ?_⟩
  rw [← hgive, run_start_giveMore, giveMore_waiting hp (hk.host.trans hh) (hk.stepwise.trans hsw)]
  exact steps_succ_run (hk.host.trans hh) (waits_eq_false.mpr ⟨hb, j, hj, fun _ _ => by simp⟩)

end Sys2Proof.Machine
end

section
/-! Decode on whole frames (R133 to R137, R140): the preamble and the mark lead to BITS, where the bits that
the data pulses emit are packed into bytes; and every byte sequence has data pulses that emit it. -/

namespace Sys2Proof.Machine

/-! ### Outside BITS a Decode is not complete -/

theorem decodeComplete_of_phase_ne {n : Nat} {d : Decoder} (h : d.phase ≠ .bits) :
    decodeComplete n d = false := by
  rw [decodeComplete, beq_eq_false_iff_ne.mpr h, Bool.false_and]

/-! ### The pulses before BITS (R133 to R135) -/

/-- R134: Shorts in REMAINDER change nothing. -/
theorem feedAll_remainder_shorts (p : Params) (n k : Nat) {d : Decoder} (h : d.phase = .remainder) :
    feedAll p n d (List.replicate k .short) = (d, []) ∧
      neverCompletes p n d (List.replicate k .short) = true := by
  have hstep : feed p n d .short = (d, []) := feed_remainder h p n .short
  have hc : decodeComplete n d = false := decodeComplete_of_phase_ne (by rw [h]; decide)
  induction k with
  | zero => exact ⟨rfl, rfl⟩
  | succ k ih =>
    simp only [List.replicate_succ, feedAll, neverCompletes, hstep, hc, ih]
    exact ⟨rfl, rfl⟩

/-- R133: a preamble of Shorts, SYNC_LEN of them at least, leads to REMAINDER. -/
theorem feedAll_sync_shorts (p : Params) (n k : Nat) {d : Decoder} (h : d.phase = .sync)
    (hlt : d.syncCnt < p.syncLen) (hk : p.syncLen ≤ d.syncCnt + k) :
    feedAll p n d (List.replicate k .short) =
        ({ d with syncCnt := p.syncLen, phase := .remainder }, []) ∧
      neverCompletes p n d (List.replicate k .short) = true := by
  induction k generalizing d with
  | zero => omega
  | succ k ih =>
    simp only [List.replicate_succ, feedAll, neverCompletes, feed_sync h]
    rcases feedSync_cases p .short d with ⟨hc, _⟩ | ⟨_, hne, e⟩ | ⟨_, heq, e⟩
    · exact absurd rfl hc
    · obtain ⟨hfeed, hnever⟩ := ih (d := { d with syncCnt := d.syncCnt + 1 }) h
        (by dsimp only; omega) (by dsimp only; omega)
      rw [e, hfeed, hnever, decodeComplete_of_phase_ne (by rw [h]; decide)]
      exact ⟨rfl, rfl⟩
    · obtain ⟨hfeed, hnever⟩ := feedAll_remainder_shorts p n k
        (d := { d with syncCnt := d.syncCnt + 1, phase := .remainder }) rfl
      rw [e, hfeed, hnever, decodeComplete_of_phase_ne (by simp), heq]
      exact ⟨rfl, rfl⟩

/-- R135: the Medium and MARKSEQ lead from REMAINDER to BITS, at MARKSEQ's last pulse and not before. -/
theorem feedAll_mark (p : Params) (n : Nat) {d : Decoder} (h : d.phase = .remainder) :
    feedAll p n d (.medium :: markSeq) = (enterBits { d with markIdx := 14 }, []) ∧
      neverCompletes p n d (.medium :: markSeq.dropLast) = true := by
  constructor <;>
    simp [markSeq, feedAll, neverCompletes, feed, h, feedRemainder, feedMark, enterBits, decodeComplete]

/-- The working registers of a fresh Decode after its preamble (R133). -/
def syncEnd (p : Params) : Decoder := { Decoder.reset with syncCnt := p.syncLen, phase := .remainder }

/-- The working registers of a fresh Decode at the end of MARKSEQ (R136). -/
def frameStart (p : Params) : Decoder := enterBits { Decoder.reset with syncCnt := p.syncLen, markIdx := 14 }

theorem frameClasses_append (k : Nat) (data : List PulseClass) :
    frameClasses k data = frameClasses k [] ++ data := by
  simp [frameClasses]

/-- The last pulse before the data. -/
theorem frameClasses_nil (k : Nat) : frameClasses k [] =
    (List.replicate k .short ++ .medium :: markSeq.dropLast) ++ [.medium] := by
  simp [frameClasses, markSeq]

section
variable {p : Params} {k : Nat} (h1 : 1 ≤ p.syncLen) (hk : p.syncLen ≤ k)
include h1 hk

/-- R133: the preamble leads a fresh Decode to REMAINDER. -/
theorem feedAll_preamble (n : Nat) :
    feedAll p n .reset (List.replicate k .short) = (syncEnd p, []) ∧
      neverCompletes p n .reset (List.replicate k .short) = true :=
  feedAll_sync_shorts p n k rfl h1 (by simpa [Decoder.reset])

/-- R133 to R136: a frame without data leads a fresh Decode to BITS. -/
theorem feedAll_frame (n : Nat) : feedAll p n .reset (frameClasses k []) = (frameStart p, []) := by
  obtain ⟨hsync, _⟩ := feedAll_preamble h1 hk n
  obtain ⟨hmark, _⟩ := feedAll_mark p n (d := syncEnd p) rfl
  simp only [frameClasses, List.append_nil, feedAll_append, hsync, hmark]
  rfl

/-- R139: a Decode is not complete before the last pulse of MARKSEQ. -/
theorem neverCompletes_beforeMarkEnd (n : Nat) : neverCompletes p n .reset
    (List.replicate k .short ++ .medium :: markSeq.dropLast) = true := by
  obtain ⟨hsync, hnever⟩ := feedAll_preamble h1 hk n
  obtain ⟨_, hmark⟩ := feedAll_mark p n (d := syncEnd p) rfl
  rw [neverCompletes_append, hnever, hsync, hmark]; rfl

/-- R139: a Decode of `n` bytes is complete at the last pulse of MARKSEQ only if `n` is 0. -/
theorem decodeComplete_markEnd (n : Nat) : decodeComplete n (feed p n (feedAll p n .reset
    (List.replicate k .short ++ .medium :: markSeq.dropLast)).1 .medium).1 = (0 == n) := by
  have h := congrArg Prod.fst (feedAll_frame h1 hk n)
  rw [frameClasses_nil, feedAll_append] at h
  simp only [feedAll] at h
  rw [h]; rfl

end

/-! ### The data (R136, R137, R140) -/

theorem emittedAll_append (st : BitState) (xs ys : List PulseClass) :
    ∃ st', emittedAll st (xs ++ ys) = emittedAll st xs ++ emittedAll st' ys := by
  induction xs generalizing st with
  | nil => exact ⟨st, rfl⟩
  | cons c xs ih =>
    obtain ⟨st', h⟩ := ih (nextBitState st c)
    exact ⟨st', by simp only [List.cons_append, emittedAll, h, List.append_assoc]⟩

/-- R136: every pulse emits a bit. -/
theorem emittedBits_length_pos (st : BitState) (c : PulseClass) : 0 < (emittedBits st c).length := by
  cases st <;> cases c <;> decide

/-- R136: so the pulses before the last one emit fewer bits. -/
theorem emittedAll_dropLast_length_lt (st : BitState) {cs : List PulseClass} (h : cs ≠ []) :
    (emittedAll st cs.dropLast).length < (emittedAll st cs).length := by
  obtain ⟨xs, c, rfl⟩ := (List.eq_nil_or_concat' cs).resolve_left h
  obtain ⟨st', he⟩ := emittedAll_append st xs [c]
  have := emittedBits_length_pos st' c
  rw [List.dropLast_concat, he, List.length_append, emittedAll, emittedAll, List.append_nil]
  omega

/-- R137: bits that begin with those of `bytes`, where that many bytes are wanted, complete those bytes, and
the bits beyond are discarded. -/
theorem pushBits_take {bytes : List Byte} {bs : List Bool} {d : Decoder} (hc : d.bitCnt = 0)
    (ha : d.bitAcc = 0) (hb : d.byteCnt = 0)
    (h : bs.take (8 * bytes.length) = bytes.flatMap msbBits) :
    pushBits bytes.length bs d = ({ d with byteCnt := bytes.length }, bytes) := by
  have hbytes := pushBits_bytes bytes.length bytes hc ha (by omega)
  rw [hb, Nat.zero_add] at hbytes
  rw [← List.take_append_drop (8 * bytes.length) bs, h, pushBits_append, hbytes]
  simp only [pushBits_full (n := bytes.length) (d := { d with byteCnt := bytes.length }) (le_refl _),
    List.append_nil]

/-- R137: from the entry to BITS, data pulses complete the Decode at the one that completes the last byte. -/
theorem decode_data (p : Params) {bytes : List Byte} {cs : List PulseClass} {c : PulseClass}
    (he : (emittedAll .odd (cs ++ [c])).take (8 * bytes.length) = bytes.flatMap msbBits)
    (hl : (emittedAll .odd cs).length < 8 * bytes.length) :
    completesAt p bytes.length (frameStart p) (cs ++ [c]) = true ∧
      (feedAll p bytes.length (frameStart p) (cs ++ [c])).2 = bytes := by
  obtain ⟨hout, hcnt, hph⟩ := feedAll_bits p bytes.length (d := frameStart p) rfl (cs ++ [c])
  have hpush := pushBits_take (d := frameStart p) rfl rfl rfl he
  have hst : (frameStart p).bitState = .odd := rfl
  rw [hst, hpush] at hout hcnt
  refine ⟨?_, hout⟩
  have hnever : neverCompletes p bytes.length (frameStart p) cs = true :=
    neverCompletes_bits p _ cs rfl (Nat.zero_lt_succ 7) (by simpa [frameStart, enterBits] using hl)
  rw [completesAt_concat, hnever, Bool.true_and]
  rw [feedAll_append] at hcnt hph
  simp only [feedAll] at hcnt hph
  rw [decodeComplete, hph, hcnt]; simp

/-- Settles O30: MARKSEQ's end is the end for no bytes; else the frame leads to BITS and the data to the
bytes. -/
theorem frameDecodesToItsBytes : Obligations.FrameDecodesToItsBytes := by
  unfold Obligations.FrameDecodesToItsBytes
  intro p k data bytes h1 hk htake hlen hlast
  rcases List.eq_nil_or_concat' data with rfl | ⟨cs, c, rfl⟩
  · obtain rfl : bytes = [] := by
      rw [← List.length_eq_zero_iff]; simp only [emittedAll, List.length_nil] at hlen; omega
    refine ⟨?_, congrArg Prod.snd (feedAll_frame h1 hk 0)⟩
    rw [frameClasses_nil, completesAt_concat]
    simp only [List.length_nil, neverCompletes_beforeMarkEnd h1 hk, decodeComplete_markEnd h1 hk]
    rfl
  · have hl := hlast.resolve_left (by simp)
    rw [List.dropLast_concat] at hl
    obtain ⟨hdone, hout⟩ := decode_data p htake hl
    have hnever : neverCompletes p bytes.length .reset (frameClasses k []) = true := by
      rw [frameClasses_nil, neverCompletes_append, neverCompletes_beforeMarkEnd h1 hk]
      have hne : (0 == bytes.length) = false := beq_eq_false_iff_ne.mpr (by omega)
      simp only [neverCompletes, decodeComplete_markEnd h1 hk, hne]
      rfl
    rw [frameClasses_append, completesAt_append _ _ _ _ (by simp), hnever, feedAll_append,
      feedAll_frame h1 hk]
    exact ⟨hdone, hout⟩

/-! ### MFM encoding (R136, D9) -/

/-- The bits that a BIT_STATE leaves for the encoding: in EVEN the next one is 0. -/
def Encodable (st : BitState) (bs : List Bool) : Prop := st = .even → bs.head? ≠ some true

/-- R136: the encoding of a bit sequence emits it. -/
theorem emittedAll_mfmEncode (st : BitState) (bs : List Bool) (h : Encodable st bs) :
    emittedAll st (mfmEncode st bs) = bs := by
  have hodd : ∀ bs, Encodable .odd bs := fun _ => nofun
  have heven : ∀ bs, Encodable .even (false :: bs) := fun _ _ => by simp
  fun_induction mfmEncode st bs with
  | case1 | case2 | case3 => rfl
  | case4 b bs ih | case5 bs ih => rw [emittedAll, nextBitState, ih (hodd _)]; rfl
  | case6 bs ih => rw [emittedAll, nextBitState, ih (heven _)]; rfl
  | case7 b =>
    obtain rfl : b = false := by simpa [Encodable] using h
    rfl
  | case8 b bs ih =>
    obtain rfl : b = false := by simpa [Encodable] using h
    rw [emittedAll, nextBitState, ih (hodd _)]; rfl
  | case9 b bs ih =>
    obtain rfl : b = false := by simpa [Encodable] using h
    rw [emittedAll, nextBitState, ih (heven _)]; rfl

theorem length_flatMap_msbBits (bytes : List Byte) :
    (bytes.flatMap msbBits).length = 8 * bytes.length := by
  simp [List.length_flatMap, msbBits, Nat.mul_comm]

/-- Settles O31: the encoding emits exactly the bits of the bytes, so its frame decodes to them (O30). -/
theorem mfmEncodingDecodes : Obligations.MfmEncodingDecodes := by
  unfold Obligations.MfmEncodingDecodes
  intro p k bytes h1 hk
  have hbits := emittedAll_mfmEncode .odd (bytes.flatMap msbBits) nofun
  have hlen := length_flatMap_msbBits bytes
  refine frameDecodesToItsBytes p k _ bytes h1 hk ?_ ?_ (or_iff_not_imp_left.mpr fun hne => ?_)
  · rw [hbits, ← hlen, List.take_length]
  · rw [hbits, hlen]
  · have hlt := emittedAll_dropLast_length_lt .odd hne
    rwa [hbits, hlen] at hlt

/-! ### One pulse before BITS (R133 to R135) -/

/-- Settles O32, phase by phase. -/
theorem deviationRestartsSync : Obligations.DeviationRestartsSync := by
  unfold Obligations.DeviationRestartsSync
  intro p n d c
  refine ⟨fun h hc => ?syncOther, fun h hc hlt => ?syncShort, fun h hc heq => ?syncFull, fun h hc => ?_,
    fun h hc => ?_, fun h hc => ?_, fun h hm => ?markOther, fun h hm hlt => ?markNext,
    fun h hm heq => ?markEnd, (feed_offset p n d c).2⟩
  case syncOther => rw [feed_sync h]; exact if_neg hc
  case syncShort => rw [feed_sync h, feedSync, if_pos hc, if_neg (by omega)]
  case syncFull => rw [feed_sync h, feedSync, if_pos hc, if_pos heq, heq]
  case markOther => rw [feed_mark h]; exact if_neg (Ne.symm hm)
  case markNext => rw [feed_mark h, feedMark, if_pos hm.symm, if_neg (by omega)]
  case markEnd => rw [feed_mark h, feedMark, if_pos hm.symm, if_pos (by omega), heq]; rfl
  all_goals rw [feed_remainder h, hc]; rfl

end Sys2Proof.Machine
end

section
/-! The commands of the MFM Decoder: CLASSIFY (R131), a DECODE whose answers complete it (R139), and the
Timeout that ends a DECODE or an RBODY (R138, R304). -/

namespace Sys2Proof.Machine

/-! ### CLASSIFY (R130, R131) -/

/-- R130, R131: the value of a duration's class, by the two thresholds. -/
theorem classWord_classify (p : Params) (d : Nat) : classWord (classify p d) =
    if d < p.tMedium then 0 else if d < p.tLong then 1 else 2 := by
  unfold classify
  split
  · rfl
  · split <;> rfl

/-- Settles O19: CLASSIFY has one point, which writes RDATA, and then its result. -/
theorem classifyWritesClass : Obligations.ClassifyWritesClass := by
  unfold Obligations.ClassifyWritesClass
  intro s d hs
  rw [exec_run (i := .classify d) rfl hs, start, run_goto (by simp) (accept_busy s), act, classifyPulse,
    run_endWith, ← classWord_classify] <;> rfl

/-! ### A Decode that DECODE or RBODY runs to its end -/

/-- A state that has the same units, track and block differs in the rest alone. -/
theorem SameDrive.eq_update {s u : State} (h : SameDrive s u) : u = { s with
    result := u.result, busy := u.busy, dec := u.dec, attempt := u.attempt, mem := u.mem, job := u.job
    pulses := u.pulses, draws := u.draws, trace := u.trace } := by
  obtain ⟨⟨h1, h2, h3, h4, h5, h6, h7, h8, h9, h10, h11, h12⟩, h13, h14⟩ := h
  rw [← h1, ← h2, ← h3, ← h4, ← h5, ← h6, ← h7, ← h8, ← h9, ← h10, ← h11, ← h12, ← h13, ← h14]

/-- Settles O33: the Decode stores its bytes and ends with OK, and DECODE has its result. -/
theorem decodeCommandCompletes : Obligations.DecodeCommandCompletes := by
  unfold Obligations.DecodeCommandCompletes
  intro s n ds bytes rest hs hn hp hd
  refine ⟨hd.length, ?_⟩
  obtain ⟨u, hrun, hsame, hbusy, _, hattempt, hdraws, hdone, hmem, hpulses, htrace⟩ :=
    decode_completes (.decode n) (accept_busy s) (s := accept s) hp hd
  refine ⟨u.dec, hdone, ?_⟩
  rw [exec_run (i := .decode n) (decide_eq_true hn) hs, start, hrun, decodeOk, run_endWith _ _ hbusy,
    hsame.eq_update, hattempt, hdraws, hmem, hpulses, htrace]
  rfl

/-- R138, R304: a command that runs one Decode, and reports its NoPulse, ends with it at the Timeout. -/
theorem exec_timesOut {j : Decoding} (hw : j.command.wf = true)
    (hstart : ∀ u, start j.command u = beginDecode j u)
    (hend : ∀ u, decodeNoPulse j u = endWith j.command .noPulse (drawBuf j.base j.need u))
    {s : State} (hs : s.stepwise = false) {ds : List Nat} {rest : List PulseAnswer}
    (hp : s.pulses = answers ds ++ .timeout :: rest) (hd : KeepsDecoding s.par j.need ds) :
    ∃ (t : State) (d : Decoder) (m : Memory),
      exec j.command s = .next t ∧
      t = { s with
        mem := m
        dec := d
        pulses := rest
        draws := s.draws + j.need
        trace := .nextPulse .timeout :: ((answers ds).reverse.map .nextPulse ++ s.trace)
        result := .noPulse, busy := false, job := none } ∧
      (∀ k, k < j.need → bufByte t (j.base + k) = Config.freeByte (s.draws + k)) ∧
      SameOutside j.base j.need s t := by
  obtain ⟨u, hrun, hsame, hbusy, _, hattempt, hdraws, hout, hpulses, htrace⟩ :=
    decode_timesOut j (accept_busy s) (s := accept s) hp hd
  have hdraws : u.draws = s.draws := hdraws
  have hexec : exec j.command s = .next (finish .noPulse (drawBuf j.base j.need u)) := by
    rw [exec_run hw hs, hstart, hrun, hend, run_endWith _ _ (by simpa using hbusy)]
  have hmem : (finish .noPulse (drawBuf j.base j.need u)).mem =
      u.mem.setAll j.base (freeBytes s.draws j.need) := by rw [← hdraws]; rfl
  refine ⟨_, u.dec, u.mem.setAll j.base (freeBytes s.draws j.need), hexec, ?_, fun k hk => ?_,
    fun a ha => ?_⟩
  · rw [hsame.eq_update, hattempt, hdraws, hpulses, htrace, List.reverse_append]
    rfl
  · rw [bufByte_inside hmem (by simpa using hk)]
    simp [freeBytes]
  · exact (bufByte_outside (s := u) (t := finish .noPulse (drawBuf j.base j.need u)) rfl hmem
      (by simpa using ha)).trans (hout a ha)

/-- Settles O34: DECODE and RBODY each run one Decode and report its NoPulse. -/
theorem timeoutEndsDecodeWithNoPulse : Obligations.TimeoutEndsDecodeWithNoPulse := by
  unfold Obligations.TimeoutEndsDecodeWithNoPulse
  rintro s i n ds rest hs hp hd (⟨w, rfl, rfl, hn⟩ | ⟨rfl, rfl⟩)
  · exact exec_timesOut (j := .decode w) (decide_eq_true hn) (fun _ => rfl) (fun _ => rfl) hs hp hd
  · exact exec_timesOut (j := .rbody) rfl (fun _ => rfl) (fun _ => rfl) hs hp hd

end Sys2Proof.Machine
end

section
/-! A command that waits inside Decode takes one answer in a step (O35): what an answer does while the Decode
is under way, and where the command stands after the Decode has ended. -/

namespace Sys2Proof.Machine

/-! ### One answer (R137 to R139) -/

section
variable {d : Decoding} {s : State} {x : Nat}

theorem takeAnswer_timeout (ha : pulseAnswer s = .timeout) :
    takeAnswer d s = decodeNoPulse d (takePulse s) := by rw [takeAnswer, ha]

theorem takeAnswer_underWay (ha : pulseAnswer s = .pulse x)
    (hc : decodeComplete d.need (feed s.par d.need s.dec (classify s.par x)).1 = false) :
    takeAnswer d s = feedPulse d x (takePulse s) := by
  rw [takeAnswer, ha]
  exact if_neg (by simpa using hc)

theorem takeAnswer_complete (ha : pulseAnswer s = .pulse x)
    (hc : decodeComplete d.need (feed s.par d.need s.dec (classify s.par x)).1 = true) :
    takeAnswer d s = decodeOk d (endDecode (feedPulse d x (takePulse s))) := by
  rw [takeAnswer, ha]
  exact if_pos hc

end

/-! ### The Decode's buffers after it has ended -/

/-- R71: the output slots lie below BODY_BUF and AM_BUF. -/
theorem StoreOk.slot_end_le {s : State} (h : StoreOk s) {i : Nat} (hi : i < s.par.maxBlocks) :
    512 * i + 512 ≤ bodyBase := by
  obtain ⟨_, _, _, _, _, _, _, hmax⟩ := h.params
  unfold bodyBase; omega

@[simp] theorem bufByte_endWith (i : Instr) (c : ResultCode) (s : State) (a : Nat) :
    bufByte (endWith i c s) a = bufByte s a := bufByte_congr rfl rfl a

@[simp] theorem bufByte_startBlock (addr : Half) (count : Byte) (i : Nat) (s : State) (a : Nat) :
    bufByte (startBlock addr count i s) a = bufByte s a := bufByte_congr rfl rfl a

/-- R263: what follows a Decode's end writes no buffer but the output slot. -/
theorem Tail.bufByte_eq {d : Decoding} {s t : State} (h : Tail d s t) (hs : StoreOk s)
    (hp : Positioned s d) {a : Nat} (ha : bodyBase ≤ a) : bufByte t a = bufByte s a := by
  have hslot : ∀ r, d = .readId r ∨ d = .readBody r → 512 * r.slot + 512 ≤ a := fun r hr =>
    (hs.slot_end_le ((hp.callerOk hr).slot_lt hs)).trans ha
  have hfail : ∀ (r : SectorRead) (c : ResultCode) (u : State), 512 * r.slot + 512 ≤ a →
      bufByte (sectorFail r c u) a = bufByte u a := fun r c u hr => by
    refine bufByte_outside (sectorFail_par r c u) (sectorFail_mem r c u) (.inr ?_)
    simpa [slotBase, outBase, sectorSize] using hr
  cases h with
  | fails r c hd hc => exact hfail r c _ (hslot r hd)
  | failsMisplaced r hd => exact hfail r _ _ (hslot r (.inl hd))
  | done r hd =>
    rw [bufByte_endWith]
    exact bufByte_copySlot_outside r.slot s (.inr (hslot r (.inr hd)))
  | next r addr count hd hr hk =>
    rw [bufByte_startBlock]
    exact bufByte_copySlot_outside r.slot s (.inr (hslot r (.inr hd)))
  | ends c hc => rfl
  | endsMisplaced hl => rfl
  | again k hl h1 hk => rfl
  | body r hd => rfl

theorem bufBytes_congr {s t : State} {base n : Nat} (h : ∀ a, base ≤ a → bufByte t a = bufByte s a) :
    bufBytes t base n = bufBytes s base n :=
  List.map_congr_left fun k _ => h _ (Nat.le_add_right base k)

/-! ### The next attempt (R184, R185) -/

theorem locateFail_job (d : Decoding) (c : ResultCode) (s : State) :
    (locateFail d c s).job = some (.ending d.command c) := by
  cases d with
  | readId r => exact sectorFail_job ..
  | _ => rfl

theorem locateFail_currentTrack (d : Decoding) (c : ResultCode) (s : State) :
    (locateFail d c s).currentTrack = s.currentTrack := by
  cases d with
  | readId r => exact sectorFail_currentTrack ..
  | _ => rfl

theorem nextAttempt_locateTry (d : Decoding) {s u : State} (hp : u.par = s.par)
    (ha : u.attempt = s.attempt) : NextAttempt d s (locateTry (u.attempt + 1) d u) := by
  unfold NextAttempt locateTry
  rw [hp, ha]
  split
  · rw [if_pos (Nat.succ_le_of_lt ‹_›)]; exact ⟨rfl, rfl, rfl, rfl⟩
  · rw [if_neg (by omega)]; exact locateFail_job ..

/-! ### The record in AM_BUF (R181 to R184) -/

theorem bufBytes_record (u : State) : bufBytes u amBase 7 =
    [recordMark u, recordCyl u, recordHead u, recordSec u, bufByte u (amBase + 4),
      bufByte u (amBase + 5), bufByte u (amBase + 6)] := rfl

theorem bufBytes_recordHead (u : State) : bufBytes u amBase 5 =
    [recordMark u, recordCyl u, recordHead u, recordSec u, bufByte u (amBase + 4)] := rfl

/-- R181: a match, in the bytes of the record. -/
theorem recordMatches_of_matchingRecord {c h sec : Byte} {u : State}
    (hm : MatchingRecord u.par c h sec (bufBytes u amBase 7)) : recordMatches c h sec u = true := by
  obtain ⟨res, hi, lo, he, hcrc⟩ := hm
  rw [bufBytes_record] at he
  simp only [List.cons.injEq, and_true] at he
  obtain ⟨hmark, hcyl, hhead, hsec, hres, hhi, hlo⟩ := he
  simp only [recordMatches, recordCrcOk, bufBytes_recordHead, hmark, hcyl, hhead, hsec, hres, hhi, hlo,
    hcrc, beq_self_eq_true, Bool.and_self]

/-- R183: a matching record is on the requested cylinder. -/
theorem not_misplaced_of_matches {c h sec : Byte} {u : State} (hm : recordMatches c h sec u = true) :
    recordMisplaced c u = false := by
  simp only [recordMatches, Bool.and_eq_true, beq_iff_eq] at hm
  obtain ⟨⟨⟨⟨_, hcyl⟩, _⟩, _⟩, _⟩ := hm
  simp [recordMisplaced, hcyl]

/-- R184: a failed attempt's record is no match and names no other cylinder. -/
theorem not_matches_of_failedRecord {c h sec : Byte} {u : State}
    (hf : FailedRecord u.par c h sec (bufBytes u amBase 7)) :
    recordMisplaced c u = false ∧ recordMatches c h sec u = false := by
  obtain ⟨m, cy, hd, se, res, hi, lo, he, hcase⟩ := hf
  rw [bufBytes_record] at he
  simp only [List.cons.injEq, and_true] at he
  obtain ⟨rfl, rfl, rfl, rfl, rfl, rfl, rfl⟩ := he
  rcases hcase with hmark | ⟨hcyl, hrest⟩
  · have h0 : (recordMark u == 0xFE) = false := beq_eq_false_iff_ne.mpr hmark
    simp only [recordMisplaced, recordMatches, h0, Bool.false_and, and_self]
  · refine ⟨by simp [recordMisplaced, hcyl], ?_⟩
    rw [← Bool.not_eq_true]
    simp only [recordMatches, recordCrcOk, bufBytes_recordHead, Bool.and_eq_true, beq_iff_eq]
    rintro ⟨⟨⟨_, hhead⟩, hsec⟩, hcrc⟩
    exact hrest.elim (· hhead) fun h => h.elim (· hsec) (· hcrc)

/-! ### Where a Locate stands after its record (R182, R186) -/

section
variable {d : Decoding} {c h sec : Byte} {found : State → State} {u : State}

theorem locateJudge_misplaced (hm : recordMisplaced c u = true) : locateJudge d c h sec found u =
    locateFail d .seekError { u with currentTrack := recordCyl u } := if_pos hm

theorem locateJudge_matches (hm : recordMatches c h sec u = true) :
    locateJudge d c h sec found u = found u := by
  rw [locateJudge, not_misplaced_of_matches hm, hm]; rfl

theorem locateJudge_fails (hm : recordMisplaced c u = false ∧ recordMatches c h sec u = false) :
    locateJudge d c h sec found u = locateTry (u.attempt + 1) d u := by
  rw [locateJudge, hm.1, hm.2]; rfl

end

theorem recordJudged_locateJudge {d : Decoding} {c h sec : Byte} {found : State → State} {next : Job}
    {s u : State} (hsame : SameDrive s u) (ha : u.attempt = s.attempt)
    (hfound : (found u).job = some next ∧ (found u).currentTrack = u.currentTrack)
    (hbuf : ∀ a, amBase ≤ a → bufByte (locateJudge d c h sec found u) a = bufByte u a) :
    RecordJudged d c h sec next s (locateJudge d c h sec found u) := by
  unfold RecordJudged
  rw [bufBytes_congr hbuf, hbuf _ (Nat.le_refl _), hbuf _ (Nat.le_add_right _ _), ← hsame.par,
    ← hsame.currentTrack]
  refine ⟨fun hmark hcyl => ?misplaced, fun hm => ?found, fun hf => ?fails⟩
  case misplaced =>
    have hmis : recordMisplaced c u = true := by
      simpa [recordMisplaced, recordMark, recordCyl, hmark] using hcyl
    rw [locateJudge_misplaced hmis, locateFail_job, locateFail_currentTrack]
    exact ⟨rfl, rfl⟩
  case found =>
    rw [locateJudge_matches (recordMatches_of_matchingRecord hm)]; exact hfound
  case fails =>
    obtain ⟨_, _, _, _, _, htrack, _⟩ := locateTry_kept (u.attempt + 1) d u
    rw [locateJudge_fails (not_matches_of_failedRecord hf)]
    exact ⟨nextAttempt_locateTry d hsame.par ha, htrack⟩

/-! ### Where a ReadSector stands after its body (R201, R263, R264) -/

/-- R201: the verdict, in the bytes of BODY_BUF. -/
theorem bodyVerdict_bufBytes (u : State) :
    bodyVerdict u = bodyResult u.par (bufBytes u bodyBase 515) := by
  have h0 : (bufBytes u bodyBase 515)[0]? = some (bufByte u bodyBase) := by
    simp [bufBytes]
  have htake : (bufBytes u bodyBase 515).take 513 = bufBytes u bodyBase 513 := by
    simp [bufBytes, ← List.map_take, List.take_range]
  have hget : ∀ k, k < 515 → (bufBytes u bodyBase 515).getD k 0 = bufByte u (bodyBase + k) :=
    fun k hk => by simp [bufBytes, List.getD_eq_getElem?_getD, hk]
  unfold bodyVerdict bodyResult bodyCrcOk
  rw [h0, htake, hget 513 (by omega), hget 514 (by omega)]
  simp only [ne_eq, Option.some.injEq, beq_iff_eq]

theorem sectorDone_bufByte (r : SectorRead) (u : State) (a : Nat) :
    bufByte (sectorDone r u) a = bufByte (copySlot r.slot u) a := by
  unfold sectorDone
  split
  · rw [bufByte_endWith]
  · split
    · rw [bufByte_startBlock]
    · rw [bufByte_endWith]

theorem sectorCopied_sectorDone {r : SectorRead} {s u : State} (hp : u.par = s.par)
    (hb : u.blockIdx = s.blockIdx) (hslot : 512 * r.slot + 512 ≤ bodyBase) :
    SectorCopied r s (sectorDone r u) := by
  refine ⟨fun k hk => ?_, ?_⟩
  · rw [sectorDone_bufByte, sectorDone_bufByte, bufByte_copySlot r.slot u hk,
      bufByte_copySlot_outside r.slot u (.inr (by omega))]
  · unfold sectorDone
    cases hr : r.caller with
    | rsec => rfl
    | rblk addr count =>
      simp only [hb]
      split
      · exact ⟨rfl, by simp [startBlock, hp]⟩
      · rfl

theorem sectorJudge_ok {r : SectorRead} {u : State} (h : bodyVerdict u = .ok) :
    sectorJudge r u = sectorDone r u := by rw [sectorJudge, h]

theorem sectorJudge_error {r : SectorRead} {u : State} (h : bodyVerdict u ≠ .ok) :
    sectorJudge r u = sectorFail r (bodyVerdict u) u := by
  unfold sectorJudge
  split
  · exact absurd ‹_› h
  · rfl

/-! ### Where the command stands after its Decode -/

theorem decodeEnded_decodeOk {d : Decoding} {s u : State} (hs : StoreOk u) (hp : Positioned u d)
    (hsame : SameDrive s u) (ha : u.attempt = s.attempt) : DecodeEnded d s (decodeOk d u) := by
  have hbuf : ∀ a, bodyBase ≤ a → bufByte (decodeOk d u) a = bufByte u a :=
    fun a h => (decodeOk_tail d u).bufByte_eq hs hp h
  have ham : ∀ a, amBase ≤ a → bufByte (decodeOk d u) a = bufByte u a :=
    fun a h => hbuf a (Nat.le_trans (by decide) h)
  have hbody : bodyResult s.par (bufBytes (decodeOk d u) bodyBase 515) = bodyVerdict u := by
    rw [bufBytes_congr hbuf, ← hsame.par, bodyVerdict_bufBytes]
  cases d with
  | decode n => rfl
  | rbody => rw [DecodeEnded, hbody]; rfl
  | locate c h sec => exact recordJudged_locateJudge hsame ha ⟨rfl, rfl⟩ ham
  | readId r => exact recordJudged_locateJudge hsame ha ⟨rfl, rfl⟩ ham
  | readBody r =>
    rw [DecodeEnded, hbody, decodeOk]
    split
    · rw [sectorJudge_ok ‹_›]
      exact sectorCopied_sectorDone hsame.par hsame.blockIdx
        (hs.slot_end_le ((hp.callerOk (.inr rfl)).slot_lt hs))
    · rw [sectorJudge_error ‹_›]; exact sectorFail_job ..

theorem decodeTimedOut_decodeNoPulse (d : Decoding) {s u : State} (hp : u.par = s.par)
    (ha : u.attempt = s.attempt) : DecodeTimedOut d s (decodeNoPulse d u) := by
  cases d with
  | decode n => rfl
  | rbody => rfl
  | locate c h sec => exact nextAttempt_locateTry _ (u := drawBuf _ _ u) hp ha
  | readId r => exact nextAttempt_locateTry _ (u := drawBuf _ _ u) hp ha
  | readBody r => exact sectorFail_job ..

/-- Settles O35: the step is one turn of Decode's loop; after it the Decode is under way, has ended with OK,
or has ended with NoPulse. -/
theorem waitingDecodeTakesOneAnswer : Obligations.WaitingDecodeTakesOneAnswer := by
  unfold Obligations.WaitingDecodeTakesOneAnswer
  intro s d hv hj hh
  have hb : s.busy = true := by rw [hv.busyJob, hj]; rfl
  have hd : DecodingOk s d := hv.job _ hj
  obtain ⟨_, _, _, _, hpos⟩ := decodingOk_iff.mp hd
  have hstep : step s = .next (takeAnswer d s) := step_act hb hj hh
  obtain ⟨_, hbusy, hresult, hpulses, _⟩ := takeAnswer_kept d s
  refine ⟨fun ht => ?timeout, fun x hx => ⟨fun hc => ?underWay, fun hc => ?complete⟩⟩
  case timeout =>
    refine ⟨_, hstep, hpulses, hbusy.trans hb, hresult, ?_⟩
    rw [takeAnswer_timeout ht]
    exact decodeTimedOut_decodeNoPulse d rfl rfl
  case underWay => rw [hstep, takeAnswer_underWay hx hc]; rfl
  case complete =>
    refine ⟨_, hstep, hpulses, hbusy.trans hb, hresult, ?_⟩
    rw [takeAnswer_complete hx hc]
    exact decodeEnded_decodeOk (hv.store.takePulse.feedPulse hd x).endDecode
      (hpos.congr (sameDrive_ok d x s)) (sameDrive_ok d x s) rfl

end Sys2Proof.Machine
end

section
/-! The frame of DECODE, LOCATE and RBODY (O48): what their Decodes leave as it was, from acceptance to the
end. -/

namespace Sys2Proof.Machine

/-! ### What one turn of a Decode leaves as it was -/

/-- States with the same parameters and memory hold the same bytes. -/
theorem SameOutside.of_eq {base n : Nat} {s t : State} (hp : t.par = s.par) (hm : t.mem = s.mem) :
    SameOutside base n s t := fun a _ => bufByte_congr hp hm a

theorem SameOutside.trans {base n : Nat} {s t u : State} (h : SameOutside base n s t)
    (h' : SameOutside base n t u) : SameOutside base n s u :=
  fun a ha => (h' a ha).trans (h a ha)

/-- R137: a pulse stores a byte inside the destination, if any. -/
theorem sameOutside_feedPulse (d : Decoding) (x : Nat) (s : State) :
    SameOutside d.base d.need s (feedPulse d x s) := by
  intro a ha
  refine bufByte_outside (s := s) (feedPulse_par ..) (feedPulse_mem ..) ?_
  by_cases hbits : s.dec.phase = .bits
  · rw [feed_bits hbits]
    obtain ⟨_, _, _, _, hlen, hle, _⟩ := feedBits_spec d.need (classify s.par x) s.dec
    by_cases hn : s.dec.byteCnt ≤ d.need
    · have := hle hn; omega
    · rw [feedBits, pushBits_full (by dsimp only; omega), List.length_nil]; omega
  · rw [(feed_offset s.par d.need s.dec (classify s.par x)).2 hbits, List.length_nil]; omega

/-- R138: a Timeout leaves the bytes outside the destination as they were. -/
theorem sameOutside_drawBuf (base n : Nat) (s : State) : SameOutside base n s (drawBuf base n s) :=
  SameOutside.setAll (bs := freeBytes s.draws n) rfl rfl (by simp)

/-- A Decode that reads no sector: DECODE's, RBODY's or LOCATE's. -/
def Decoding.own : Decoding → Bool
  | .readId _ => false
  | .readBody _ => false
  | _ => true

theorem Decoding.own_no_read {d : Decoding} (ho : d.own = true) {r : SectorRead} :
    ¬(d = .readId r ∨ d = .readBody r) := by
  rintro (rfl | rfl) <;> cases ho

/-- What follows the end of such a Decode writes no buffer, nor BLOCK_IDX. -/
theorem Tail.own_kept {d : Decoding} {s t : State} (h : Tail d s t) (ho : d.own = true) :
    t.mem = s.mem ∧ t.blockIdx = s.blockIdx ∧ (t.attempt = s.attempt ∨ d.locates = true) := by
  cases h with
  | fails r c hd hc => exact absurd hd (Decoding.own_no_read ho)
  | failsMisplaced r hd => exact absurd (.inl hd) (Decoding.own_no_read ho)
  | body r hd => exact absurd (.inl hd) (Decoding.own_no_read ho)
  | done r hd => exact absurd (.inr hd) (Decoding.own_no_read ho)
  | next r addr count hd hr hk => exact absurd (.inr hd) (Decoding.own_no_read ho)
  | ends c hc => exact ⟨rfl, rfl, .inl rfl⟩
  | endsMisplaced hl => exact ⟨rfl, rfl, .inl rfl⟩
  | again k hl h1 hk => exact ⟨rfl, rfl, .inr hl⟩

theorem takeAnswer_own_kept {d : Decoding} (ho : d.own = true) (s : State) :
    SameOutside d.base d.need s (takeAnswer d s) ∧ (takeAnswer d s).blockIdx = s.blockIdx ∧
      ((takeAnswer d s).attempt = s.attempt ∨ d.locates = true) := by
  have hpar := (takeAnswer_kept d s).1.par
  have hfed : ∀ x, SameOutside d.base d.need s (feedPulse d x (takePulse s)) :=
    fun x => sameOutside_feedPulse d x (takePulse s)
  rcases takeAnswer_cases d s with ⟨x, _, _, e⟩ | ⟨x, _, _, ht⟩ | ⟨_, ht⟩
  · rw [e]; exact ⟨hfed x, rfl, .inl rfl⟩
  · obtain ⟨hmem, hblock, hattempt⟩ := ht.own_kept ho
    exact ⟨(hfed x).trans (.of_eq hpar hmem), hblock, hattempt⟩
  · obtain ⟨hmem, hblock, hattempt⟩ := ht.own_kept ho
    exact ⟨(sameOutside_drawBuf d.base d.need (takePulse s)).trans (.of_eq hpar hmem), hblock, hattempt⟩

/-! ### The commands that are one Decode, or the Decodes of one Locate -/

/-- DECODE, RBODY and LOCATE are the commands of such a Decode. -/
theorem exists_own {i : Instr}
    (hi : (∃ n, i = .decode n) ∨ i = .rbody ∨ ∃ c h sec, i = .locate c h sec) :
    ∃ d : Decoding, d.own = true ∧ i = d.command := by
  rcases hi with ⟨n, rfl⟩ | rfl | ⟨c, h, sec, rfl⟩
  · exact ⟨.decode n, rfl, rfl⟩
  · exact ⟨.rbody, rfl, rfl⟩
  · exact ⟨.locate c h sec, rfl, rfl⟩

theorem Decoding.eq_locate {d : Decoding} (ho : d.own = true) (hl : d.locates = true) :
    ∃ c h sec, d.command = .locate c h sec := by
  cases d with
  | locate c h sec => exact ⟨c, h, sec, rfl⟩
  | readId r => cases ho
  | _ => cases hl

theorem Decoding.own_command_ne {d : Decoding} (ho : d.own = true) (r : SectorRead) :
    r.command ≠ d.command := by
  rcases r.command_reads with ⟨c, h, sec, e⟩ | ⟨addr, count, e⟩ <;> rw [e] <;> cases d <;>
    simp [Decoding.own, Decoding.command] at ho ⊢

theorem Decoding.eq_of_own_command {d d' : Decoding} (ho : d.own = true) (h : d'.command = d.command) :
    d' = d := by
  cases d' with
  | readId r | readBody r => exact absurd h (d.own_command_ne ho r)
  | decode _ | rbody | locate _ _ _ =>
    cases d with
    | readId r | readBody r => cases ho
    | decode _ | rbody | locate _ _ _ => cases h <;> rfl

/-- Such a command is at one of two points: inside its Decode, or at its result. -/
theorem Job.of_own_command {d : Decoding} (ho : d.own = true) {j : Job} (hj : j.command = d.command) :
    j = .decoding d ∨ ∃ c, j = .ending d.command c := by
  cases j with
  | ending i c => exact .inr ⟨c, by rw [← hj]; rfl⟩
  | readBegin r | readCheck r | readMove r | readStep r k => exact absurd hj (d.own_command_ne ho r)
  | decoding d' => exact .inl (congrArg _ (Decoding.eq_of_own_command ho hj))
  | _ =>
    cases d with
    | readId r | readBody r => cases ho
    | decode _ | rbody | locate _ _ _ => cases hj

/-- What such a command keeps from `s` on, where it stands at `u`. -/
structure OwnKept (d : Decoding) (s u : State) : Prop where
  units : SameUnits s u
  blockIdx : u.blockIdx = s.blockIdx
  track : u.currentTrack = s.currentTrack ∨ Concludes d.command .seekError u ∧ d.locates = true
  attempt : u.attempt = s.attempt ∨ d.locates = true
  bytes : SameOutside d.base d.need s u

theorem OwnKept.refl (d : Decoding) (s : State) : OwnKept d s s :=
  ⟨.refl s, rfl, .inl rfl, .inl rfl, .of_eq rfl rfl⟩

theorem OwnKept.act {d : Decoding} (ho : d.own = true) {s u : State} (h : OwnKept d s u) {j : Job}
    (hb : u.busy = true) (hj : u.job = some j) (hc : j.command = d.command) : OwnKept d s (act j u) := by
  have htrack := h.track.imp_right (And.imp_left fun hend => hend.act hb hj)
  rcases Job.of_own_command ho hc with rfl | ⟨c, rfl⟩
  · obtain ⟨hbytes, hblock, hattempt⟩ := takeAnswer_own_kept ho u
    refine ⟨h.units.trans (takeAnswer_kept d u).1, hblock.trans h.blockIdx, ?_, ?_, h.bytes.trans hbytes⟩
    · rcases takeAnswer_currentTrack d u with ht | ⟨hl, hend⟩
      · exact htrack.imp_left ht.trans
      · exact .inr ⟨.inr hend, hl⟩
    · exact hattempt.elim (fun ha => h.attempt.imp_left ha.trans) .inr
  · exact ⟨h.units.trans (by constructor <;> rfl), h.blockIdx, htrack, h.attempt,
      h.bytes.trans (.of_eq rfl rfl)⟩

/-- Accepting the command writes BUSY and the working registers alone. -/
theorem ownKept_start {d : Decoding} (ho : d.own = true) (s : State) :
    OwnKept d s (start d.command (accept s)) := by
  have hattempt : (start d.command (accept s)).attempt = s.attempt ∨ d.locates = true := by
    cases d with
    | locate c h sec => exact .inr rfl
    | readId r | readBody r => cases ho
    | _ => exact .inl rfl
  rw [start_eq] at hattempt ⊢
  exact ⟨by constructor <;> rfl, rfl, .inl rfl, hattempt, .of_eq rfl rfl⟩

/-- The acceptance of the command, as far as `exec` runs it. -/
theorem ownKept_exec {d : Decoding} (ho : d.own = true) {s t : State}
    (h : exec d.command s = .next t) : OwnKept d s t := by
  rcases wf_or_long d.command with hw | ⟨n, hn, hlong⟩
  · rw [exec_start hw] at h; cases h
    unfold launch; split
    · exact ownKept_start ho s
    · obtain ⟨j, hj, hc⟩ := start_job d.command (accept s)
      exact run_induct (fun u j hb hj hc hu => hu.act ho hb hj hc)
        (fun j' hj' => by cases hj.symm.trans hj'; exact hc) (ownKept_start ho s)
  · rw [hn, exec_long hlong] at h; cases h
    exact ⟨by constructor <;> rfl, rfl, .inl rfl, .inl rfl, .of_eq rfl rfl⟩

/-- A step of the running command: it keeps all this, but for what the host's own access does to the host's
side. -/
theorem ownKept_step {d : Decoding} (ho : d.own = true) {s t : State} (hr : Running d.command s)
    (h : step s = .next t) : ∃ host hd dr, (s.host = [] → host = s.host ∧ hd = s.hostData) ∧
      OwnKept d { s with host := host, hostData := hd, draws := dr } t := by
  rcases step_running hr h with ⟨rest, j, hh, hj, hc, rfl⟩ | ⟨rest, hd, dr, hne, rfl⟩
  · refine ⟨rest, s.hostData, s.draws, fun h0 => ⟨?_, rfl⟩, (OwnKept.refl d _).act ho hr.1 hj hc⟩
    rcases hh with ⟨_, rfl⟩ | hidle
    · exact h0.symm
    · rw [h0] at hidle; cases hidle
  · exact ⟨rest, hd, dr, fun h0 => absurd h0 hne, .refl ..⟩

theorem Runs.ownKept {d : Decoding} (ho : d.own = true) {s t : State} (h : Runs d.command s t) :
    ∃ host hd dr, (exec d.command s = .next t ∨ s.host = [] → host = s.host ∧ hd = s.hostData) ∧
      OwnKept d { s with host := host, hostData := hd, draws := dr } t := by
  by_cases he : exec d.command s = .next t
  · exact ⟨s.host, s.hostData, s.draws, fun _ => ⟨rfl, rfl⟩, ownKept_exec ho he⟩
  · obtain ⟨_, hr, hstep⟩ := h.resolve_left he
    obtain ⟨host, hd, dr, hhost, hkept⟩ := ownKept_step ho hr hstep
    exact ⟨host, hd, dr, fun h0 => hhost (h0.resolve_left he), hkept⟩

/-- R132: the destination of such a Decode, as the command's region. -/
theorem outside_of_not_decodeRegion {d : Decoding} (ho : d.own = true) {a : Nat}
    (h : ¬decodeRegion d.command a) : a < d.base ∨ d.base + d.need ≤ a := by
  by_contra hin
  have hin : d.base ≤ a ∧ a < d.base + d.need := by omega
  cases d with
  | readId r | readBody r => cases ho
  | _ => exact h hin

/-- Settles O48: the command is that of a Decode of its own, whose turns keep everything but its working
registers, its destination and, in a Locate, ATTEMPT and CURRENT_TRACK. -/
theorem componentCommandFrame : Obligations.ComponentCommandFrame := by
  unfold Obligations.ComponentCommandFrame
  intro i s t hi hr
  obtain ⟨d, ho, rfl⟩ := exists_own hi
  obtain ⟨host, hd, dr, hhost, hkept⟩ := hr.ownKept ho
  have hunits := hkept.units
  refine ⟨hunits.par, hunits.initialized, hunits.motorOn, hunits.lastOpTime, hunits.lines, hunits.rdata,
    hunits.stepCnt, hkept.blockIdx, hunits.trk0s, hunits.nows, fun h0 => ?_,
    hkept.track.imp_right (.imp_right (d.eq_locate ho)), hkept.attempt.imp_right (d.eq_locate ho),
    fun a ha => hkept.bytes a (outside_of_not_decodeRegion ho ha)⟩
  obtain ⟨rfl, rfl⟩ := hhost h0
  exact ⟨hunits.host, hunits.hostData⟩

end Sys2Proof.Machine
end

section
/-! LOCATE on given answers of the Pulse Source (R181 to R186): a matching record, a record of another
cylinder, and attempts that all fail. -/

namespace Sys2Proof.Machine

/-- R182, R303: a LOCATE whose attempts come to the result `code` at `u` ends there with it. -/
theorem exec_locate_ends {s u : State} {c h sec : Byte} {code : ResultCode} (hs : s.stepwise = false)
    (hbusy : u.busy = true)
    (hrun : run (locateTry 1 (.locate c h sec) (accept s)) = run (endWith (.locate c h sec) code u)) :
    exec (.locate c h sec) s = .next (finish code u) := by
  rw [exec_run (i := .locate c h sec) rfl hs, start, hrun, run_endWith _ _ hbusy]

/-- Settles O38: the attempts lead to the record, which LOCATE finds and keeps in AM_BUF. -/
theorem locateFindsMatchingRecord : Obligations.LocateFindsMatchingRecord := by
  unfold Obligations.LocateFindsMatchingRecord
  intro s c h sec fails ds bytes rest hs hlt hf hp hd hr
  obtain ⟨u, hrun, hsame, hbusy, _, hattempt, _, hrecord, hpulses, _⟩ :=
    (locating_locate c h sec).finds (accept_busy s) hp hf hlt hd hr
  exact ⟨finish .ok u, exec_locate_ends hs hbusy hrun, rfl, rfl, hpulses, hsame.currentTrack, hattempt,
    hrecord⟩

/-- Settles O39: the record after the attempts is misplaced, and its cylinder byte goes to CURRENT_TRACK. -/
theorem locateReportsSeekError : Obligations.LocateReportsSeekError := by
  unfold Obligations.LocateReportsSeekError
  intro s c h sec fails ds seen more rest hs hlt hf hp hd hne
  obtain ⟨u, hrun, _, hbusy, _, hattempt, _, hpulses, _⟩ :=
    (locating_locate c h sec).misplaced (accept_busy s) hp hf hlt hd hne
  exact ⟨finish .seekError { u with currentTrack := seen }, exec_locate_ends hs hbusy hrun, rfl, rfl, rfl,
    hpulses, hattempt⟩

/-- Settles O40: no attempt is left after the failed ones. -/
theorem locateExhaustsAttempts : Obligations.LocateExhaustsAttempts := by
  unfold Obligations.LocateExhaustsAttempts
  intro s c h sec fails rest hs hlen hf hp
  obtain ⟨u, hrun, hsame, hbusy, _, hpulses⟩ :=
    (locating_locate c h sec).exhausted (accept_busy s) hp hf hlen
  exact ⟨finish .sectorNotFound u, exec_locate_ends hs hbusy hrun, rfl, rfl, hpulses, hsame.currentTrack⟩

end Sys2Proof.Machine
end

section
/-! RBODY on answers that complete its Decode (R200, R201): the bytes in BODY_BUF and their verdict. -/

namespace Sys2Proof.Machine

/-- Settles O37: the Decode stores its 515 bytes and ends with OK, and RBODY ends with the verdict on the
bytes that BODY_BUF then holds. -/
theorem rbodyJudgesBody : Obligations.RbodyJudgesBody := by
  unfold Obligations.RbodyJudgesBody
  intro s ds bytes rest hs hp hd
  refine ⟨hd.length, ?_⟩
  obtain ⟨u, hrun, hsame, hbusy, _, hattempt, hdraws, hdone, hmem, hpulses, htrace⟩ :=
    decode_completes .rbody (accept_busy s) (s := accept s) hp hd
  have hverdict : bodyVerdict u = bodyResult s.par bytes := by
    rw [bodyVerdict_eq hmem hd.length, hsame.par, accept_par]
  refine ⟨u.dec, hdone, ?_⟩
  rw [exec_run (i := .rbody) rfl hs, start, hrun, decodeOk, run_endWith _ _ hbusy, hverdict,
    hsame.eq_update, hattempt, hdraws, hmem, hpulses, htrace]
  rfl

end Sys2Proof.Machine
end

section
/-! The motor and the head: MOTOR (R228, R229), MTICK (R230, R231), and SEEK from its
timestamp to its arrival or its refusal (R224, R225, R262). -/

namespace Sys2Proof.Machine

/-! ### MOTOR and MTICK -/

/-- A command whose first point comes to the result `c` at `u` ends there with it. -/
theorem run_goto_ends {j : Job} (hd : ∀ d, j ≠ .decoding d) {s u : State} (hb : s.busy = true)
    {i : Instr} {c : ResultCode} (h : act j (goto j s) = endWith i c u) (hu : u.busy = true) :
    run (goto j s) = finish c u := by
  rw [run_goto hd hb, h, run_endWith i c hu]

/-- Settles O22: the one point of MOTOR is SetMotor, and MOTOR ends there with OK. -/
theorem motorCommandSetsMotor : Obligations.MotorCommandSetsMotor := by
  unfold Obligations.MotorCommandSetsMotor
  intro s on hs
  rw [exec_run (i := .motor on) rfl hs, start,
    run_goto_ends (by simp) (accept_busy s) rfl (by simp), setMotor_eq]
  by_cases hm : s.motorOn = on
  · rw [if_pos hm, if_pos (show (goto (.motor on) (accept s)).motorOn = on from hm)]; rfl
  · rw [if_neg hm, if_neg (show ¬(goto (.motor on) (accept s)).motorOn = on from hm)]; rfl

/-- R230, R231: when MTICK turns the motor off, in exact arithmetic. -/
theorem idleExpired_iff (t : Word) (s : State) : idleExpired t s = true ↔ s.motorOn = true ∧
    s.par.motorIdleTimeout < (t.toNat + (2 ^ 32 - s.lastOpTime.toNat)) % 2 ^ 32 := by
  simp [idleExpired, idleTime, BitVec.toNat_sub, Nat.add_comm]

/-- R230: MTICK samples the clock, and turns off a motor that is on. -/
theorem motorTick_eq (s : State) : motorTick s =
    if idleExpired (nowAnswer s) s then { takeNow s with
      motorOn := false
      lines := { s.lines with motor := false }
      trace := .line .motor false :: (takeNow s).trace }
    else takeNow s := by
  unfold motorTick
  split
  · rename_i h
    obtain ⟨hon, _⟩ := (idleExpired_iff _ _).mp h
    rw [setMotor_eq, if_neg (by simp [hon])]; rfl
  · rfl

/-- Settles O23: the one point of MTICK samples the clock and compares the idle time. -/
theorem motorTickStopsIdleMotor : Obligations.MotorTickStopsIdleMotor := by
  unfold Obligations.MotorTickStopsIdleMotor
  intro s hs
  rw [exec_run (i := .mtick) rfl hs, start,
    run_goto_ends (by simp) (accept_busy s) rfl (by rw [motorTick_eq]; split <;> rfl), motorTick_eq]
  have hidle : idleExpired (nowAnswer (goto .mtick (accept s))) (goto .mtick (accept s)) =
      idleExpired (nowAnswer s) s := rfl
  simp only [hidle, ← idleExpired_iff]
  split_ifs <;> rfl

/-! ### SEEK -/

/-- R224, R262: a SEEK that SeekCheck refuses has recorded the time, and ends with the error. -/
theorem exec_seek_refused {s : State} {t : Byte} {e : ResultCode} (hs : s.stepwise = false)
    (h : seekCheck t s = some e) : exec (.seek t) s = .next (finish e (recordTime (accept s))) := by
  have h' : seekCheck t (recordTime (accept s)) = some e := h
  rw [exec_run (i := .seek t) rfl hs, start, run_seek t (accept_busy s), h']

/-- R225, R262: a SEEK that SeekCheck lets pass records the time and moves the head. -/
theorem exec_seek_moves {s : State} {t : Byte} (hs : s.stepwise = false) (h : seekCheck t s = none) :
    exec (.seek t) s = .next (finish .ok (seekMove t (recordTime (accept s)))) := by
  have h' : seekCheck t (recordTime (accept s)) = none := h
  rw [exec_run (i := .seek t) rfl hs, start, run_seek t (accept_busy s), h']

/-- Settles O24: SeekCheck gives NotInitialized, or, in READY, TrackOutOfRange. -/
theorem seekRefusals : Obligations.SeekRefusals := by
  unfold Obligations.SeekRefusals
  intro s t hs
  refine ⟨fun hi => ?_, fun hi ht => ?_⟩
  · rw [exec_seek_refused hs (seekCheck_some.mpr (.inl ⟨hi, rfl⟩))]; rfl
  · rw [exec_seek_refused hs (seekCheck_some.mpr (.inr ⟨hi, ht, rfl⟩))]; rfl

/-- Settles O25: SeekCheck lets the target pass, and SeekMove as one update is `seekMove_eq`. -/
theorem seekMovesHead : Obligations.SeekMovesHead := by
  unfold Obligations.SeekMovesHead
  intro s t hs hi ht
  rw [exec_seek_moves hs (seekCheck_none.mpr ⟨hi, ht⟩), seekMove_eq, seekSteps_eq]; rfl

end Sys2Proof.Machine
end

section
/-! INIT (R220, R222, R223, R260): calibration on given TRK0 samples, and on any. -/

namespace Sys2Proof.Machine

/-! ### Turns of the calibration loop that see TRK0 false -/

/-- R222: one turn of the calibration loop that sees TRK0 false below the bound, as one update. -/
theorem calibrationStep_eq (s : State) : countStep (stepPulse (takeTrk0 s)) = { s with
    stepCnt := s.stepCnt + 1
    lines := { s.lines with step := false }
    trk0s := s.trk0s.tail
    draws := if s.trk0s.isEmpty then s.draws + 1 else s.draws
    trace := .delay .stepInterval :: .line .step false :: .delay .stepPulseWidth ::
      .line .step true :: .trk0 (trk0Answer s) :: s.trace } := by
  simp only [countStep, stepPulse_eq, takeTrk0, emit]

/-- The state after `k` turns of the calibration loop, each of which has sampled TRK0 as false and stepped
once, where `rest` is left of the samples. -/
def afterTurns (k : Nat) (rest : List Bool) (s : State) : State :=
  { s with
    stepCnt := s.stepCnt + k
    lines := { s.lines with step := if k = 0 then s.lines.step else false }
    trk0s := rest
    trace := calibrationEvents k ++ s.trace }

theorem afterTurns_zero (s : State) : afterTurns 0 s.trk0s s = s := rfl

/-- One turn, then `k` more. -/
theorem afterTurns_succ (k : Nat) (rest : List Bool) {s : State} {more : List Bool}
    (h : s.trk0s = false :: more) :
    afterTurns k rest (countStep (stepPulse (takeTrk0 s))) = afterTurns (k + 1) rest s := by
  simp [afterTurns, calibrationStep_eq, h, trk0Answer_of_cons h, calibrationEvents_succ,
    Nat.add_assoc, Nat.add_comm 1 k]

/-- R222: as many false samples as the bound still allows are as many turns of the loop. -/
theorem run_calibrating_turns {s : State} (hb : s.busy = true) (hj : s.job = some .calibrating)
    {k : Nat} {rest : List Bool} (h : s.trk0s = List.replicate k false ++ rest)
    (hk : s.stepCnt + k ≤ s.par.tracks) : run s = run (afterTurns k rest s) := by
  induction k generalizing s with
  | zero =>
    obtain rfl : s.trk0s = rest := h
    rw [afterTurns_zero]
  | succ k ih =>
    have h' : s.trk0s = false :: (List.replicate k false ++ rest) := h
    rw [run_calibrating_step hb hj (trk0Answer_of_cons h') (by omega),
      ih (s := countStep (stepPulse (takeTrk0 s))) (by simpa using hb) (by simpa using hj)
        (by simp [h']) (by simp; omega),
      afterTurns_succ k rest h']

/-- R222, R260: INIT is its loop, with the drive selected and the direction outward. -/
theorem exec_init_turns {s : State} (hs : s.stepwise = false) {k : Nat} {rest : List Bool}
    (h : s.trk0s = List.replicate k false ++ rest) (hk : k ≤ s.par.tracks) : exec .init s =
      .next (run (afterTurns k rest (goto .calibrating (calibrateStart (accept s))))) := by
  rw [exec_run (i := .init) rfl hs, start, run_init (accept_busy s),
    run_calibrating_turns (s := goto .calibrating (calibrateStart (accept s))) rfl rfl h
      (by simpa using hk)]

/-- Settles O26: `k` turns of the loop, and the turn that sees track 0. -/
theorem initSucceeds : Obligations.InitSucceeds := by
  unfold Obligations.InitSucceeds
  intro s k rest hs hk h
  rw [exec_init_turns hs h hk, run_calibrating_found rfl rfl rfl, takeTrk0_of_cons rfl]
  simp [afterTurns, finish]

/-- Settles O27: TRACKS turns of the loop, and the turn that meets the bound. -/
theorem initFailsAfterTracksSteps : Obligations.InitFailsAfterTracksSteps := by
  unfold Obligations.InitFailsAfterTracksSteps
  intro s rest hs hp h
  have h' : s.trk0s = List.replicate s.par.tracks false ++ false :: rest := by
    rw [h, List.replicate_succ', List.append_assoc]; rfl
  have hn : s.par.tracks ≠ 0 := by omega
  rw [exec_init_turns hs h' (Nat.le_refl _), run_calibrating_bound rfl rfl rfl (by simp [afterTurns]),
    takeTrk0_of_cons rfl]
  simp [afterTurns, finish, hn]

/-! ### Whatever TRK0 answers -/

/-- `u` is `s` after turns of the calibration loop, within the bound: STEP_CNT, STEP, the samples left, the
free values drawn and the events are all that has changed. -/
def Turned (s u : State) : Prop :=
  ∃ n step samples drawn events, n ≤ s.par.tracks ∧ u = { s with
    stepCnt := n
    lines := { s.lines with step := step }
    trk0s := samples
    draws := drawn
    trace := events }

/-- A sample of TRK0 alone. -/
theorem turned_takeTrk0 {s : State} (hn : s.stepCnt ≤ s.par.tracks) : Turned s (takeTrk0 s) :=
  ⟨_, _, _, _, _, hn, rfl⟩

/-- One turn, and what follows it. -/
theorem Turned.of_turn {s u : State} (h : Turned (countStep (stepPulse (takeTrk0 s))) u) : Turned s u := by
  rw [calibrationStep_eq] at h
  obtain ⟨n, step, samples, drawn, events, hn, hu⟩ := h
  exact ⟨n, step, samples, drawn, events, hn, hu⟩

/-- R222, R223: the loop ends, by the number of steps still allowed: with track 0 seen, or at the bound. -/
theorem run_calibrating_ends {s : State} (hb : s.busy = true) (hj : s.job = some .calibrating)
    (hn : s.stepCnt ≤ s.par.tracks) : ∃ u, Turned s u ∧
      (run s = finish .ok { u with currentTrack := 0, initialized := true } ∨
        run s = finish .track0NotFound u) := by
  obtain ⟨k, hk⟩ := Nat.exists_eq_add_of_le hn
  induction k generalizing s with
  | zero =>
    refine ⟨takeTrk0 s, turned_takeTrk0 hn, ?_⟩
    cases ht : trk0Answer s with
    | true => exact .inl (run_calibrating_found hb hj ht)
    | false => exact .inr (run_calibrating_bound hb hj ht (by omega))
  | succ k ih =>
    cases ht : trk0Answer s with
    | true => exact ⟨takeTrk0 s, turned_takeTrk0 hn, .inl (run_calibrating_found hb hj ht)⟩
    | false =>
      obtain ⟨u, hu, hend⟩ := ih (s := countStep (stepPulse (takeTrk0 s))) (by simpa using hb)
        (by simpa using hj) (by simp; omega) (by simp; omega)
      rw [run_calibrating_step hb hj ht (by omega)]
      exact ⟨u, hu.of_turn, hend⟩

theorem controller_eq_calibrating {s : State} :
    controller s = .calibrating ↔ s.initialized = false ∧ s.job = some .calibrating := by
  unfold controller; split
  · simp_all
  · split <;> simp_all

/-- Settles O28: the loop ends within the bound and touches nothing that the statement names; and each of
INIT's points but the last leaves it in the loop. -/
theorem initEndsEitherWay : Obligations.InitEndsEitherWay := by
  unfold Obligations.InitEndsEitherWay
  refine ⟨fun s hs => ?ends, fun s hb hh => ⟨fun hj => ?first, fun hc ht hn => ?turn⟩⟩
  case ends =>
    obtain ⟨u, ⟨n, step, samples, drawn, events, hn, rfl⟩, hend⟩ :=
      run_calibrating_ends (s := goto .calibrating (calibrateStart (accept s))) rfl rfl (by simp)
    rw [exec_run (i := .init) rfl hs, start, run_init (accept_busy s)]
    refine ⟨_, rfl, ?_⟩
    rcases hend with e | e <;> rw [e] <;> simpa using hn
  case first => exact ⟨_, step_act hb hj hh, rfl, hb, rfl⟩
  case turn =>
    obtain ⟨hi, hj⟩ := controller_eq_calibrating.mp hc
    refine ⟨_, step_act hb hj hh, ?_⟩
    rw [act, calibrateTurn_step ht hn]
    exact ⟨controller_eq_calibrating.mpr ⟨by simpa using hi, by simpa using hj⟩, by simpa using hb,
      by simp⟩

end Sys2Proof.Machine
end

section
/-! R227: every motor-on event is followed at once by the spin-up delay, at every point of every command. -/

namespace Sys2Proof.Machine

/-! ### One more event, and a motor-on with its delay -/

/-- An event that is no motor-on may come next. -/
theorem spinUpFollows_cons {evs : List Event} {e : Event} (h : SpinUpFollows evs)
    (he : e ≠ .line .motor true) : SpinUpFollows (e :: evs) := by
  intro k hk
  cases k with
  | zero => exact absurd (Option.some.inj hk) he
  | succ k =>
    obtain ⟨j, rfl, hj⟩ := h k hk
    exact ⟨j + 1, rfl, hj⟩

theorem spinUpFollows_motorOn {evs : List Event} (h : SpinUpFollows evs) :
    SpinUpFollows (.delay .motorSpinup :: .line .motor true :: evs) := by
  intro k hk
  match k with
  | 0 => cases hk
  | 1 => exact ⟨0, rfl, rfl⟩
  | k + 2 =>
    obtain ⟨j, rfl, hj⟩ := h k hk
    exact ⟨j + 2, rfl, hj⟩

theorem spinUpFollows_setMotor (on : Bool) {s : State} (h : SpinUpFollows s.trace) :
    SpinUpFollows (setMotor on s).trace := by
  rw [setMotor_eq]
  split
  · exact h
  · cases on with
    | true => exact spinUpFollows_motorOn h
    | false => exact spinUpFollows_cons h nofun

theorem spinUpFollows_stepPulse {s : State} (h : SpinUpFollows s.trace) :
    SpinUpFollows (stepPulse s).trace :=
  have hline : SpinUpFollows (.delay .stepPulseWidth :: .line .step true :: s.trace) :=
    spinUpFollows_cons (spinUpFollows_cons h nofun) nofun
  spinUpFollows_cons (spinUpFollows_cons hline nofun) nofun

/-! ### Every point, every command, every step -/

theorem act_spinUpFollows (j : Job) {s : State} (h : SpinUpFollows s.trace) :
    SpinUpFollows (act j s).trace := by
  cases j with
  | init => exact spinUpFollows_cons (spinUpFollows_cons h nofun) nofun
  | calibrating =>
    have hs : SpinUpFollows (takeTrk0 s).trace := spinUpFollows_cons h nofun
    rw [act, calibrateTurn]
    split
    · exact hs
    · split
      · exact hs
      · exact spinUpFollows_stepPulse hs
  | seek t => exact spinUpFollows_cons h nofun
  | seekCheck t =>
    rw [act, seekStart]
    split
    · exact h
    · exact spinUpFollows_cons h nofun
  | seekStep t k =>
    cases k with
    | zero => exact h
    | succ k => exact spinUpFollows_stepPulse h
  | mtick =>
    have hs : SpinUpFollows (takeNow s).trace := spinUpFollows_cons h nofun
    simp only [act, motorTick]
    split
    · exact spinUpFollows_setMotor false hs
    · exact hs
  | motor on => exact spinUpFollows_setMotor on h
  | classify d => exact h
  | xlate addr => rw [act, translateAddr]; split <;> exact h
  | rblk addr count => rw [act, startBlocks]; split <;> exact h
  | readBegin r => exact spinUpFollows_cons h nofun
  | readCheck r =>
    rw [act, readStart]
    split
    · simpa using h
    · exact spinUpFollows_setMotor true h
  | readMove r => exact spinUpFollows_cons h nofun
  | readStep r k =>
    cases k with
    | zero =>
      obtain ⟨_, _, _, _, htrace, _⟩ :=
        locateTry_kept 1 (.readId r) (driveLine .headSel (r.head != 0) (seekArrive r.cyl s))
      rw [act, readTurn, htrace]
      exact spinUpFollows_cons h nofun
    | succ k => exact spinUpFollows_stepPulse h
  | decoding d =>
    obtain ⟨_, _, _, _, htrace⟩ := takeAnswer_kept d s
    rw [act, htrace]
    exact spinUpFollows_cons h nofun
  | ending i c => exact h

/-- Accepting a command adds no event, and its points keep the claim. -/
theorem Runs.spinUpFollows {i : Instr} {s t : State} (h : Runs i s t) (hs : SpinUpFollows s.trace) :
    SpinUpFollows t.trace := by
  refine h.induct_jobOk (P := fun u => SpinUpFollows u.trace) ?_ (fun _ _ _ => hs) hs
    fun u j _ _ _ _ _ hu => act_spinUpFollows j hu
  rw [start_eq]; exact hs

/-- Settles O56: a step runs a command, takes the running one to its next point, or adds no event. -/
theorem spinUpFollowsMotorOn : Obligations.SpinUpFollowsMotorOn := by
  unfold Obligations.SpinUpFollowsMotorOn
  intro s t hs hstep
  rcases step_cases hstep with ⟨i, rest, w, _, _, _, he⟩ | ⟨rest, _, _, rfl⟩ | ⟨rest, hd, dr, r, e, _⟩
  · exact Runs.spinUpFollows (s := { s with host := rest }) (.inl he) hs
  · unfold advance
    split
    · exact hs
    · exact act_spinUpFollows _ (s := { s with host := rest }) hs
  · rw [e]; exact hs

end Sys2Proof.Machine
end

section
/-! Logical block addresses (R261, R267), and XLATE (R266). -/

namespace Sys2Proof.Machine

/-! ### The translation (R261) -/

section
variable {p : Params} {addr : Nat} (hp : p.wf) (ha : addr < p.capacity)
include hp

theorem chsHead_lt : chsHead p addr < p.heads := by
  obtain ⟨_, hheads, _⟩ := hp
  exact Nat.mod_lt _ (by omega)

theorem chsSec_le : chsSec p addr ≤ p.sectors := by
  obtain ⟨_, _, hsectors, _⟩ := hp
  exact Nat.mod_lt _ (by omega)

include ha in
theorem chsCyl_lt : chsCyl p addr < p.tracks := by
  obtain ⟨_, ⟨hheads, _⟩, ⟨hsectors, _⟩, _⟩ := hp
  refine (Nat.div_lt_iff_lt_mul (Nat.mul_pos hsectors hheads)).mpr ?_
  rwa [Nat.mul_comm p.sectors, ← Nat.mul_assoc]

/-- R10, R261: a cylinder of the disk is a byte. -/
theorem toNat_chsCyl (hc : chsCyl p addr < p.tracks) :
    (BitVec.ofNat 8 (chsCyl p addr)).toNat = chsCyl p addr := by
  obtain ⟨⟨_, htracks⟩, _⟩ := hp
  rw [BitVec.toNat_ofNat, Nat.mod_eq_of_lt (by omega)]

/-- R266: the three bytes of XLATE's word. -/
theorem toNat_chsWord (hc : chsCyl p addr < p.tracks) : (chsWord p addr).toNat =
    chsCyl p addr + 256 * chsHead p addr + 65536 * chsSec p addr := by
  have hhead := chsHead_lt (addr := addr) hp
  have hsec := chsSec_le (addr := addr) hp
  obtain ⟨⟨_, htracks⟩, ⟨_, hheads⟩, ⟨_, hsectors⟩, _⟩ := hp
  simp only [chsWord, toNat_append_eq_add, BitVec.toNat_ofNat, show (0 : Byte).toNat = 0 from rfl]
  omega

end

/-- R267: the translation is inverted by its mixed-radix sum. -/
theorem chs_inverse (p : Params) (addr : Nat) :
    (chsCyl p addr * p.heads + chsHead p addr) * p.sectors + (chsSec p addr - 1) = addr := by
  have htrack : chsCyl p addr * p.heads + chsHead p addr = addr / p.sectors := by
    rw [chsCyl, chsHead, ← Nat.div_div_eq_div_mul, Nat.div_add_mod']
  rw [htrack, chsSec, Nat.add_sub_cancel, Nat.div_add_mod']

/-- Settles O21, by division with remainder, first by SECTORS and then by HEADS. -/
theorem chsRoundTrip : Obligations.ChsRoundTrip := by
  unfold Obligations.ChsRoundTrip
  intro p addr hp ha
  exact ⟨chsCyl_lt hp ha, chsHead_lt hp, Nat.le_add_left 1 _, chsSec_le hp, chs_inverse p addr⟩

/-! ### XLATE (R266) -/

theorem translateAddr_refuses {addr : Half} {s : State} (h : s.par.capacity ≤ addr.toNat) :
    translateAddr addr s = endWith (.xlate addr) .trackOutOfRange s := if_pos h

theorem translateAddr_translates {addr : Half} {s : State} (h : addr.toNat < s.par.capacity) :
    translateAddr addr s = endWith (.xlate addr) .ok { s with rdata := chsWord s.par addr.toNat } :=
  if_neg (Nat.not_le.mpr h)

/-- Settles O20: the one point of XLATE checks the range and translates. -/
theorem xlateTranslatesOrRefuses : Obligations.XlateTranslatesOrRefuses := by
  unfold Obligations.XlateTranslatesOrRefuses
  intro s addr hp hs
  refine ⟨fun ha => ?refused, fun ha => ⟨chsWord s.par addr.toNat, ?translated, ?packed⟩⟩
  case refused =>
    rw [exec_run (i := .xlate addr) rfl hs, start, run_goto_ends (j := .xlate addr) nofun (accept_busy s)
      (translateAddr_refuses (s := goto (.xlate addr) (accept s)) ha) rfl]; rfl
  case translated =>
    rw [exec_run (i := .xlate addr) rfl hs, start, run_goto_ends (j := .xlate addr) nofun (accept_busy s)
      (translateAddr_translates (s := goto (.xlate addr) (accept s)) ha) rfl]; rfl
  case packed => exact toNat_chsWord hp (chsCyl_lt hp ha)

end Sys2Proof.Machine
end

section
/-! RSEC and RBLK before their first Decode (R263 to R265): the refusals, and the validations of RBLK. -/

namespace Sys2Proof.Machine

/-! ### A ReadSector that SeekCheck refuses (R224, R263) -/

/-- R224, R263: a ReadSector that SeekCheck refuses has recorded the time, and its slot takes free values. -/
theorem run_readBegin_refused (r : SectorRead) {s : State} {e : ResultCode} (hb : s.busy = true)
    (h : seekCheck r.cyl s = some e) :
    run (goto (.readBegin r) s) = finish e (drawBuf (slotBase r.slot) sectorSize (recordTime s)) := by
  have h' : seekCheck r.cyl (recordTime s) = some e := h
  rw [run_readBegin r hb, h']

/-- Settles O41: SeekCheck gives the error, before the motor is started. -/
theorem rsecRefusals : Obligations.RsecRefusals := by
  unfold Obligations.RsecRefusals
  intro s c h sec e hs he
  have hcheck : seekCheck c (accept s) = some e := seekCheck_some.mpr he
  rw [exec_run (i := .rsec c h sec) rfl hs, start, run_readBegin_refused _ (accept_busy s) hcheck,
    finish_slot]; rfl

/-! ### RBLK's validations (R264, R265) -/

/-- R265: a count outside 1 to MAX_BLOCKS. -/
theorem blockCheck_amount {addr : Half} {count : Byte} {s : State}
    (h : count.toNat = 0 ∨ s.par.maxBlocks < count.toNat) :
    blockCheck addr count s = some .invalidAmount := if_pos h

/-- R265: a valid count, and a range that ends above CAPACITY. -/
theorem blockCheck_range {addr : Half} {count : Byte} {s : State}
    (h : ¬(count.toNat = 0 ∨ s.par.maxBlocks < count.toNat))
    (hr : s.par.capacity < addr.toNat + count.toNat) :
    blockCheck addr count s = some .trackOutOfRange := by rw [blockCheck, if_neg h, if_pos hr]

/-- R264: RBLK runs from its validations on. -/
theorem exec_rblk {addr : Half} {count : Byte} {s : State} (hs : s.stepwise = false) :
    exec (.rblk addr count) s =
      .next (run (startBlocks addr count (goto (.rblk addr count) (accept s)))) := by
  rw [exec_run (i := .rblk addr count) rfl hs, start,
    run_goto (j := .rblk addr count) nofun (accept_busy s), act]

theorem exec_rblk_refused {addr : Half} {count : Byte} {s : State} {e : ResultCode}
    (hs : s.stepwise = false) (h : blockCheck addr count s = some e) :
    exec (.rblk addr count) s = .next (finish e (accept s)) := by
  have h' : blockCheck addr count (goto (.rblk addr count) (accept s)) = some e := h
  rw [exec_rblk hs, startBlocks, h']
  exact congrArg _ (run_endWith _ e (accept_busy s))

theorem exec_rblk_starts {addr : Half} {count : Byte} {s : State} (hs : s.stepwise = false)
    (h1 : 1 ≤ count.toNat) (hm : count.toNat ≤ s.par.maxBlocks)
    (hc : addr.toNat + count.toNat ≤ s.par.capacity) :
    exec (.rblk addr count) s = .next (run (startBlock addr count 0 (accept s))) := by
  have h : blockCheck addr count (goto (.rblk addr count) (accept s)) = none :=
    blockCheck_none.mpr ⟨h1, hm, hc⟩
  rw [exec_rblk hs, startBlocks, h]; rfl

/-- Settles O44: the validations come first, and an error ends RBLK at once. -/
theorem rblkChecksBeforeAnything : Obligations.RblkChecksBeforeAnything := by
  unfold Obligations.RblkChecksBeforeAnything
  intro s addr count hs
  refine ⟨fun h => ?_, fun h hr => ?_⟩
  · rw [exec_rblk_refused hs (blockCheck_amount h)]; rfl
  · rw [exec_rblk_refused hs (blockCheck_range h hr)]; rfl

/-- Settles O45: the validations pass, and the ReadSector of block 0 is refused. -/
theorem rblkNeedsReady : Obligations.RblkNeedsReady := by
  unfold Obligations.RblkNeedsReady
  intro s addr count hs hi h1 hm hc
  rw [exec_rblk_starts hs h1 hm hc, startBlock, run_readBegin_refused _ (by exact accept_busy s)
    (seekCheck_some.mpr (.inl ⟨by exact hi, rfl⟩)), finish_slot]; rfl

end Sys2Proof.Machine
end

section
/-! A ReadSector in READY on given answers of the Pulse Source (R263): the body is judged, or the read fails;
and RSEC, which is one ReadSector into slot 0. -/

namespace Sys2Proof.Machine

/-- RSEC's one ReadSector (R263). -/
def rsecRead (c h sec : Byte) : SectorRead := { cyl := c, head := h, sec := sec, slot := 0, caller := .rsec }

/-- R263: RSEC is one ReadSector. -/
theorem exec_rsec {c h sec : Byte} {s : State} (hs : s.stepwise = false) :
    exec (.rsec c h sec) s = .next (run (goto (.readBegin (rsecRead c h sec)) (accept s))) :=
  exec_run (i := .rsec c h sec) rfl hs

/-! ### The body is judged (R201, R263) -/

/-- R75: where a slot begins. -/
theorem slotBase_eq (slot : Nat) : slotBase slot = 512 * slot := Nat.zero_add _

theorem sameDrive_writeBuf (base : Nat) (bs : List Byte) (s : State) : SameDrive s (writeBuf base bs s) :=
  ⟨⟨rfl, rfl, rfl, rfl, rfl, rfl, rfl, rfl, rfl, rfl, rfl, rfl⟩, rfl, rfl⟩

/-- R263: how a ReadSector with the caller RSEC ends on a decoded body: `u` differs from `v` in the output
slot, which on OK holds the data. -/
theorem sectorJudge_rsec {r : SectorRead} (hr : r.caller = .rsec) (v : State) :
    ∃ u, sectorJudge r v = endWith r.command (bodyVerdict v) u ∧ SameDrive v u ∧ u.busy = v.busy ∧
      u.pulses = v.pulses ∧ SameOutside (512 * r.slot) 512 v u ∧
      (bodyVerdict v = .ok → ∀ k, k < 512 →
        bufByte u (512 * r.slot + k) = bufByte v (bodyBase + 1 + k)) := by
  by_cases hok : bodyVerdict v = .ok
  · refine ⟨copySlot r.slot v, ?_, sameDrive_writeBuf .., copySlot_busy .., copySlot_pulses ..,
      fun a ha => bufByte_copySlot_outside r.slot v ha, fun _ k hk => bufByte_copySlot r.slot v hk⟩
    rw [sectorJudge_ok hok, sectorDone, hr, hok]
  · refine ⟨drawBuf (slotBase r.slot) sectorSize v, ?_, SameDrive.rfl.drawBuf _ _, drawBuf_busy ..,
      drawBuf_pulses .., ?_, fun h => absurd h hok⟩
    · rw [sectorJudge_error hok, sectorFail]
    · rw [slotBase_eq]; exact sameOutside_drawBuf _ _ v

/-- Settles O42: the attempts lead to the record and the record to the body; its verdict is the result. -/
theorem rsecReadsSector : Obligations.RsecReadsSector := by
  unfold Obligations.RsecReadsSector
  intro s c h sec fails ids bds record body rest hs hi hc hk hf hp hd hr hbd
  obtain ⟨v, hrun, hsame, hbusy, hpulses, hverdict, hrecord, hbody, _⟩ :=
    readSector_decodes (rsecRead c h sec) (s := accept s) (accept_busy s) hi hc hk hf hp hd hr hbd
  obtain ⟨u, hjudge, hsame', hbusy', hpulses', hout, hdata⟩ := sectorJudge_rsec (r := rsecRead c h sec) rfl v
  have hdrive := hsame.trans hsame'
  obtain ⟨hmotor, _, hdir, _, hhead⟩ := positionHead_lines c h (recordTime (accept s))
  have hverdict : bodyVerdict v = bodyResult s.par body := hverdict
  have hkept : ∀ a, bodyBase ≤ a → bufByte u a = bufByte v a :=
    fun a ha => hout a (.inr (show 512 * 0 + 512 ≤ a from Nat.le_trans (by decide) ha))
  refine ⟨finish (bodyResult s.par body) u, ?run, rfl, rfl, ?time, ?motorOn, ?motorLine, ?dir, ?headSel,
    ?track, hpulses'.trans hpulses, ?record, ?body, ?slot⟩
  case run => rw [exec_rsec hs, hrun, hjudge, run_endWith _ _ (hbusy'.trans hbusy), hverdict]
  case time => exact hdrive.lastOpTime.trans (positionHead_lastOpTime ..)
  case motorOn => exact hdrive.motorOn.trans (positionHead_motorOn ..)
  case motorLine => rw [finish_lines, hdrive.lines]; exact hmotor
  case dir => rw [finish_lines, hdrive.lines]; exact hdir
  case headSel =>
    rw [finish_lines, hdrive.lines]; exact hhead.trans (Bool.eq_iff_iff.mpr (by simp))
  case track => exact hdrive.currentTrack.trans (positionHead_currentTrack ..)
  case record =>
    exact fun k hk => (hkept _ (Nat.le_trans (by decide) (Nat.le_add_right amBase k))).trans (hrecord k hk)
  case body => exact fun k hk => (hkept _ (Nat.le_add_right bodyBase k)).trans (hbody k hk)
  case slot =>
    intro hok k hk
    have hstored : bufByte u (512 * 0 + k) = bufByte v (bodyBase + 1 + k) := hdata (hverdict.trans hok) k hk
    rw [Nat.mul_zero, Nat.zero_add, Nat.add_assoc, Nat.add_comm 1 k, hbody (k + 1) (by omega)] at hstored
    exact hstored

/-! ### The read fails (R183, R185, R138, R201) -/

/-- A ReadSector that begins at `s` fails with `e`, at `u`: the head has been positioned, the answers of the
read are gone, and no slot but its own has been written. -/
structure ReadFailed (r : SectorRead) (e : ResultCode) (rest : List PulseAnswer) (s u : State) : Prop where
  run : run (goto (.readBegin r) s) = finish e u
  units : SameUnits (positionHead r.cyl r.head (recordTime s)) u
  track : e ≠ .seekError → u.currentTrack = r.cyl
  blockIdx : u.blockIdx = s.blockIdx
  pulses : u.pulses = rest
  slots : ∀ a, a < bodyBase → a < 512 * r.slot ∨ 512 * r.slot + 512 ≤ a → bufByte u a = bufByte s a

/-- R263: the slot of a ReadSector that fails takes free values. -/
theorem readFailed_of_sectorFail {r : SectorRead} {e : ResultCode} {rest : List PulseAnswer} {s v : State}
    (hrun : run (goto (.readBegin r) s) = run (sectorFail r e v))
    (hunits : SameUnits (positionHead r.cyl r.head (recordTime s)) v)
    (htrack : e ≠ .seekError → v.currentTrack = r.cyl) (hblock : v.blockIdx = s.blockIdx)
    (hb : v.busy = true) (hp : v.pulses = rest) (hs : ∀ a, a < bodyBase → bufByte v a = bufByte s a) :
    ReadFailed r e rest s (drawBuf (slotBase r.slot) sectorSize v) where
  run := by rw [hrun, run_sectorFail _ _ hb]
  units := hunits.trans (SameDrive.rfl.drawBuf _ _).toSameUnits
  track h := (drawBuf_currentTrack ..).trans (htrack h)
  blockIdx := (drawBuf_blockIdx ..).trans hblock
  pulses := (drawBuf_pulses ..).trans hp
  slots a ha hout := by
    rw [sameOutside_drawBuf (slotBase r.slot) sectorSize v a (by rwa [slotBase_eq]), hs a ha]

/-- The same, where the read has not left the cylinder. -/
theorem readFailed_of_sameDrive {r : SectorRead} {e : ResultCode} {rest : List PulseAnswer} {s v : State}
    (hrun : run (goto (.readBegin r) s) = run (sectorFail r e v))
    (hsame : SameDrive (positionHead r.cyl r.head (recordTime s)) v) (hb : v.busy = true)
    (hp : v.pulses = rest) (hs : ∀ a, a < bodyBase → bufByte v a = bufByte s a) :
    ReadFailed r e rest s (drawBuf (slotBase r.slot) sectorSize v) :=
  readFailed_of_sectorFail hrun hsame.toSameUnits
    (fun _ => hsame.currentTrack.trans (positionHead_currentTrack ..))
    (hsame.blockIdx.trans (positionHead_blockIdx ..)) hb hp hs

/-- A Locate, which writes AM_BUF alone, leaves the slots as they were. -/
theorem slots_of_sameOutside {c h : Byte} {s u : State}
    (hout : SameOutside amBase amSize (positionHead c h (recordTime s)) u) {a : Nat} (ha : a < bodyBase) :
    bufByte u a = bufByte s a :=
  (hout a (.inl (Nat.lt_trans ha (by decide)))).trans
    (bufByte_congr (positionHead_par ..) (positionHead_mem ..) a)

section
variable {r : SectorRead} {s : State} {fails : List (List PulseAnswer)} {rest : List PulseAnswer}
  (hb : s.busy = true) (hi : s.initialized = true) (hc : r.cyl.toNat < s.par.tracks)
  (hf : ∀ as ∈ fails, FailedAttempt s.par r.cyl r.head r.sec as)
include hb hi hc hf

/-- R183, R263: a ReadSector in READY that sees another cylinder ends with SeekError; the events since the
head was positioned are the queries of its attempts. -/
theorem readSector_misplaced {ids : List Nat} {seen : Byte} {more : List Byte}
    (hk : fails.length < s.par.locateAttempts) (hp : s.pulses = fails.flatten ++ (answers ids ++ rest))
    (hd : DecodesTo s.par amSize ids (0xFE :: seen :: more)) (hne : seen ≠ r.cyl) :
    ∃ u : State, ReadFailed r .seekError rest s u ∧ u.currentTrack = seen ∧
      u.trace = (fails.flatten ++ answers ids).reverse.map .nextPulse ++
        (positionHead r.cyl r.head (recordTime s)).trace := by
  have hpar : (positionHead r.cyl r.head (recordTime s)).par = s.par := positionHead_par ..
  obtain ⟨u, hrun, hsame, hbusy, _, _, hout, hpulses, htrace⟩ :=
    (locating_readId r).misplaced (s := positionHead r.cyl r.head (recordTime s)) (by simpa using hb)
      (by simpa using hp) (by rwa [hpar]) (by rwa [hpar]) (by rwa [hpar]) hne
  exact ⟨_, readFailed_of_sectorFail (v := { u with currentTrack := seen })
    (by rw [run_readBegin_ready r hb hi hc, hrun, locateFail]) { hsame with } (absurd rfl)
    (hsame.blockIdx.trans (positionHead_blockIdx ..)) hbusy hpulses (fun a => slots_of_sameOutside hout),
    drawBuf_currentTrack .., (drawBuf_trace ..).trans htrace⟩

/-- R185, R263: a ReadSector in READY whose attempts run out ends with SectorNotFound. -/
theorem readSector_exhausted (hk : fails.length = s.par.locateAttempts)
    (hp : s.pulses = fails.flatten ++ rest) : ∃ u : State, ReadFailed r .sectorNotFound rest s u := by
  have hpar : (positionHead r.cyl r.head (recordTime s)).par = s.par := positionHead_par ..
  obtain ⟨u, hrun, hsame, hbusy, hout, hpulses⟩ :=
    (locating_readId r).exhausted (s := positionHead r.cyl r.head (recordTime s)) (by simpa using hb)
      (by simpa using hp) (by rwa [hpar]) (by rwa [hpar])
  exact ⟨_, readFailed_of_sameDrive (by rw [run_readBegin_ready r hb hi hc, hrun, locateFail]) hsame hbusy
    hpulses (fun a => slots_of_sameOutside hout)⟩

end

/-- R263: answers that make a positioned ReadSector fail with `e` make a READY one do so. -/
theorem readSector_fails {r : SectorRead} {s : State} (hb : s.busy = true) (hi : s.initialized = true)
    (hc : r.cyl.toNat < s.par.tracks) {as rest : List PulseAnswer} {e : ResultCode}
    (hf : ReadFails s.par r.cyl r.head r.sec as e) (hp : s.pulses = as ++ rest) :
    ∃ u, ReadFailed r e rest s u := by
  obtain ⟨fails, hfails, ⟨hk, rfl, rfl⟩ | ⟨hk, ⟨ids, seen, more, rfl, hd, hne, rfl⟩ |
    ⟨ids, record, hd, hr, ⟨bds, rfl, hbd, rfl⟩ | ⟨bds, body, rfl, hbd, rfl, he⟩⟩⟩⟩ := hf
  · exact readSector_exhausted hb hi hc hfails hk hp
  · obtain ⟨u, hu, _⟩ :=
      readSector_misplaced hb hi hc hfails hk (by rw [hp, List.append_assoc]) hd hne
    exact ⟨u, hu⟩
  · obtain ⟨v, hrun, hsame, hbusy, hpulses, hs⟩ :=
      readSector_timesOut r hb hi hc hk hfails (rest := rest) (by simpa using hp) hd hr hbd
    exact ⟨_, readFailed_of_sameDrive hrun hsame hbusy hpulses hs⟩
  · obtain ⟨v, hrun, hsame, hbusy, hpulses, hverdict, _, _, hs⟩ :=
      readSector_decodes r hb hi hc hk hfails (rest := rest) (by simpa using hp) hd hr hbd
    rw [← hverdict] at he ⊢
    exact ⟨_, readFailed_of_sameDrive (hrun.trans (congrArg run (sectorJudge_error he))) hsame hbusy
      hpulses hs⟩

/-- Settles O60: RSEC ends with the error of its one ReadSector. -/
theorem rsecReportsFailedRead : Obligations.RsecReportsFailedRead := by
  unfold Obligations.RsecReportsFailedRead
  intro s c h sec as e rest hs hi hc hf hp
  obtain ⟨u, hu⟩ := readSector_fails (r := rsecRead c h sec) (s := accept s) (accept_busy s) hi hc hf hp
  refine ⟨finish e u, ?_, rfl, rfl, hu.pulses, hu.units.lastOpTime.trans (positionHead_lastOpTime ..),
    hu.units.motorOn.trans (positionHead_motorOn ..), hu.track⟩
  rw [exec_rsec hs, hu.run]

/-! ### A cylinder mismatch does not re-seek (R268) -/

/-- Accepting a command changes nothing that positioning the head looks at. -/
theorem positionHead_accept (c h : Byte) (s : State) :
    positionHead c h (recordTime (accept s)) = accept (positionHead c h (recordTime s)) := by
  have hmotor : setMotor true (recordTime (accept s)) = accept (setMotor true (recordTime s)) := by
    rw [setMotor_eq, setMotor_eq]
    by_cases hm : (recordTime s).motorOn = true
    · rw [if_pos hm, if_pos (show (recordTime (accept s)).motorOn = true from hm)]; rfl
    · rw [if_neg hm, if_neg (show ¬(recordTime (accept s)).motorOn = true from hm)]; rfl
  rw [positionHead, positionHead, hmotor, seekMove_eq, seekMove_eq]; rfl

/-- Settles O43: the attempts lead to a record of another cylinder, and the events since the head was
positioned are the queries for their answers. -/
theorem rsecSeekErrorDoesNotReseek : Obligations.RsecSeekErrorDoesNotReseek := by
  unfold Obligations.RsecSeekErrorDoesNotReseek
  intro s c h sec fails ids seen more rest hs hi hc hk hf hp hd hne
  obtain ⟨u, hu, htrack, htrace⟩ := readSector_misplaced (r := rsecRead c h sec) (s := accept s)
    (accept_busy s) hi hc hf hk hp hd hne
  refine ⟨finish .seekError u, ?_, rfl, rfl, htrack, hu.pulses,
    hu.units.lastOpTime.trans (positionHead_lastOpTime ..), ?_⟩
  · rw [exec_rsec hs, hu.run]
  · rw [positionHead_accept] at htrace; exact htrace

end Sys2Proof.Machine
end

section
/-! RBLK on given answers of the Pulse Source (R264): the blocks that read without error, one after the other,
and the first block that fails. -/

namespace Sys2Proof.Machine

/-! ### Block number `i` of a request -/

/-- R264: the ReadSector of block number `i`, into slot `i`. -/
def readOfBlock (p : Params) (addr : Half) (count : Byte) (i : Nat) : SectorRead where
  cyl := BitVec.ofNat 8 (chsCyl p (addr.toNat + i))
  head := BitVec.ofNat 8 (chsHead p (addr.toNat + i))
  sec := BitVec.ofNat 8 (chsSec p (addr.toNat + i))
  slot := i
  caller := .rblk addr count

theorem startBlock_eq (addr : Half) (count : Byte) (i : Nat) (s : State) : startBlock addr count i s =
    goto (.readBegin (readOfBlock s.par addr count i)) { s with blockIdx := i } := rfl

/-- R261: the cylinder of a block of a request that is in range. -/
theorem toNat_cylOfBlock {p : Params} (hp : p.wf) {addr : Half} {count : Byte} {i : Nat}
    (hi : i < count.toNat) (hc : addr.toNat + count.toNat ≤ p.capacity) :
    (readOfBlock p addr count i).cyl.toNat = chsCyl p (addr.toNat + i) ∧
      chsCyl p (addr.toNat + i) < p.tracks :=
  have hlt := chsCyl_lt hp (addr := addr.toNat + i) (by omega)
  ⟨toNat_chsCyl hp hlt, hlt⟩

/-- What RBLK does after block number `i` has been copied out (R264): the next block, or its end. -/
def afterBlock (addr : Half) (count : Byte) (i : Nat) (s : State) : State :=
  if i + 1 < count.toNat then startBlock addr count (i + 1) s else endWith (.rblk addr count) .ok s

theorem sectorDone_readOfBlock {p : Params} {addr : Half} {count : Byte} {i : Nat} {s : State}
    (hs : s.blockIdx = i) :
    sectorDone (readOfBlock p addr count i) s = afterBlock addr count i (copySlot i s) := by
  simp only [sectorDone, readOfBlock, hs]; rfl

/-- Block number `i`, with the data `body`, has been read between `s` and `u`. -/
structure BlockStored (p : Params) (addr : Half) (count : Byte) (i : Nat) (body : List Byte)
    (s u : State) : Prop where
  par : u.par = s.par
  ready : u.initialized = s.initialized
  busy : u.busy = true
  motorOn : u.motorOn = true
  track : u.currentTrack = (readOfBlock p addr count i).cyl
  data : ∀ k, k < 512 → bufByte u (512 * i + k) = body.getD (k + 1) 0
  others : ∀ a, a < bodyBase → a < 512 * i ∨ 512 * i + 512 ≤ a → bufByte u a = bufByte s a

/-- R263, R264: a block whose answers let it be read goes to its slot. -/
theorem run_startBlock_good {s : State} (hb : s.busy = true) (hi : s.initialized = true) {addr : Half}
    {count : Byte} {i : Nat} (hc : (readOfBlock s.par addr count i).cyl.toNat < s.par.tracks)
    {b : BlockScript} {rest : List PulseAnswer} (hgood : b.Good s.par (addr.toNat + i))
    (hp : s.pulses = b.script ++ rest) :
    ∃ u, run (startBlock addr count i s) = run (afterBlock addr count i u) ∧ u.pulses = rest ∧
      BlockStored s.par addr count i b.body s u := by
  obtain ⟨hk, hf, hd, hr, hbd, hok⟩ := hgood
  obtain ⟨v, hrun, hsame, hbusy, hpulses, hverdict, _, hbody, hs⟩ :=
    readSector_decodes (readOfBlock s.par addr count i) (s := { s with blockIdx := i }) hb hi hc hk hf
      (rest := rest) (by simpa [BlockScript.script] using hp) hd hr hbd
  have hblock : v.blockIdx = i := hsame.blockIdx.trans (positionHead_blockIdx ..)
  have hcopy : SameDrive v (copySlot i v) := sameDrive_writeBuf ..
  have hdrive := hsame.trans hcopy
  refine ⟨copySlot i v, ?_, (copySlot_pulses ..).trans hpulses, hdrive.par.trans (positionHead_par ..),
    hdrive.initialized.trans (positionHead_initialized ..), (copySlot_busy ..).trans hbusy,
    hdrive.motorOn.trans (positionHead_motorOn ..), hdrive.currentTrack.trans (positionHead_currentTrack ..),
    fun k hk => ?_, fun a ha hout => ?_⟩
  · rw [startBlock_eq, hrun, sectorJudge_ok (hverdict.trans hok), sectorDone_readOfBlock hblock]
  · rw [bufByte_copySlot i v hk, Nat.add_assoc, Nat.add_comm 1 k, hbody (k + 1) (by omega)]
  · rw [bufByte_copySlot_outside i v hout]; exact hs a ha

/-! ### The blocks of a request, one after the other -/

/-- Between `s` and `u` the blocks from number 0 on have been read into their slots. -/
structure BlocksStored (blocks : List BlockScript) (s u : State) : Prop where
  par : u.par = s.par
  ready : u.initialized = s.initialized
  busy : u.busy = true
  data : ∀ (i : Nat) (b : BlockScript), blocks[i]? = some b → ∀ k, k < 512 →
    bufByte u (512 * i + k) = b.body.getD (k + 1) 0
  above : ∀ a, 512 * blocks.length ≤ a → a < bodyBase → bufByte u a = bufByte s a

theorem BlocksStored.nil {s : State} (hb : s.busy = true) : BlocksStored [] s s :=
  ⟨rfl, rfl, hb, by simp, fun _ _ _ => rfl⟩

/-- One more block. -/
theorem BlocksStored.snoc {blocks : List BlockScript} {b : BlockScript} {p : Params} {addr : Half}
    {count : Byte} {s u v : State} (h : BlocksStored blocks s u)
    (hb : BlockStored p addr count blocks.length b.body u v)
    (hslot : 512 * blocks.length + 512 ≤ bodyBase) : BlocksStored (blocks ++ [b]) s v := by
  refine ⟨hb.par.trans h.par, hb.ready.trans h.ready, hb.busy, fun i b' hi k hk => ?_, fun a h1 h2 => ?_⟩
  · rcases Nat.lt_trichotomy i blocks.length with hlt | rfl | hgt
    · rw [List.getElem?_append_left hlt] at hi
      rw [hb.others _ (by omega) (.inl (by omega)), h.data i b' hi k hk]
    · obtain rfl : b = b' := by simpa using hi
      exact hb.data k hk
    · rw [List.getElem?_eq_none (by simp; omega)] at hi; cases hi
  · rw [List.length_append, List.length_singleton] at h1
    rw [hb.others a h2 (.inr (by omega)), h.above a (by omega) h2]

/-- The blocks of a validated request are good. -/
def GoodBlocks (p : Params) (addr : Half) (blocks : List BlockScript) : Prop :=
  ∀ (i : Nat) (b : BlockScript), blocks[i]? = some b → b.Good p (addr.toNat + i)

theorem goodBlocks_concat {p : Params} {addr : Half} {blocks : List BlockScript} {b : BlockScript}
    (h : GoodBlocks p addr (blocks ++ [b])) :
    GoodBlocks p addr blocks ∧ b.Good p (addr.toNat + blocks.length) := by
  refine ⟨fun i b' hi => h i b' ?_, h _ b (by simp)⟩
  rw [List.getElem?_append_left (List.getElem?_eq_some_iff.mp hi).1, hi]

section
variable {s : State} {addr : Half} {count : Byte} (hi : s.initialized = true) (hp : s.par.wf)
  (hm : count.toNat ≤ s.par.maxBlocks) (hc : addr.toNat + count.toNat ≤ s.par.capacity)
include hi hp hm hc

/-- R264: a block of the request, after the good blocks before it. -/
theorem run_startBlock_next {blocks : List BlockScript} {b : BlockScript} {rest : List PulseAnswer}
    {u : State} (hu : BlocksStored blocks s u) (hlen : blocks.length < count.toNat)
    (hgood : b.Good s.par (addr.toNat + blocks.length)) (hpulses : u.pulses = b.script ++ rest) :
    ∃ v, run (startBlock addr count blocks.length u) = run (afterBlock addr count blocks.length v) ∧
      v.pulses = rest ∧ BlockStored s.par addr count blocks.length b.body u v ∧
      BlocksStored (blocks ++ [b]) s v := by
  obtain ⟨hcyl, hlt⟩ := toNat_cylOfBlock hp hlen hc
  have hslot : 512 * blocks.length + 512 ≤ bodyBase := by
    obtain ⟨_, _, _, _, _, _, _, hmax⟩ := hp
    unfold bodyBase; omega
  have h := run_startBlock_good (addr := addr) (count := count) (i := blocks.length) (rest := rest) hu.busy
    (hu.ready.trans hi) (b := b)
  rw [hu.par] at h
  obtain ⟨v, hrun, hrest, hstored⟩ := h (hcyl ▸ hlt) hgood hpulses
  exact ⟨v, hrun, hrest, hstored, hu.snoc hstored hslot⟩

/-- R264: the good blocks before another one lead to it. -/
theorem run_startBlocks (hb : s.busy = true) {blocks : List BlockScript} {rest : List PulseAnswer}
    (hlen : blocks.length < count.toNat) (hgood : GoodBlocks s.par addr blocks)
    (hpulses : s.pulses = blocks.flatMap BlockScript.script ++ rest) :
    ∃ u, run (startBlock addr count 0 s) = run (startBlock addr count blocks.length u) ∧
      u.pulses = rest ∧ BlocksStored blocks s u := by
  induction blocks using List.reverseRecOn generalizing rest with
  | nil => exact ⟨s, rfl, hpulses, .nil hb⟩
  | append_singleton blocks b ih =>
    rw [List.length_append, List.length_singleton] at hlen ⊢
    obtain ⟨hblocks, hblock⟩ := goodBlocks_concat hgood
    obtain ⟨u, hrun, hrest, hu⟩ := ih (by omega) hblocks (rest := b.script ++ rest) (by simpa using hpulses)
    obtain ⟨v, hrun', hrest', _, hv⟩ :=
      run_startBlock_next hi hp hm hc hu (by omega) hblock hrest
    refine ⟨v, ?_, hrest', hv⟩
    rw [hrun, hrun', afterBlock, if_pos hlen]

end

/-- Settles O46: the blocks before the last one lead to it, and its end is RBLK's. -/
theorem rblkDeliversEveryBlock : Obligations.RblkDeliversEveryBlock := by
  unfold Obligations.RblkDeliversEveryBlock
  intro s addr count blocks rest hp hs hi h1 hm hc hlen hgood hpulses
  obtain rfl | ⟨init, b, rfl⟩ := blocks.eq_nil_or_concat'
  · rw [← hlen] at h1; cases h1
  rw [List.length_append, List.length_singleton] at hlen
  obtain ⟨hblocks, hblock⟩ := goodBlocks_concat hgood
  obtain ⟨u, hrun, hrest, hu⟩ := run_startBlocks (s := accept s) (addr := addr) hi hp hm hc (accept_busy s)
    (rest := b.script ++ rest) (by omega) hblocks (by simpa using hpulses)
  obtain ⟨v, hrun', hrest', hstored, hv⟩ :=
    run_startBlock_next (s := accept s) hi hp hm hc hu (by omega) hblock hrest
  obtain ⟨hcyl, _⟩ := toNat_cylOfBlock hp (i := init.length) (by omega) hc
  refine ⟨finish .ok v, ?_, rfl, rfl, hrest', hstored.motorOn, ?_, hv.data⟩
  · rw [exec_rblk_starts hs h1 hm hc, hrun, hrun', afterBlock, if_neg (by omega),
      run_endWith _ _ hstored.busy]
  · rw [finish_currentTrack, hstored.track, ← hlen]; exact hcyl

/-- Settles O47: the good blocks lead to the next one, whose ReadSector fails and ends RBLK. -/
theorem rblkStopsAtFirstError : Obligations.RblkStopsAtFirstError := by
  unfold Obligations.RblkStopsAtFirstError
  intro s addr count blocks as e rest hp hs hi hm hc hlen hgood hfail hpulses
  obtain ⟨u, hrun, hrest, hu⟩ := run_startBlocks (s := accept s) (addr := addr) hi hp hm hc (accept_busy s)
    hlen hgood hpulses
  have hpar : u.par = s.par := hu.par
  have hstart : startBlock addr count blocks.length u =
      goto (.readBegin (readOfBlock s.par addr count blocks.length))
        { u with blockIdx := blocks.length } := by
    rw [← hpar]; rfl
  obtain ⟨hcyl, hlt⟩ := toNat_cylOfBlock hp hlen hc
  obtain ⟨v, hv⟩ := readSector_fails (r := readOfBlock s.par addr count blocks.length)
    (s := { u with blockIdx := blocks.length }) (rest := rest) hu.busy (hu.ready.trans hi)
    (by rw [hcyl, hpar]; exact hlt) (by rw [hpar]; exact hfail) hrest
  have hmax : count.toNat ≤ 64 := by obtain ⟨_, _, _, _, _, _, _, hmax⟩ := hp; omega
  have hbase : bodyBase = 512 * 64 := rfl
  refine ⟨finish e v, ?_, rfl, rfl, hv.pulses, hv.blockIdx, fun i b hb k hk => ?_, fun a h1 h2 => ?_⟩
  · rw [exec_rblk_starts hs (by omega) hm hc, hrun, hstart, hv.run]
  · have hlt := (List.getElem?_eq_some_iff.mp hb).1
    exact (hv.slots _ (by omega) (.inl (show 512 * i + k < 512 * blocks.length by omega))).trans
      (hu.data i b hb k hk)
  · exact (hv.slots a h2 (.inr (show 512 * blocks.length + 512 ≤ a by omega))).trans
      (hu.above a (by omega) h2)

end Sys2Proof.Machine
end

section
/-! The frame of RSEC and RBLK (O49): what their points leave as it was, from acceptance to the end. -/

namespace Sys2Proof.Machine

/-! ### The host's side of a run -/

/-- A command run by `exec`, or by a step in which the host has no access to make, leaves the host's side as
it was. -/
theorem Runs.hostSide {i : Instr} {s t : State} (h : Runs i s t)
    (h0 : exec i s = .next t ∨ s.host = []) : t.host = s.host ∧ t.hostData = s.hostData := by
  by_cases he : exec i s = .next t
  · rcases wf_or_long i with hw | ⟨n, rfl, hlong⟩
    · rw [exec_start hw] at he; cases he
      have hstart : (start i (accept s)).host = s.host ∧ (start i (accept s)).hostData = s.hostData := by
        rw [start_eq]; exact ⟨rfl, rfl⟩
      unfold launch; split
      · exact hstart
      · obtain ⟨_, j, hj, hi⟩ := start_running i s
        refine run_induct (i := i) (P := fun u => u.host = s.host ∧ u.hostData = s.hostData) ?_
          (fun j' hj' => by cases hj.symm.trans hj'; exact hi) hstart
        rintro u j _ _ _ ⟨hhost, hdata⟩
        obtain ⟨_, hhost', hdata', _⟩ := act_host j u
        exact ⟨hhost'.trans hhost, hdata'.trans hdata⟩
    · rw [exec_long hlong] at he; cases he; exact ⟨rfl, rfl⟩
  · have hh := h0.resolve_left he
    obtain ⟨_, hr, hstep⟩ := h.resolve_left he
    rcases step_running hr hstep with ⟨rest, j, hrest, _, _, rfl⟩ | ⟨_, _, _, hne, _⟩
    · obtain ⟨_, hhost, hdata, _⟩ := act_host j { s with host := rest }
      rcases hrest with ⟨_, rfl⟩ | hidle
      · exact ⟨hhost.trans hh.symm, hdata⟩
      · rw [hh] at hidle; cases hidle
    · exact absurd hh hne

/-! ### The buffers of a ReadSector (R263, R264) -/

/-- `a` lies in neither of the three buffers that the ReadSector `r` writes: its slot, BODY_BUF, AM_BUF. -/
structure OutsideRead (r : SectorRead) (a : Nat) : Prop where
  slot : a < slotBase r.slot ∨ slotBase r.slot + sectorSize ≤ a
  body : a < bodyBase ∨ bodyBase + bodySize ≤ a
  record : a < amBase ∨ amBase + amSize ≤ a

/-- R263, R264: a ReadSector writes in its command's region: its slot is slot 0, or that of a block of the
request. -/
theorem outsideRead_of_not_readRegion {r : SectorRead} {s : State} (h : CallerOk s r) {a : Nat}
    (ha : ¬readRegion r.command a) : OutsideRead r a := by
  have hslot := slotBase_eq r.slot
  have hsize : sectorSize = 512 := rfl
  rcases r.command_cases with ⟨hr, e⟩ | ⟨addr, count, hr, e⟩ <;>
    simp only [e, readRegion, not_or] at ha <;> obtain ⟨hslots, hbody, hrecord⟩ := ha
  · have hzero : r.slot = 0 := by rwa [CallerOk, hr] at h
    exact ⟨by omega, by omega, by omega⟩
  · obtain ⟨hidx, hlt, _⟩ := (callerOk_rblk hr).mp h
    exact ⟨by omega, by omega, by omega⟩

/-- R263: after its Decode a ReadSector writes its slot alone. -/
theorem Tail.bufByte_outsideSlot {d : Decoding} {s t : State} (h : Tail d s t) {a : Nat}
    (ha : ∀ r, d = .readId r ∨ d = .readBody r → a < slotBase r.slot ∨ slotBase r.slot + sectorSize ≤ a) :
    bufByte t a = bufByte s a := by
  have hfail : ∀ (r : SectorRead) (c : ResultCode) (u : State), d = .readId r ∨ d = .readBody r →
      bufByte (sectorFail r c u) a = bufByte u a := fun r c u hr => by
    rw [sectorFail, bufByte_endWith]; exact sameOutside_drawBuf _ _ u a (ha r hr)
  have hcopy : ∀ r, d = .readBody r → bufByte (copySlot r.slot s) a = bufByte s a := fun r hr =>
    SameOutside.setAll (copySlot_par ..) (copySlot_mem ..) (le_of_eq (bufBytes_length ..)) a (ha r (.inr hr))
  cases h with
  | fails r c hd hc => exact hfail r c s hd
  | failsMisplaced r hd => exact hfail r _ _ (.inl hd)
  | done r hd => rw [bufByte_endWith, hcopy r hd]
  | next r addr count hd hr hk => rw [bufByte_startBlock, hcopy r hd]
  | ends c hc => rfl
  | endsMisplaced hl => rfl
  | again k hl h1 hk => rfl
  | body r hd => rfl

/-- R264: after its Decode only RBLK writes BLOCK_IDX. -/
theorem Tail.blockIdx_eq {d : Decoding} {s t : State} (h : Tail d s t) :
    t.blockIdx = s.blockIdx ∨ ∃ addr count, d.command = .rblk addr count := by
  cases h with
  | next r addr count hd hr hk =>
    subst hd; exact .inr ⟨addr, count, by rw [Decoding.command, SectorRead.command, hr]⟩
  | _ => left; simp

/-! ### What a sector read keeps -/

/-- What RSEC or RBLK, the command `i`, keeps from `s` on, where it stands at `u`. -/
structure ReadKept (i : Instr) (s u : State) : Prop where
  par : u.par = s.par
  initialized : u.initialized = s.initialized
  rdata : u.rdata = s.rdata
  stepCnt : u.stepCnt = s.stepCnt
  driveSel : u.lines.driveSel = s.lines.driveSel
  trk0s : u.trk0s = s.trk0s
  blockIdx : u.blockIdx = s.blockIdx ∨ ∃ addr count, i = .rblk addr count
  bytes : ∀ a, ¬readRegion i a → bufByte u a = bufByte s a

theorem ReadKept.trans {i : Instr} {s t u : State} (h : ReadKept i s t) (h' : ReadKept i t u) :
    ReadKept i s u where
  par := h'.par.trans h.par
  initialized := h'.initialized.trans h.initialized
  rdata := h'.rdata.trans h.rdata
  stepCnt := h'.stepCnt.trans h.stepCnt
  driveSel := h'.driveSel.trans h.driveSel
  trk0s := h'.trk0s.trans h.trk0s
  blockIdx := h'.blockIdx.elim (fun e => h.blockIdx.imp_left e.trans) .inr
  bytes a ha := (h'.bytes a ha).trans (h.bytes a ha)

/-- An update that keeps the registers and writes no byte. -/
theorem ReadKept.of_mem {i : Instr} {s u : State} (hu : SameUnits s u) (hm : u.mem = s.mem)
    (hb : u.blockIdx = s.blockIdx ∨ ∃ addr count, i = .rblk addr count) : ReadKept i s u :=
  ⟨hu.par, hu.initialized, hu.rdata, hu.stepCnt, by rw [hu.lines], hu.trk0s, hb,
    fun a _ => bufByte_congr hu.par hm a⟩

section
variable {r : SectorRead} {s : State} (hr : CallerOk s r)
include hr

theorem readKept_sectorFail (e : ResultCode) : ReadKept r.command s (sectorFail r e s) :=
  ⟨sectorFail_par .., sectorFail_initialized .., sectorFail_rdata .., sectorFail_stepCnt ..,
    by rw [sectorFail_lines], sectorFail_trk0s .., .inl (sectorFail_blockIdx ..), fun a ha => by
    rw [sectorFail, bufByte_endWith]
    exact sameOutside_drawBuf _ _ s a (outsideRead_of_not_readRegion hr ha).slot⟩

theorem readKept_locateTry (k : Nat) : ReadKept r.command s (locateTry k (.readId r) s) := by
  unfold locateTry
  split
  · exact .of_mem ⟨rfl, rfl, rfl, rfl, rfl, rfl, rfl, rfl, rfl, rfl, rfl, rfl⟩ rfl (.inl rfl)
  · exact readKept_sectorFail hr _

/-- R224, R263: SeekCheck, and its error or SetMotor. -/
theorem readKept_readStart : ReadKept r.command s (readStart r s) := by
  unfold readStart
  split
  · exact readKept_sectorFail hr _
  · obtain ⟨_, hdrive, _⟩ := setMotor_lines true s
    exact ⟨setMotor_par .., setMotor_initialized .., setMotor_rdata .., setMotor_stepCnt .., hdrive,
      setMotor_trk0s .., .inl (setMotor_blockIdx ..),
      fun a _ => bufByte_congr (setMotor_par ..) (setMotor_mem ..) a⟩

/-- R225, R263: a step pulse; or the arrival, HEAD_SEL and the first attempt. -/
theorem readKept_readTurn (k : Nat) : ReadKept r.command s (readTurn r k s) := by
  cases k with
  | zero =>
    refine ReadKept.trans (t := driveLine .headSel (r.head != 0) (seekArrive r.cyl s))
      ⟨rfl, rfl, rfl, rfl, rfl, rfl, .inl rfl, fun _ _ => rfl⟩
      (readKept_locateTry (s := driveLine .headSel (r.head != 0) (seekArrive r.cyl s)) hr 1)
  | succ k =>
    simp only [readTurn, stepPulse_eq]
    exact ⟨rfl, rfl, rfl, rfl, rfl, rfl, .inl rfl, fun _ _ => rfl⟩

/-- R139: one turn of one of its Decodes. -/
theorem readKept_takeAnswer {d : Decoding} (hd : d = .readId r ∨ d = .readBody r) :
    ReadKept r.command s (takeAnswer d s) := by
  have hunits := (takeAnswer_kept d s).1
  have hcmd : d.command = r.command := by rcases hd with rfl | rfl <;> rfl
  have hslot : ∀ {a}, ¬readRegion r.command a → ∀ r', d = .readId r' ∨ d = .readBody r' →
      a < slotBase r'.slot ∨ slotBase r'.slot + sectorSize ≤ a := by
    rintro a ha r' hr'
    obtain rfl : r = r' := by rcases hd with rfl | rfl <;> rcases hr' with e | e <;> cases e <;> rfl
    exact (outsideRead_of_not_readRegion hr ha).slot
  have hdst : ∀ {a}, ¬readRegion r.command a → a < d.base ∨ d.base + d.need ≤ a := by
    intro a ha
    have hout := outsideRead_of_not_readRegion hr ha
    rcases hd with rfl | rfl
    · exact hout.record
    · exact hout.body
  have hfed : ∀ x a, ¬readRegion r.command a → bufByte (feedPulse d x (takePulse s)) a = bufByte s a :=
    fun x a ha => sameOutside_feedPulse d x (takePulse s) a (hdst ha)
  obtain ⟨hblock, hbytes⟩ : ((takeAnswer d s).blockIdx = s.blockIdx ∨
      ∃ addr count, r.command = .rblk addr count) ∧
      ∀ a, ¬readRegion r.command a → bufByte (takeAnswer d s) a = bufByte s a := by
    rcases takeAnswer_cases d s with ⟨x, _, _, e⟩ | ⟨x, _, _, ht⟩ | ⟨_, ht⟩
    · rw [e]; exact ⟨.inl rfl, hfed x⟩
    · exact ⟨hcmd ▸ ht.blockIdx_eq, fun a ha => (ht.bufByte_outsideSlot (hslot ha)).trans (hfed x a ha)⟩
    · exact ⟨hcmd ▸ ht.blockIdx_eq, fun a ha => (ht.bufByte_outsideSlot (hslot ha)).trans
        (sameOutside_drawBuf _ _ (takePulse s) a (hdst ha))⟩
  exact ⟨hunits.par, hunits.initialized, hunits.rdata, hunits.stepCnt, by rw [hunits.lines], hunits.trk0s,
    hblock, hbytes⟩

end

/-- Each point of RSEC and of RBLK keeps all this. -/
theorem readKept_act {i : Instr}
    (hi : (∃ c h sec, i = .rsec c h sec) ∨ ∃ addr count, i = .rblk addr count) {j : Job} {s : State}
    (hj : j.command = i) (hok : JobOk s j) : ReadKept i s (act j s) := by
  subst hj
  cases j with
  | rblk addr count =>
    rw [act, startBlocks]
    split <;> exact .of_mem (by constructor <;> rfl) rfl (.inr ⟨addr, count, rfl⟩)
  | readBegin r => exact ⟨rfl, rfl, rfl, rfl, rfl, rfl, .inl rfl, fun _ _ => rfl⟩
  | readCheck r => exact readKept_readStart hok
  | readMove r => exact ⟨rfl, rfl, rfl, rfl, rfl, rfl, .inl rfl, fun _ _ => rfl⟩
  | readStep r k => obtain ⟨hcaller, _⟩ := hok; exact readKept_readTurn hcaller k
  | ending i c => exact .of_mem (by constructor <;> rfl) rfl (.inl rfl)
  | decoding d =>
    obtain ⟨_, _, _, _, hpos⟩ := decodingOk_iff.mp hok
    cases d with
    | readId r => exact readKept_takeAnswer (hpos.callerOk (.inl rfl)) (.inl rfl)
    | readBody r => exact readKept_takeAnswer (hpos.callerOk (.inr rfl)) (.inr rfl)
    | _ => simp [Job.command, Decoding.command] at hi
  | _ => simp [Job.command] at hi

/-- What a sector read keeps, wherever it stands. -/
theorem Runs.readKept {i : Instr} {s t : State}
    (hi : (∃ c h sec, i = .rsec c h sec) ∨ ∃ addr count, i = .rblk addr count) (h : Runs i s t) :
    ReadKept i s t := by
  have hw : i.wf = true := by rcases hi with ⟨_, _, _, rfl⟩ | ⟨_, _, rfl⟩ <;> rfl
  refine h.induct_jobOk (P := ReadKept i s) ?_ ?_ ?_ fun u j _ _ hj _ hok hu =>
    hu.trans (readKept_act hi hj (hok hw))
  · rw [start_eq]; exact ⟨rfl, rfl, rfl, rfl, rfl, rfl, .inl rfl, fun _ _ => rfl⟩
  · exact fun _ _ _ => ⟨rfl, rfl, rfl, rfl, rfl, rfl, .inl rfl, fun _ _ => rfl⟩
  · exact ⟨rfl, rfl, rfl, rfl, rfl, rfl, .inl rfl, fun _ _ => rfl⟩

/-- Settles O49: each point of a sector read keeps the registers and the bytes outside its buffers, and only
RBLK writes BLOCK_IDX. -/
theorem sectorReadFrame : Obligations.SectorReadFrame := by
  unfold Obligations.SectorReadFrame
  intro i s t hi hr
  have hk := hr.readKept hi
  refine ⟨hk.par, hk.initialized, hk.rdata, hk.stepCnt, hk.driveSel, hk.trk0s, hr.hostSide, ?_, hk.bytes⟩
  rintro ⟨c, h, sec, rfl⟩
  exact hk.blockIdx.resolve_right (by simp)

end Sys2Proof.Machine
end

section
/-! Pulses that never time out and never hold a Short (R305, O36): Decode stays in SYNC, and the command that
runs it stays BUSY. -/

namespace Sys2Proof.Machine

/-! ### Decode on pulses that are no Shorts (R130, R133) -/

/-- R130: a duration from T_MEDIUM on is no Short. -/
theorem classify_ne_short {p : Params} {x : Nat} (h : p.tMedium ≤ x) : classify p x ≠ .short := by
  rw [classify, if_neg (Nat.not_lt_of_le h)]
  split <;> simp

/-- R133: a pulse that is no Short leaves Decode in SYNC. -/
theorem feed_sync_phase {d : Decoder} {c : PulseClass} (h : d.phase = .sync) (hc : c ≠ .short) (p : Params)
    (n : Nat) : (feed p n d c).1.phase = .sync := by
  rw [feed_sync h, feedSync, if_neg hc]; exact h

/-- R133, R139: pulses of which none is a Short leave Decode in SYNC, at each of them. -/
theorem feedAll_sync_phase (p : Params) (n : Nat) {cs : List PulseClass} (hcs : ∀ c ∈ cs, c ≠ .short)
    {d : Decoder} (h : d.phase = .sync) :
    (feedAll p n d cs).1.phase = .sync ∧ neverCompletes p n d cs = true := by
  induction cs generalizing d with
  | nil => exact ⟨h, rfl⟩
  | cons c cs ih =>
    obtain ⟨hc, hcs⟩ := List.forall_mem_cons.mp hcs
    have hfed : (feed p n d c).1.phase = .sync := feed_sync_phase h hc p n
    obtain ⟨hphase, hnever⟩ := ih hcs hfed
    refine ⟨hphase, ?_⟩
    rw [neverCompletes, hnever, decodeComplete_of_phase_ne (by rw [hfed]; decide)]; rfl

/-! ### The way to a command's first Decode -/

/-- Between `s` and `u` a command that has been accepted runs on, and asks for no pulse. -/
structure RunsOn (s u : State) : Prop where
  par : u.par = s.par
  busy : u.busy = true
  result : u.result = s.result
  pulses : u.pulses = s.pulses

/-- R182: the first attempt of a Locate begins with its Decode. -/
theorem locateTry_one {s : State} (hp : s.par.wf) (d : Decoding) :
    locateTry 1 d s = beginDecode d { s with attempt := 1 } := by
  obtain ⟨_, _, _, _, _, hattempts, _⟩ := hp
  exact if_pos hattempts

/-- R263: a ReadSector in READY runs on to the Decode of its first attempt. -/
theorem run_readBegin_decodes (r : SectorRead) {s u : State} (hu : RunsOn s u) (hp : s.par.wf)
    (hi : u.initialized = true) (hc : r.cyl.toNat < s.par.tracks) :
    ∃ v, run (goto (.readBegin r) u) = run (beginDecode (.readId r) v) ∧ RunsOn s v := by
  have hpos : RunsOn s (positionHead r.cyl r.head (recordTime u)) :=
    ⟨(positionHead_par ..).trans hu.par, (positionHead_busy ..).trans hu.busy,
      (positionHead_result ..).trans hu.result, (positionHead_pulses ..).trans hu.pulses⟩
  refine ⟨{ positionHead r.cyl r.head (recordTime u) with attempt := 1 }, ?_, hpos.par, hpos.busy,
    hpos.result, hpos.pulses⟩
  rw [run_readBegin_ready r hu.busy hi (by rw [hu.par]; exact hc),
    locateTry_one (by rw [hpos.par]; exact hp)]

/-- The commands that decode, with the checks of RSEC and RBLK passed (R224, R265). -/
def Decodes (s : State) (i : Instr) : Prop :=
  (∃ n : Half, n.toNat ≤ 515 ∧ i = .decode n) ∨ i = .rbody ∨ (∃ c h sec, i = .locate c h sec) ∨
    s.initialized = true ∧
      ((∃ c h sec, c.toNat < s.par.tracks ∧ i = .rsec c h sec) ∨
        ∃ addr count, 1 ≤ count.toNat ∧ count.toNat ≤ s.par.maxBlocks ∧
          addr.toNat + count.toNat ≤ s.par.capacity ∧ i = .rblk addr count)

/-- Each of them runs on to its first Decode. -/
theorem exec_decodes {i : Instr} {s : State} (hp : s.par.wf) (hi : Decodes s i) (hs : s.stepwise = false) :
    ∃ d u, exec i s = .next (run (beginDecode d u)) ∧ RunsOn s u := by
  have haccept : RunsOn s (accept s) := ⟨rfl, rfl, rfl, rfl⟩
  rcases hi with ⟨n, hn, rfl⟩ | rfl | ⟨c, h, sec, rfl⟩ | ⟨hready, ⟨c, h, sec, hc, rfl⟩ | hblk⟩
  · exact ⟨_, _, exec_run (i := .decode n) (decide_eq_true hn) hs, haccept⟩
  · exact ⟨_, _, exec_run (i := .rbody) rfl hs, haccept⟩
  · refine ⟨.locate c h sec, { accept s with attempt := 1 }, ?_, rfl, rfl, rfl, rfl⟩
    rw [exec_run (i := .locate c h sec) rfl hs, start, locateTry_one (s := accept s) hp]
  · obtain ⟨u, hrun, hu⟩ := run_readBegin_decodes (rsecRead c h sec) haccept hp hready hc
    exact ⟨_, u, (exec_rsec hs).trans (congrArg _ hrun), hu⟩
  · obtain ⟨addr, count, h1, hm, hc, rfl⟩ := hblk
    obtain ⟨hcyl, hlt⟩ := toNat_cylOfBlock hp (i := 0) h1 hc
    have hblock : RunsOn s { accept s with blockIdx := 0 } := ⟨rfl, rfl, rfl, rfl⟩
    obtain ⟨u, hrun, hu⟩ :=
      run_readBegin_decodes (readOfBlock s.par addr count 0) hblock hp hready (hcyl ▸ hlt)
    exact ⟨_, u, (exec_rblk_starts hs h1 hm hc).trans (congrArg _ hrun), hu⟩

/-! ### The command stays BUSY (R305) -/

/-- R305: a fresh Decode that is given pulses of one duration, no Short, takes them all and waits in SYNC. -/
theorem run_unsyncable (d : Decoding) {s : State} {x m : Nat} (hb : s.busy = true) (hx : s.par.tMedium ≤ x)
    (hp : s.pulses = List.replicate m (.pulse x)) :
    (run (beginDecode d s)).busy = true ∧ (run (beginDecode d s)).result = s.result ∧
      (run (beginDecode d s)).dec.phase = .sync ∧ (run (beginDecode d s)).pulses = [] := by
  have hclasses : ∀ c ∈ (List.replicate m x).map (classify s.par), c ≠ .short := by
    intro c hc
    rw [List.map_replicate] at hc
    rw [List.eq_of_mem_replicate hc]
    exact classify_ne_short hx
  obtain ⟨hphase, hnever⟩ := feedAll_sync_phase s.par d.need hclasses (d := decoderStart s.dec) rfl
  have hrun : run (beginDecode d s) = afterPulses d (List.replicate m x) [] (beginDecode d s) :=
    run_stillWaits (s := beginDecode d s) hb rfl (hp.trans List.map_replicate.symm) hnever
  rw [hrun]
  exact ⟨hb, rfl, hphase, rfl⟩

/-- R305: one more such pulse leaves a waiting command as it waits. -/
theorem takeAnswer_unsyncable (d : Decoding) {s : State} {x : Nat} (hd : s.dec.phase = .sync)
    (hx : s.par.tMedium ≤ x) (ha : pulseAnswer s = .pulse x) :
    (takeAnswer d s).dec.phase = .sync ∧ (takeAnswer d s).job = s.job := by
  have hfed := feed_sync_phase hd (classify_ne_short hx) s.par d.need
  rw [takeAnswer_underWay ha (decodeComplete_of_phase_ne (by rw [hfed]; decide))]
  exact ⟨hfed, rfl⟩

/-- Settles O36: the command runs on to its first Decode, which such pulses keep in SYNC. -/
theorem unsyncableStreamHangs : Obligations.UnsyncableStreamHangs := by
  unfold Obligations.UnsyncableStreamHangs
  intro s x m hp hx
  refine ⟨fun i hi hs hpulses => ?given, fun d hb hj hd hh ha => ?oneMore⟩
  case given =>
    obtain ⟨d, u, hexec, hu⟩ := exec_decodes hp hi hs
    obtain ⟨hbusy, hresult, hphase, hrest⟩ :=
      run_unsyncable d hu.busy (by rw [hu.par]; exact hx) (hu.pulses.trans hpulses)
    exact ⟨_, hexec, hbusy, hresult.trans hu.result, hphase, hrest⟩
  case oneMore =>
    obtain ⟨_, hbusy, hresult, _⟩ := takeAnswer_kept d s
    obtain ⟨hphase, hjob⟩ := takeAnswer_unsyncable d hd hx ha
    exact ⟨_, step_act hb hj hh, hbusy.trans hb, hresult, hphase, hjob⟩

end Sys2Proof.Machine
end

section
/-! No command faults or is refused (R300, R309, O11). -/

namespace Sys2Proof.Machine

/-- R300: every command answers a next state. -/
theorem exec_answers (i : Instr) (s : State) : ∃ t, exec i s = .next t := by
  rcases wf_or_long i with hw | ⟨n, rfl, hn⟩
  · exact ⟨_, exec_start hw s⟩
  · exact ⟨_, exec_long hn s⟩

/-- R91, R95: every CMD write answers a next state: it is ignored, its command is executed, or its word is
rejected. -/
theorem writeCmd_answers (w : Word) (s : State) : ∃ t, writeCmd w s = .next t := by
  cases hb : s.busy with
  | true => exact ⟨s, writeCmd_busy hb w⟩
  | false =>
    cases hd : decodeWord w with
    | ok i => rw [writeCmd_ok hb hd]; exact exec_answers i s
    | error e => exact ⟨_, writeCmd_error hb hd⟩

/-- R38: every aligned access of the host has a move. -/
theorem hostMove_answers {m : HostMove} (hm : m.aligned = true) (s : State) : ∃ t, hostMove m s = .next t := by
  cases m with
  | writeReg off w =>
    rw [hostMove, if_pos (beq_iff_eq.mp hm), writeRegister]
    split
    · exact writeCmd_answers w s
    · exact ⟨s, rfl⟩
  | readReg off => exact ⟨_, if_pos (beq_iff_eq.mp hm)⟩
  | readBuf addr => exact ⟨_, rfl⟩
  | writeBuf addr b => exact ⟨_, rfl⟩
  | idle => exact ⟨_, rfl⟩

/-- Settles O11: a step is an aligned access of the host, or the turn of a core that the host leaves alone. -/
theorem everyCommandAnswersNext : Obligations.EveryCommandAnswersNext := by
  unfold Obligations.EveryCommandAnswersNext
  refine ⟨exec_answers, fun s hm => ?_⟩
  rw [step]
  cases hh : s.host with
  | nil => exact ⟨_, rfl⟩
  | cons m rest => exact hostMove_answers (hm m (by rw [hh]; rfl)) _

end Sys2Proof.Machine
end

section
/-! The parameters are fixed (R343, O18), and an idle core waits (R341, O10). -/

namespace Sys2Proof.Machine

/-! ### The parameters -/

/-- R343: a command keeps the parameters: its acceptance does, and so does each of its points. -/
theorem exec_par {i : Instr} {s t : State} (h : exec i s = .next t) : t.par = s.par := by
  have hrun : Runs i s t := .inl h
  refine hrun.induct (P := fun u => u.par = s.par) ?_ (fun _ _ _ _ _ => rfl) (fun _ => rfl)
    fun u j _ _ _ hu => (act_host j u).1.trans hu
  rw [start_eq]; rfl

theorem advance_par (s : State) : (advance s).par = s.par := by
  unfold advance
  split
  · rfl
  · exact (act_host _ s).1

/-- Settles O18: a step executes a command, takes the running one to its next point, or leaves the core's
own state alone but for RESULT. -/
theorem parametersAreFixed : Obligations.ParametersAreFixed := by
  unfold Obligations.ParametersAreFixed
  intro s t hstep
  rcases step_cases hstep with ⟨i, rest, w, _, _, _, he⟩ | ⟨rest, _, _, rfl⟩ | ⟨rest, hd, dr, r, e, _⟩
  · exact exec_par (s := { s with host := rest }) he
  · exact advance_par _
  · rw [e]

/-! ### Steps without an access -/

/-- R31, R341: with no access to make, a step is the core's turn. -/
theorem step_noAccess {s : State} (h : s.host = []) : step s = .next (turn s) := by
  rw [step, h]

/-- An access that the host lets pass leaves the step to the core's turn (log entry 7). -/
theorem step_idle {s : State} {rest : List HostMove} (h : s.host = .idle :: rest) :
    step s = .next (turn { s with host := rest }) := by
  rw [step, h]; rfl

/-- R341: an idle core waits. -/
theorem turn_idleCore {s : State} (h : s.busy = false) : turn s = s := by
  simp [turn, h]

/-- Settles O10: without an access the step is the core's turn, which does not look at the host's list. -/
theorem idleCoreWaits : Obligations.IdleCoreWaits := by
  unfold Obligations.IdleCoreWaits
  refine ⟨fun s hb hh => ?waits, fun s t rest hh hstep => ?passes⟩
  case waits => rw [step_noAccess hh, turn_idleCore hb]
  case passes =>
    rw [step_noAccess rfl] at hstep
    cases hstep
    rw [step_idle hh, turn_host rest s, turn_host [] s]

end Sys2Proof.Machine
end
